-- ==== Sys2Proof/Word.lean ====
section
/-! DEFINITION. The widths that cross the block's bus port (00_scope.md R8, 30_encoding.md R70): a byte of data,
a 16-bit bus address, and the 25-bit transaction word. -/

namespace Sys2Proof

/-- One byte of data: `DATA_WIDTH` is 8 bits (R8). -/
abbrev Byte := BitVec 8

/-- A bus address: `ADDR_WIDTH` is 16 bits (R8, R34). -/
abbrev Addr := BitVec 16

/-- A transaction word `T` of format `BUS`: 25 bits (R70). -/
abbrev Word := BitVec 25

end Sys2Proof
end

