-- ==== Sys2Proof/Syntax.lean ====
section
/-! DEFINITION. The instructions: one constructor for each of the 43 rows of spec/opcode_table.json (30_encoding.md R75),
the decode modes (the mapper kinds of 00_scope.md R2), and the bus transaction an instruction stands for (R70). -/

namespace Sys2Proof

/-- The closed set `MapperKind` (R2). It is also the decode mode `st.kind` (R73). `unsupported` is the registry's tag for an
unknown cartridge type, and no constructed block has it (R2, R262). -/
inductive MapperKind where
  | romOnly
  | mbc1
  | mbc2
  | mbc3
  | mbc5
  | mbc6
  | mbc7
  | mmm01
  | unsupported
  deriving DecidableEq, Repr

/-- A bus transaction as the bus master issues it: `read(A)` or `write(A, D)` (R6, R11). -/
inductive Transaction where
  | read (a : Addr)
  | write (a : Addr) (d : Byte)
  deriving DecidableEq, Repr

/-- An instruction: a row of the decode map with its operands (R72). A read row has the address `a`, a write row the address
`a` and the data `d`; the three refused rows take any word, so they hold `w` (is it a write), `a` and `d`. -/
inductive Instr where
  /-- RD_UNMAPPED_LO: read of 0x8000-0x9FFF (R104). -/
  | rdUnmappedLo (a : Addr)
  /-- WR_UNMAPPED_LO: write of 0x8000-0x9FFF (R105). -/
  | wrUnmappedLo (a : Addr) (d : Byte)
  /-- RD_UNMAPPED_HI: read of 0xC000-0xFFFF (R106). -/
  | rdUnmappedHi (a : Addr)
  /-- WR_UNMAPPED_HI: write of 0xC000-0xFFFF (R107). -/
  | wrUnmappedHi (a : Addr) (d : Byte)
  /-- RO_RD_ROM: read of 0x0000-0x7FFF (R110). -/
  | roRdRom (a : Addr)
  /-- RO_WR_ROM: write of 0x0000-0x7FFF (R111). -/
  | roWrRom (a : Addr) (d : Byte)
  /-- RO_RD_RAM: read of 0xA000-0xBFFF (R112). -/
  | roRdRam (a : Addr)
  /-- RO_WR_RAM: write of 0xA000-0xBFFF (R113). -/
  | roWrRam (a : Addr) (d : Byte)
  /-- MBC1_RD_ROM0: read of 0x0000-0x3FFF (R132). -/
  | mbc1RdRom0 (a : Addr)
  /-- MBC1_RD_ROMX: read of 0x4000-0x7FFF (R133). -/
  | mbc1RdRomx (a : Addr)
  /-- MBC1_RD_RAM: read of 0xA000-0xBFFF (R134). -/
  | mbc1RdRam (a : Addr)
  /-- MBC1_WR_RAMG: write of 0x0000-0x1FFF (R135). -/
  | mbc1WrRamg (a : Addr) (d : Byte)
  /-- MBC1_WR_BANK1: write of 0x2000-0x3FFF (R136). -/
  | mbc1WrBank1 (a : Addr) (d : Byte)
  /-- MBC1_WR_BANK2: write of 0x4000-0x5FFF (R137). -/
  | mbc1WrBank2 (a : Addr) (d : Byte)
  /-- MBC1_WR_MODE: write of 0x6000-0x7FFF (R138). -/
  | mbc1WrMode (a : Addr) (d : Byte)
  /-- MBC1_WR_RAM: write of 0xA000-0xBFFF (R139). -/
  | mbc1WrRam (a : Addr) (d : Byte)
  /-- MBC2_RD_ROM0: read of 0x0000-0x3FFF (R152). -/
  | mbc2RdRom0 (a : Addr)
  /-- MBC2_RD_ROMX: read of 0x4000-0x7FFF (R153). -/
  | mbc2RdRomx (a : Addr)
  /-- MBC2_RD_RAM: read of 0xA000-0xBFFF (R154). -/
  | mbc2RdRam (a : Addr)
  /-- MBC2_WR_RAMG: write of 0x0000-0x1FFF (R155). -/
  | mbc2WrRamg (a : Addr) (d : Byte)
  /-- MBC2_WR_ROMB: write of 0x2000-0x3FFF (R156). -/
  | mbc2WrRomb (a : Addr) (d : Byte)
  /-- MBC2_WR_NOP: write of 0x4000-0x7FFF (R157). -/
  | mbc2WrNop (a : Addr) (d : Byte)
  /-- MBC2_WR_RAM: write of 0xA000-0xBFFF (R158). -/
  | mbc2WrRam (a : Addr) (d : Byte)
  /-- MBC3_RD_ROM0: read of 0x0000-0x3FFF (R172). -/
  | mbc3RdRom0 (a : Addr)
  /-- MBC3_RD_ROMX: read of 0x4000-0x7FFF (R173). -/
  | mbc3RdRomx (a : Addr)
  /-- MBC3_RD_RAM: read of 0xA000-0xBFFF (R180). -/
  | mbc3RdRam (a : Addr)
  /-- MBC3_WR_RAMG: write of 0x0000-0x1FFF (R174). -/
  | mbc3WrRamg (a : Addr) (d : Byte)
  /-- MBC3_WR_ROMB: write of 0x2000-0x3FFF (R175). -/
  | mbc3WrRomb (a : Addr) (d : Byte)
  /-- MBC3_WR_SEL: write of 0x4000-0x5FFF (R176). -/
  | mbc3WrSel (a : Addr) (d : Byte)
  /-- MBC3_WR_LATCH: write of 0x6000-0x7FFF (R177). -/
  | mbc3WrLatch (a : Addr) (d : Byte)
  /-- MBC3_WR_RAM: write of 0xA000-0xBFFF (R181). -/
  | mbc3WrRam (a : Addr) (d : Byte)
  /-- MBC5_RD_ROM0: read of 0x0000-0x3FFF (R212). -/
  | mbc5RdRom0 (a : Addr)
  /-- MBC5_RD_ROMX: read of 0x4000-0x7FFF (R213). -/
  | mbc5RdRomx (a : Addr)
  /-- MBC5_RD_RAM: read of 0xA000-0xBFFF (R218). -/
  | mbc5RdRam (a : Addr)
  /-- MBC5_WR_RAMG: write of 0x0000-0x1FFF (R214). -/
  | mbc5WrRamg (a : Addr) (d : Byte)
  /-- MBC5_WR_ROMB0: write of 0x2000-0x2FFF (R215). -/
  | mbc5WrRomb0 (a : Addr) (d : Byte)
  /-- MBC5_WR_ROMB1: write of 0x3000-0x3FFF (R216). -/
  | mbc5WrRomb1 (a : Addr) (d : Byte)
  /-- MBC5_WR_RAMB: write of 0x4000-0x5FFF (R217). -/
  | mbc5WrRamb (a : Addr) (d : Byte)
  /-- MBC5_WR_NOP: write of 0x6000-0x7FFF (R220). -/
  | mbc5WrNop (a : Addr) (d : Byte)
  /-- MBC5_WR_RAM: write of 0xA000-0xBFFF (R219). -/
  | mbc5WrRam (a : Addr) (d : Byte)
  /-- MBC6_ANY: read or write of any (R230). -/
  | mbc6Any (w : Bool) (a : Addr) (d : Byte)
  /-- MBC7_ANY: read or write of any (R230). -/
  | mbc7Any (w : Bool) (a : Addr) (d : Byte)
  /-- MMM01_ANY: read or write of any (R230). -/
  | mmm01Any (w : Bool) (a : Addr) (d : Byte)
  deriving DecidableEq, Repr

/-- The bus transaction an instruction is (R70). -/
def Instr.transaction : Instr → Transaction
  | .rdUnmappedLo a => .read a
  | .wrUnmappedLo a d => .write a d
  | .rdUnmappedHi a => .read a
  | .wrUnmappedHi a d => .write a d
  | .roRdRom a => .read a
  | .roWrRom a d => .write a d
  | .roRdRam a => .read a
  | .roWrRam a d => .write a d
  | .mbc1RdRom0 a => .read a
  | .mbc1RdRomx a => .read a
  | .mbc1RdRam a => .read a
  | .mbc1WrRamg a d => .write a d
  | .mbc1WrBank1 a d => .write a d
  | .mbc1WrBank2 a d => .write a d
  | .mbc1WrMode a d => .write a d
  | .mbc1WrRam a d => .write a d
  | .mbc2RdRom0 a => .read a
  | .mbc2RdRomx a => .read a
  | .mbc2RdRam a => .read a
  | .mbc2WrRamg a d => .write a d
  | .mbc2WrRomb a d => .write a d
  | .mbc2WrNop a d => .write a d
  | .mbc2WrRam a d => .write a d
  | .mbc3RdRom0 a => .read a
  | .mbc3RdRomx a => .read a
  | .mbc3RdRam a => .read a
  | .mbc3WrRamg a d => .write a d
  | .mbc3WrRomb a d => .write a d
  | .mbc3WrSel a d => .write a d
  | .mbc3WrLatch a d => .write a d
  | .mbc3WrRam a d => .write a d
  | .mbc5RdRom0 a => .read a
  | .mbc5RdRomx a => .read a
  | .mbc5RdRam a => .read a
  | .mbc5WrRamg a d => .write a d
  | .mbc5WrRomb0 a d => .write a d
  | .mbc5WrRomb1 a d => .write a d
  | .mbc5WrRamb a d => .write a d
  | .mbc5WrNop a d => .write a d
  | .mbc5WrRam a d => .write a d
  | .mbc6Any w a d => if w then .write a d else .read a
  | .mbc7Any w a d => if w then .write a d else .read a
  | .mmm01Any w a d => if w then .write a d else .read a

/-- The mnemonic of an instruction's row, which is also its disassembly (R75, R77). -/
def Instr.mnemonic : Instr → String
  | .rdUnmappedLo _ => "RD_UNMAPPED_LO"
  | .wrUnmappedLo _ _ => "WR_UNMAPPED_LO"
  | .rdUnmappedHi _ => "RD_UNMAPPED_HI"
  | .wrUnmappedHi _ _ => "WR_UNMAPPED_HI"
  | .roRdRom _ => "RO_RD_ROM"
  | .roWrRom _ _ => "RO_WR_ROM"
  | .roRdRam _ => "RO_RD_RAM"
  | .roWrRam _ _ => "RO_WR_RAM"
  | .mbc1RdRom0 _ => "MBC1_RD_ROM0"
  | .mbc1RdRomx _ => "MBC1_RD_ROMX"
  | .mbc1RdRam _ => "MBC1_RD_RAM"
  | .mbc1WrRamg _ _ => "MBC1_WR_RAMG"
  | .mbc1WrBank1 _ _ => "MBC1_WR_BANK1"
  | .mbc1WrBank2 _ _ => "MBC1_WR_BANK2"
  | .mbc1WrMode _ _ => "MBC1_WR_MODE"
  | .mbc1WrRam _ _ => "MBC1_WR_RAM"
  | .mbc2RdRom0 _ => "MBC2_RD_ROM0"
  | .mbc2RdRomx _ => "MBC2_RD_ROMX"
  | .mbc2RdRam _ => "MBC2_RD_RAM"
  | .mbc2WrRamg _ _ => "MBC2_WR_RAMG"
  | .mbc2WrRomb _ _ => "MBC2_WR_ROMB"
  | .mbc2WrNop _ _ => "MBC2_WR_NOP"
  | .mbc2WrRam _ _ => "MBC2_WR_RAM"
  | .mbc3RdRom0 _ => "MBC3_RD_ROM0"
  | .mbc3RdRomx _ => "MBC3_RD_ROMX"
  | .mbc3RdRam _ => "MBC3_RD_RAM"
  | .mbc3WrRamg _ _ => "MBC3_WR_RAMG"
  | .mbc3WrRomb _ _ => "MBC3_WR_ROMB"
  | .mbc3WrSel _ _ => "MBC3_WR_SEL"
  | .mbc3WrLatch _ _ => "MBC3_WR_LATCH"
  | .mbc3WrRam _ _ => "MBC3_WR_RAM"
  | .mbc5RdRom0 _ => "MBC5_RD_ROM0"
  | .mbc5RdRomx _ => "MBC5_RD_ROMX"
  | .mbc5RdRam _ => "MBC5_RD_RAM"
  | .mbc5WrRamg _ _ => "MBC5_WR_RAMG"
  | .mbc5WrRomb0 _ _ => "MBC5_WR_ROMB0"
  | .mbc5WrRomb1 _ _ => "MBC5_WR_ROMB1"
  | .mbc5WrRamb _ _ => "MBC5_WR_RAMB"
  | .mbc5WrNop _ _ => "MBC5_WR_NOP"
  | .mbc5WrRam _ _ => "MBC5_WR_RAM"
  | .mbc6Any _ _ _ => "MBC6_ANY"
  | .mbc7Any _ _ _ => "MBC7_ANY"
  | .mmm01Any _ _ _ => "MMM01_ANY"

/-- The decode modes in which an instruction's row exists (R75, column "modes"). -/
def Instr.modes : Instr → List MapperKind
  | .rdUnmappedLo _ => [.romOnly, .mbc1, .mbc2, .mbc3, .mbc5]
  | .wrUnmappedLo _ _ => [.romOnly, .mbc1, .mbc2, .mbc3, .mbc5]
  | .rdUnmappedHi _ => [.romOnly, .mbc1, .mbc2, .mbc3, .mbc5]
  | .wrUnmappedHi _ _ => [.romOnly, .mbc1, .mbc2, .mbc3, .mbc5]
  | .roRdRom _ => [.romOnly]
  | .roWrRom _ _ => [.romOnly]
  | .roRdRam _ => [.romOnly]
  | .roWrRam _ _ => [.romOnly]
  | .mbc1RdRom0 _ => [.mbc1]
  | .mbc1RdRomx _ => [.mbc1]
  | .mbc1RdRam _ => [.mbc1]
  | .mbc1WrRamg _ _ => [.mbc1]
  | .mbc1WrBank1 _ _ => [.mbc1]
  | .mbc1WrBank2 _ _ => [.mbc1]
  | .mbc1WrMode _ _ => [.mbc1]
  | .mbc1WrRam _ _ => [.mbc1]
  | .mbc2RdRom0 _ => [.mbc2]
  | .mbc2RdRomx _ => [.mbc2]
  | .mbc2RdRam _ => [.mbc2]
  | .mbc2WrRamg _ _ => [.mbc2]
  | .mbc2WrRomb _ _ => [.mbc2]
  | .mbc2WrNop _ _ => [.mbc2]
  | .mbc2WrRam _ _ => [.mbc2]
  | .mbc3RdRom0 _ => [.mbc3]
  | .mbc3RdRomx _ => [.mbc3]
  | .mbc3RdRam _ => [.mbc3]
  | .mbc3WrRamg _ _ => [.mbc3]
  | .mbc3WrRomb _ _ => [.mbc3]
  | .mbc3WrSel _ _ => [.mbc3]
  | .mbc3WrLatch _ _ => [.mbc3]
  | .mbc3WrRam _ _ => [.mbc3]
  | .mbc5RdRom0 _ => [.mbc5]
  | .mbc5RdRomx _ => [.mbc5]
  | .mbc5RdRam _ => [.mbc5]
  | .mbc5WrRamg _ _ => [.mbc5]
  | .mbc5WrRomb0 _ _ => [.mbc5]
  | .mbc5WrRomb1 _ _ => [.mbc5]
  | .mbc5WrRamb _ _ => [.mbc5]
  | .mbc5WrNop _ _ => [.mbc5]
  | .mbc5WrRam _ _ => [.mbc5]
  | .mbc6Any _ _ _ => [.mbc6]
  | .mbc7Any _ _ _ => [.mbc7]
  | .mmm01Any _ _ _ => [.mmm01]

end Sys2Proof
end

