-- ==== Sys2Proof/Config.lean ====
section
/-! DEFINITION. The block's parameters (00_scope.md R8) that no instruction changes, and the one open value
(45_refused_variants.md R231). The cartridge-type table, the RAM-size table and the clock's advance, which R8 also lists, are
definitions of Machine/Construct.lean and Machine/Rtc.lean. -/

namespace Sys2Proof

/-- `ROM_BANK_SIZE`, 16 KiB (R8). -/
def Config.romBankSize : Nat := 0x4000

/-- `RAM_BANK_SIZE`, 8 KiB (R8). -/
def Config.ramBankSize : Nat := 0x2000

/-- `OPEN_BUS`: the byte of a read that reaches nothing (R8). -/
def Config.openBus : Byte := 0xFF

/-- `HEADER_MIN_LEN` (R8). -/
def Config.headerMinLen : Nat := 0x150

/-- `MBC2_RAM`: the number of MBC2's 4-bit cells (R8, R150). -/
def Config.mbc2RamLen : Nat := 512

/-- `SENSOR_NEUTRAL`, OPEN: the pair of signed 16-bit values the MBC7 sensor input shows when no input device is wired up. The
spec gives no number (R231, D25), so it has no body here: nothing proved depends on a value of it. Log entry 9. -/
opaque Config.sensorNeutral : BitVec 16 × BitVec 16

/-- The decode mode in which `decodeTableWord` reads the bits of a table row, which do not name their mode (R73).
DESIGN CHOICE, log entry 3: MBC5, whose rows divide the address space most finely. -/
def Config.tableMode : MapperKind := .mbc5

end Sys2Proof
end

