-- ==== Sys2Proof/WellFormed.lean ====
section
/-! DEFINITION. Which terms of `Instr` are instructions: the address stands in the row's range (30_encoding.md R75, column
"A range"), and a read word carries no data (R70, R71). -/

namespace Sys2Proof

/-- The address `a` stands in the range `lo` to `hi`, both included. -/
def Addr.within (lo hi : Nat) (a : Addr) : Bool := decide (lo ≤ a.toNat) && decide (a.toNat ≤ hi)

/-- A refused row takes any address; only a read word with data is no word of R70. -/
def readCarriesNoData (w : Bool) (d : Byte) : Bool := w || d == 0

/-- The check of each row. -/
def Instr.wf : Instr → Bool
  | .rdUnmappedLo a => Addr.within 0x8000 0x9FFF a
  | .wrUnmappedLo a _ => Addr.within 0x8000 0x9FFF a
  | .rdUnmappedHi a => Addr.within 0xC000 0xFFFF a
  | .wrUnmappedHi a _ => Addr.within 0xC000 0xFFFF a
  | .roRdRom a => Addr.within 0x0000 0x7FFF a
  | .roWrRom a _ => Addr.within 0x0000 0x7FFF a
  | .roRdRam a => Addr.within 0xA000 0xBFFF a
  | .roWrRam a _ => Addr.within 0xA000 0xBFFF a
  | .mbc1RdRom0 a => Addr.within 0x0000 0x3FFF a
  | .mbc1RdRomx a => Addr.within 0x4000 0x7FFF a
  | .mbc1RdRam a => Addr.within 0xA000 0xBFFF a
  | .mbc1WrRamg a _ => Addr.within 0x0000 0x1FFF a
  | .mbc1WrBank1 a _ => Addr.within 0x2000 0x3FFF a
  | .mbc1WrBank2 a _ => Addr.within 0x4000 0x5FFF a
  | .mbc1WrMode a _ => Addr.within 0x6000 0x7FFF a
  | .mbc1WrRam a _ => Addr.within 0xA000 0xBFFF a
  | .mbc2RdRom0 a => Addr.within 0x0000 0x3FFF a
  | .mbc2RdRomx a => Addr.within 0x4000 0x7FFF a
  | .mbc2RdRam a => Addr.within 0xA000 0xBFFF a
  | .mbc2WrRamg a _ => Addr.within 0x0000 0x1FFF a
  | .mbc2WrRomb a _ => Addr.within 0x2000 0x3FFF a
  | .mbc2WrNop a _ => Addr.within 0x4000 0x7FFF a
  | .mbc2WrRam a _ => Addr.within 0xA000 0xBFFF a
  | .mbc3RdRom0 a => Addr.within 0x0000 0x3FFF a
  | .mbc3RdRomx a => Addr.within 0x4000 0x7FFF a
  | .mbc3RdRam a => Addr.within 0xA000 0xBFFF a
  | .mbc3WrRamg a _ => Addr.within 0x0000 0x1FFF a
  | .mbc3WrRomb a _ => Addr.within 0x2000 0x3FFF a
  | .mbc3WrSel a _ => Addr.within 0x4000 0x5FFF a
  | .mbc3WrLatch a _ => Addr.within 0x6000 0x7FFF a
  | .mbc3WrRam a _ => Addr.within 0xA000 0xBFFF a
  | .mbc5RdRom0 a => Addr.within 0x0000 0x3FFF a
  | .mbc5RdRomx a => Addr.within 0x4000 0x7FFF a
  | .mbc5RdRam a => Addr.within 0xA000 0xBFFF a
  | .mbc5WrRamg a _ => Addr.within 0x0000 0x1FFF a
  | .mbc5WrRomb0 a _ => Addr.within 0x2000 0x2FFF a
  | .mbc5WrRomb1 a _ => Addr.within 0x3000 0x3FFF a
  | .mbc5WrRamb a _ => Addr.within 0x4000 0x5FFF a
  | .mbc5WrNop a _ => Addr.within 0x6000 0x7FFF a
  | .mbc5WrRam a _ => Addr.within 0xA000 0xBFFF a
  | .mbc6Any w _ d => readCarriesNoData w d
  | .mbc7Any w _ d => readCarriesNoData w d
  | .mmm01Any w _ d => readCarriesNoData w d

/-- A well-formed instruction. -/
abbrev WellFormed (i : Instr) : Prop := i.wf = true

end Sys2Proof
end

