-- ==== Sys2Proof/Decode.lean ====
section
/-! DEFINITION. The decoder and the encoder of transaction words (30_encoding.md R70 to R76): the decode map of R75 as a list
of rows, the decode procedure of R74 over it, and `enc` of R70. -/

namespace Sys2Proof

/-- Field `W` of a word: `true` for a write (R70). -/
def Word.isWrite (T : Word) : Bool := T.getLsbD 24

/-- Field `A` of a word, `T[23:8]` (R70). -/
def Word.addr (T : Word) : Addr := T.extractLsb' 8 16

/-- Field `D` of a word, `T[7:0]` (R70). -/
def Word.data (T : Word) : Byte := T.extractLsb' 0 8

/-- Why a word decodes to nothing. -/
inductive Reject where
  /-- The mode has no row for the word. It happens in mode `unsupported` only, which no constructed block has (R2, R74). -/
  | noRow (mode : MapperKind)
  deriving DecidableEq, Repr

/-- A row of the decode map (R75): the columns "mnemonic", "modes", "match" and "mask", and the instruction the row makes of the
fields `W`, `A` and `D`. -/
structure Row where
  mnemonic : String
  modes    : List MapperKind
  pattern  : Word
  mask     : Word
  build    : Bool → Addr → Byte → Instr

/-- The rows of the unmapped ranges, in the five specified modes. -/
def commonRows : List Row := [
  ⟨"RD_UNMAPPED_LO", [.romOnly, .mbc1, .mbc2, .mbc3, .mbc5], 0x0800000, 0x1E00000, fun _ a _ => .rdUnmappedLo a⟩,
  ⟨"WR_UNMAPPED_LO", [.romOnly, .mbc1, .mbc2, .mbc3, .mbc5], 0x1800000, 0x1E00000, fun _ a d => .wrUnmappedLo a d⟩,
  ⟨"RD_UNMAPPED_HI", [.romOnly, .mbc1, .mbc2, .mbc3, .mbc5], 0x0C00000, 0x1C00000, fun _ a _ => .rdUnmappedHi a⟩,
  ⟨"WR_UNMAPPED_HI", [.romOnly, .mbc1, .mbc2, .mbc3, .mbc5], 0x1C00000, 0x1C00000, fun _ a d => .wrUnmappedHi a d⟩]

/-- The rows of the RomOnly mode. -/
def romOnlyRows : List Row := [
  ⟨"RO_RD_ROM", [.romOnly], 0x0000000, 0x1800000, fun _ a _ => .roRdRom a⟩,
  ⟨"RO_WR_ROM", [.romOnly], 0x1000000, 0x1800000, fun _ a d => .roWrRom a d⟩,
  ⟨"RO_RD_RAM", [.romOnly], 0x0A00000, 0x1E00000, fun _ a _ => .roRdRam a⟩,
  ⟨"RO_WR_RAM", [.romOnly], 0x1A00000, 0x1E00000, fun _ a d => .roWrRam a d⟩]

/-- The rows of the MBC1 mode. -/
def mbc1Rows : List Row := [
  ⟨"MBC1_RD_ROM0", [.mbc1], 0x0000000, 0x1C00000, fun _ a _ => .mbc1RdRom0 a⟩,
  ⟨"MBC1_RD_ROMX", [.mbc1], 0x0400000, 0x1C00000, fun _ a _ => .mbc1RdRomx a⟩,
  ⟨"MBC1_RD_RAM", [.mbc1], 0x0A00000, 0x1E00000, fun _ a _ => .mbc1RdRam a⟩,
  ⟨"MBC1_WR_RAMG", [.mbc1], 0x1000000, 0x1E00000, fun _ a d => .mbc1WrRamg a d⟩,
  ⟨"MBC1_WR_BANK1", [.mbc1], 0x1200000, 0x1E00000, fun _ a d => .mbc1WrBank1 a d⟩,
  ⟨"MBC1_WR_BANK2", [.mbc1], 0x1400000, 0x1E00000, fun _ a d => .mbc1WrBank2 a d⟩,
  ⟨"MBC1_WR_MODE", [.mbc1], 0x1600000, 0x1E00000, fun _ a d => .mbc1WrMode a d⟩,
  ⟨"MBC1_WR_RAM", [.mbc1], 0x1A00000, 0x1E00000, fun _ a d => .mbc1WrRam a d⟩]

/-- The rows of the MBC2 mode. -/
def mbc2Rows : List Row := [
  ⟨"MBC2_RD_ROM0", [.mbc2], 0x0000000, 0x1C00000, fun _ a _ => .mbc2RdRom0 a⟩,
  ⟨"MBC2_RD_ROMX", [.mbc2], 0x0400000, 0x1C00000, fun _ a _ => .mbc2RdRomx a⟩,
  ⟨"MBC2_RD_RAM", [.mbc2], 0x0A00000, 0x1E00000, fun _ a _ => .mbc2RdRam a⟩,
  ⟨"MBC2_WR_RAMG", [.mbc2], 0x1000000, 0x1E00000, fun _ a d => .mbc2WrRamg a d⟩,
  ⟨"MBC2_WR_ROMB", [.mbc2], 0x1200000, 0x1E00000, fun _ a d => .mbc2WrRomb a d⟩,
  ⟨"MBC2_WR_NOP", [.mbc2], 0x1400000, 0x1C00000, fun _ a d => .mbc2WrNop a d⟩,
  ⟨"MBC2_WR_RAM", [.mbc2], 0x1A00000, 0x1E00000, fun _ a d => .mbc2WrRam a d⟩]

/-- The rows of the MBC3 mode. -/
def mbc3Rows : List Row := [
  ⟨"MBC3_RD_ROM0", [.mbc3], 0x0000000, 0x1C00000, fun _ a _ => .mbc3RdRom0 a⟩,
  ⟨"MBC3_RD_ROMX", [.mbc3], 0x0400000, 0x1C00000, fun _ a _ => .mbc3RdRomx a⟩,
  ⟨"MBC3_RD_RAM", [.mbc3], 0x0A00000, 0x1E00000, fun _ a _ => .mbc3RdRam a⟩,
  ⟨"MBC3_WR_RAMG", [.mbc3], 0x1000000, 0x1E00000, fun _ a d => .mbc3WrRamg a d⟩,
  ⟨"MBC3_WR_ROMB", [.mbc3], 0x1200000, 0x1E00000, fun _ a d => .mbc3WrRomb a d⟩,
  ⟨"MBC3_WR_SEL", [.mbc3], 0x1400000, 0x1E00000, fun _ a d => .mbc3WrSel a d⟩,
  ⟨"MBC3_WR_LATCH", [.mbc3], 0x1600000, 0x1E00000, fun _ a d => .mbc3WrLatch a d⟩,
  ⟨"MBC3_WR_RAM", [.mbc3], 0x1A00000, 0x1E00000, fun _ a d => .mbc3WrRam a d⟩]

/-- The rows of the MBC5 mode. -/
def mbc5Rows : List Row := [
  ⟨"MBC5_RD_ROM0", [.mbc5], 0x0000000, 0x1C00000, fun _ a _ => .mbc5RdRom0 a⟩,
  ⟨"MBC5_RD_ROMX", [.mbc5], 0x0400000, 0x1C00000, fun _ a _ => .mbc5RdRomx a⟩,
  ⟨"MBC5_RD_RAM", [.mbc5], 0x0A00000, 0x1E00000, fun _ a _ => .mbc5RdRam a⟩,
  ⟨"MBC5_WR_RAMG", [.mbc5], 0x1000000, 0x1E00000, fun _ a d => .mbc5WrRamg a d⟩,
  ⟨"MBC5_WR_ROMB0", [.mbc5], 0x1200000, 0x1F00000, fun _ a d => .mbc5WrRomb0 a d⟩,
  ⟨"MBC5_WR_ROMB1", [.mbc5], 0x1300000, 0x1F00000, fun _ a d => .mbc5WrRomb1 a d⟩,
  ⟨"MBC5_WR_RAMB", [.mbc5], 0x1400000, 0x1E00000, fun _ a d => .mbc5WrRamb a d⟩,
  ⟨"MBC5_WR_NOP", [.mbc5], 0x1600000, 0x1E00000, fun _ a d => .mbc5WrNop a d⟩,
  ⟨"MBC5_WR_RAM", [.mbc5], 0x1A00000, 0x1E00000, fun _ a d => .mbc5WrRam a d⟩]

/-- The rows of the modes whose every word is refused (R230). -/
def refusedRows : List Row := [
  ⟨"MBC6_ANY", [.mbc6], 0x0000000, 0x0000000, fun w a d => .mbc6Any w a (if w then d else 0)⟩,
  ⟨"MBC7_ANY", [.mbc7], 0x0000000, 0x0000000, fun w a d => .mbc7Any w a (if w then d else 0)⟩,
  ⟨"MMM01_ANY", [.mmm01], 0x0000000, 0x0000000, fun w a d => .mmm01Any w a (if w then d else 0)⟩]

/-- The complete decode map (R75). -/
def opcodeTable : List Row :=
  commonRows ++ romOnlyRows ++ mbc1Rows ++ mbc2Rows ++ mbc3Rows ++ mbc5Rows ++ refusedRows

/-- The row exists in mode `m` and `(T & mask) == match` (R74). -/
def Row.fits (m : MapperKind) (T : Word) (r : Row) : Bool :=
  decide (m ∈ r.modes) && decide (T &&& r.mask = r.pattern)

/-- The decode procedure (R74). The refused rows drop the data field of a read word, which carries nothing (R71). -/
def decode (m : MapperKind) (T : Word) : Except Reject Instr :=
  match opcodeTable.find? (Row.fits m T) with
  | some r => .ok (r.build (Word.isWrite T) (Word.addr T) (Word.data T))
  | none   => .error (.noRow m)

/-- `enc(read(A)) = A << 8` and `enc(write(A, D)) = (1 << 24) | (A << 8) | D` (R70). -/
def enc : Transaction → Word
  | .read a    => a.setWidth 25 <<< 8
  | .write a d => (1#25 <<< 24) ||| (a.setWidth 25 <<< 8) ||| d.setWidth 25

/-- The word of an instruction (R70). -/
def encode (i : Instr) : Word := enc i.transaction

/-- The bits `w` of a table row as a transaction word, where they are one: bits 31 to 25 do not exist in the format (R70). -/
def tableWord (nbits w : Nat) : Option Word :=
  if w % 2 ^ nbits < 2 ^ 25 then some (BitVec.ofNat 25 (w % 2 ^ nbits)) else none

/-- The instruction the decoder reads from a row's bits. The mode that selects the rows is not in the word (R73), so ONE mode is
chosen here: `Config.tableMode`. DESIGN CHOICE, log entry 3. -/
def decodeTableWord (nbits w : Nat) : Option Instr :=
  match tableWord nbits w with
  | none   => none
  | some T => (decode Config.tableMode T).toOption

end Sys2Proof
end

