-- ==== Sys2Proof/Machine/State.lean ====
section
/-! DEFINITION. The state of the block (10_state.md), as plain data, with what the two agents have still to do to it and what the
last step gave back, and the ways a step can stop. -/

namespace Sys2Proof.Machine

/-- A storage array, as its cells that do not hold `0`, in rising order of index. An unlisted cell reads as `0`: for the RAM
buffer that is its reset content (R28, R36, D9), for the ROM image it is a way of writing the image down. -/
abbrev Memory := List Host.Cell

/-- `banking_mode`, MBC1 only (R27). -/
inductive BankingMode where
  | simple
  | advanced
  deriving DecidableEq, Repr

/-- Five 8-bit clock registers, index 0 to 4 in this order (R29, R185): seconds, minutes, hours, day counter bits 7:0, and the
register that holds day counter bit 8, the halt bit and the carry bit. -/
structure RtcRegs where
  s  : Byte
  m  : Byte
  h  : Byte
  dl : Byte
  dh : Byte
  deriving DecidableEq, Repr

/-- The real-time clock: the live and the latched register sets and the latch-armed flag (R29). -/
structure Rtc where
  live       : RtcRegs
  latched    : RtcRegs
  latchArmed : Bool
  deriving DecidableEq, Repr

/-- What an agent does to the block next (R6). `bus` is a transaction of the bus master, as its word; the rest is the host's
(46_host_interface.md R247). -/
inductive Input where
  /-- A bus transaction, as its transaction word (R70). -/
  | bus (T : Word)
  /-- The host constructs the block from the image it has read (R280). -/
  | construct (img : List Byte)
  /-- The host could not open the image's file (R261, error 1). -/
  | openFailed
  /-- `restore(buf, now)` (R242). -/
  | restore (buf : List Byte) (now : BitVec 64)
  /-- `persist(now)` (R241). -/
  | persist (now : BitVec 64)
  /-- `rtc_tick(n)`: `n` whole seconds have passed (R244). -/
  | rtcTick (n : Nat)
  /-- The host samples the output signals (R246). -/
  | sampleOutputs
  /-- The host drives the MBC7 sensor input, two signed 16-bit values (R231). -/
  | sensor (sx sy : BitVec 16)
  deriving DecidableEq, Repr

/-- The signals the host can see besides read data (R246): `rumble_out`, `checksum_ok`, and the header fields other components
query, which are ROM bytes at fixed offsets (R281). -/
structure HostSignals where
  rumbleOut       : Bool
  checksumOk      : Bool
  title           : List Byte
  newLicensee     : List Byte
  oldLicensee     : Byte
  romSizeCode     : Byte
  ramSizeCode     : Byte
  deriving DecidableEq, Repr

/-- What the last step gave back to the agent that asked (R7, R71, R247). -/
inductive Output where
  | nothing
  /-- The byte a read transaction returned. -/
  | byte (b : Byte)
  /-- The save artifact of `persist`. -/
  | artifact (bytes : List Byte)
  | signals (h : HostSignals)
  deriving DecidableEq, Repr

/-- The state of the block. -/
structure State where
  /-- `rom`: the ROM image, immutable after construction (R23). -/
  rom           : Memory
  /-- `rom_len`, in bytes (R23). -/
  romLen        : Nat
  /-- `cartridge_type`, header byte `0x147` (R23). -/
  cartridgeType : Byte
  /-- `rom_size_code`, header byte `0x148` (R23). -/
  romSizeCode   : Byte
  /-- `ram_size_code`, header byte `0x149` (R23). -/
  ramSizeCode   : Byte
  /-- `kind`, the mapper variant and decode mode (R23, R73). -/
  kind          : MapperKind
  /-- `has_rumble` (R23). -/
  hasRumble     : Bool
  /-- `ram_len`, the number of cells of the RAM buffer (R23, R28). -/
  ramLen        : Nat
  /-- `checksum_ok`, read by no bus rule (R23, R283). -/
  checksumOk    : Bool
  /-- `rom_bank_number`: 5, 4, 7 or 9 bits are in use, by kind (R24). -/
  romBankNumber : BitVec 9
  /-- `ram_bank_number`: 2, 8, 4 or 3 bits are in use, by kind (R25). -/
  ramBankNumber : BitVec 8
  /-- `ram_enabled` (R26). -/
  ramEnabled    : Bool
  /-- `banking_mode` (R27). -/
  bankingMode   : BankingMode
  /-- `Ram`: the RAM buffer. A cell of MBC2 holds 4 bits (R28). -/
  ram           : Memory
  /-- `rtc`, present exactly when the block has a clock: `has_rtc` is its presence (R23, R29). -/
  rtc           : Option Rtc
  /-- `rumble_out` (R30). -/
  rumbleOut     : Bool
  /-- The MBC7 sensor input port; none when no input device is wired up (R231). -/
  sensor        : Option (BitVec 16 × BitVec 16)
  /-- `refused`, the model-only mark of a refused transaction (R31). -/
  refused       : Bool
  /-- No bus transaction, tick or `restore` has happened since construction: the precondition of `restore` (R242). -/
  fresh         : Bool
  /-- The session has begun: the host has constructed the block, or an input of either agent has been taken. From then on no input
  constructs (R285). Log entry 5. -/
  begun         : Bool
  /-- What the agents do next, in the one total order of R58 and R59. The program of the block is this sequence (R21). -/
  pending       : List Input
  /-- What the last step gave back. -/
  output        : Output
  deriving DecidableEq, Repr

/-- Construction errors (60_exceptions.md R261): a construction ends with one of them and no block is built. They are the spec's
own errors, so stopping there is safe. No bus transaction raises one (R260). -/
inductive Fault where
  /-- Raised by the host's `openFailed`: the file cannot be opened. Safe. -/
  | notFound
  /-- Raised by construction: the image is shorter than `0x150` bytes. Records the length. Safe. -/
  | tooShort (len : Nat)
  /-- Raised by construction: the cartridge type is not in the table. Records the type byte. Safe. -/
  | unsupportedCartridgeType (t : Byte)
  /-- Raised by construction: a size code is out of range. Records both codes. Safe. -/
  | invalidSizeCode (rom ram : Byte)
  /-- Raised by construction: the length is not the declared one. Records both. Safe. -/
  | sizeMismatch (len declared : Nat)
  deriving DecidableEq, Repr

/-- Refusals: the model has no meaning for what was asked (R7). -/
inductive Refusal where
  /-- Raised by `exec` for an instruction that has no meaning in the model yet. Safe. -/
  | notModelled (mnemonic : String)
  /-- `refuse(UnmodelledVariant(st.kind))` (R230): raised by every bus transaction of MBC6, MBC7 and MMM01 and by their
  `persist` (R241). It carries the state with the mark `refused` set, as R230 writes it. Safe: the chip answers, the model does
  not. -/
  | unmodelledVariant (kind : MapperKind) (marked : State)
  /-- Raised by a bus transaction in a mode without rows, that is on a block of kind `unsupported`, which construction never
  builds (R2, R262). Safe. -/
  | noRow (mode : MapperKind)
  /-- Raised by `restore` on a block that is not freshly constructed (R242). Safe. -/
  | restoreNotFresh
  /-- Raised by construction, and by a failed open, once the session has begun: a constructed block is never reset again (R285).
  Safe. -/
  | alreadyConstructed
  deriving DecidableEq, Repr

/-- The outcome of a step or of a meaning (R7). -/
abbrev Result := Host.Outcome State Fault Refusal

/-- `has_rtc` (R23): the clock is present. -/
def State.hasRtc (s : State) : Bool := s.rtc.isSome

/-- `rom_bank_count = rom_len / 0x4000` (R9, R23). -/
def State.romBankCount (s : State) : Nat := s.romLen / Config.romBankSize

/-- All five registers `0` (R36). -/
def RtcRegs.zero : RtcRegs := ⟨0, 0, 0, 0, 0⟩

/-- The reset value of the clock (R29, R36). -/
def Rtc.reset : Rtc := ⟨RtcRegs.zero, RtcRegs.zero, false⟩

/-- The state right after construction (R36, R285) of a block whose image lists nothing: the blank image, 32 KiB of `0`. Every
register has the value of R36; the configuration is what construction (R280) computes from that image (type byte `0x00`, so
RomOnly; size codes `0x00`, so no RAM; a checksum that does not match). The image is a DESIGN CHOICE, log entry 1. -/
def State.reset : State where
  rom           := []
  romLen        := 0x8000
  cartridgeType := 0
  romSizeCode   := 0
  ramSizeCode   := 0
  kind          := .romOnly
  hasRumble     := false
  ramLen        := 0
  checksumOk    := false
  romBankNumber := 1
  ramBankNumber := 0
  ramEnabled    := false
  bankingMode   := .simple
  ram           := []
  rtc           := none
  rumbleOut     := false
  sensor        := none
  refused       := false
  fresh         := true
  begun         := false
  pending       := []
  output        := .nothing

end Sys2Proof.Machine
end

