-- ==== Sys2Proof/Machine/Flags.lean ====
section
/-! DEFINITION. The block has no status flags (10_state.md R22). What it has in their place is control state: the RAM gate
(40_decoder_common.md R103) and the values a control write gives to `ram_enabled`, `banking_mode` and `rumble_out`. -/

namespace Sys2Proof.Machine

/-- The RAM-enable rule: the low nibble of the data is `0x0A` (R135, R155, R174, R214). -/
def enablesRam (d : Byte) : Bool := decide (d &&& 0x0F = 0x0A)

/-- The MODE encoding: bit 0 selects Advanced (R138). -/
def modeOfData (d : Byte) : BankingMode := if d.getLsbD 0 then .advanced else .simple

/-- The motor signal of a RAMB write on a rumble cartridge: bit 3 (R217). -/
def rumbleOfData (d : Byte) : Bool := d.getLsbD 3

/-- `ram_gate_open` (R103). -/
def ramGateOpen (s : State) : Bool := decide (s.kind = .romOnly) || s.ramEnabled

/-- `ram_access_ok` (R103). -/
def ramAccessOk (s : State) : Bool := ramGateOpen s && decide (0 < s.ramLen)

end Sys2Proof.Machine
end

