-- ==== Sys2Proof/Machine/Operands.lean ====
section
/-! DEFINITION. The operand forms: offsets of an address in its window (30_encoding.md R72), the two translation primitives
(20_memory.md R54, R55), the effective banks (R56), the masks of the control writes (10_state.md R32), and MBC3's select decode
(43_mbc3.md R178). -/

namespace Sys2Proof.Machine

/-- `A[13:0]`, the offset in a ROM window (R72). -/
def romOffset (a : Addr) : Nat := (a.extractLsb' 0 14).toNat

/-- `A[12:0]`, the offset in the RAM region (R72). -/
def ramOffset (a : Addr) : Nat := (a.extractLsb' 0 13).toNat

/-- `A[8:0]`, the cell of MBC2's RAM (R72, R154). -/
def mbc2Cell (a : Addr) : Nat := (a.extractLsb' 0 9).toNat

/-- `rom_phys(b, A)` (R54). -/
def romPhys (bankCount b : Nat) (a : Addr) : Nat := (b % bankCount) * Config.romBankSize + romOffset a

/-- `ram_off(b, A)`, for a RAM that exists (R55). -/
def ramOff (ramLen b : Nat) (a : Addr) : Nat := (b * Config.ramBankSize + ramOffset a) % ramLen

/-- Zero-bank aliasing: a stored `0` is read as `1` (R131, R151, R171). -/
def aliasZeroBank (b : BitVec 9) : Nat := if b = 0 then 1 else b.toNat

/-- MBC1's ROM0 bank: `0` in Simple mode, the secondary register shifted left by 5 in Advanced mode (R132). -/
def mbc1Rom0Bank (s : State) : Nat :=
  match s.bankingMode with
  | .simple   => 0
  | .advanced => s.ramBankNumber.toNat <<< 5

/-- MBC1's ROMX bank (R131). -/
def mbc1RomxBank (s : State) : Nat := aliasZeroBank s.romBankNumber

/-- MBC1's RAM bank: `0` in Simple mode, the secondary register in Advanced mode (R134, R139). -/
def mbc1RamBank (s : State) : Nat :=
  match s.bankingMode with
  | .simple   => 0
  | .advanced => s.ramBankNumber.toNat

/-- MBC2's ROMX bank (R151). -/
def mbc2RomxBank (s : State) : Nat := aliasZeroBank s.romBankNumber

/-- MBC3's ROMX bank (R171). -/
def mbc3RomxBank (s : State) : Nat := aliasZeroBank s.romBankNumber

/-- MBC5's ROMX bank: as stored, `0` included (R211). -/
def mbc5RomxBank (s : State) : Nat := s.romBankNumber.toNat

/-- What MBC1's BANK1 stores: `D & 0x1F` (R136). -/
def mbc1Bank1Value (d : Byte) : BitVec 9 := (d &&& 0x1F).setWidth 9

/-- What MBC1's BANK2 stores: `D & 0x03` (R137). -/
def mbc1Bank2Value (d : Byte) : BitVec 8 := d &&& 0x03

/-- What MBC2's ROMB stores: `D & 0x0F` (R156). -/
def mbc2RombValue (d : Byte) : BitVec 9 := (d &&& 0x0F).setWidth 9

/-- What MBC3's ROMB stores: `D & 0x7F` (R175). -/
def mbc3RombValue (d : Byte) : BitVec 9 := (d &&& 0x7F).setWidth 9

/-- MBC5's ROMB0 write: `(rom_bank_number & 0x100) | D` (R215). -/
def mbc5Romb0Value (old : BitVec 9) (d : Byte) : BitVec 9 := (old &&& 0x100) ||| d.setWidth 9

/-- MBC5's ROMB1 write: `(rom_bank_number & 0xFF) | (D[0] << 8)` (R216). -/
def mbc5Romb1Value (old : BitVec 9) (d : Byte) : BitVec 9 :=
  (old &&& 0xFF) ||| ((d.extractLsb' 0 1).setWidth 9 <<< 8)

/-- MBC5's RAMB write: `D & 0x07` on a rumble cartridge, else `D & 0x0F` (R217). -/
def mbc5RambValue (hasRumble : Bool) (d : Byte) : BitVec 8 := if hasRumble then d &&& 0x07 else d &&& 0x0F

/-- What MBC3's select register makes the RAM region reach (R178). -/
inductive SelTarget where
  | ramBank (b : Nat)
  | rtc (i : Fin 5)
  | none
  deriving DecidableEq, Repr

/-- `sel_target(s)` (R178). -/
def selTarget (sel : BitVec 8) (hasRtc : Bool) : SelTarget :=
  if sel.toNat ≤ 0x03 then .ramBank sel.toNat
  else if hasRtc then
    match sel.toNat with
    | 0x08 => .rtc 0
    | 0x09 => .rtc 1
    | 0x0A => .rtc 2
    | 0x0B => .rtc 3
    | 0x0C => .rtc 4
    | _    => .none
  else .none

/-- Clock register `i` of a set (R29). -/
def RtcRegs.get (r : RtcRegs) : Fin 5 → Byte
  | 0 => r.s
  | 1 => r.m
  | 2 => r.h
  | 3 => r.dl
  | 4 => r.dh

/-- The set with clock register `i` replaced (R181). -/
def RtcRegs.set (r : RtcRegs) (i : Fin 5) (d : Byte) : RtcRegs :=
  match i with
  | 0 => { r with s := d }
  | 1 => { r with m := d }
  | 2 => { r with h := d }
  | 3 => { r with dl := d }
  | 4 => { r with dh := d }

end Sys2Proof.Machine
end

