-- ==== Sys2Proof/Machine/Ops.lean ====
section
/-! DEFINITION. The operations the meanings share: the storage arrays, the three ways a transaction ends, and the ROM, RAM and
gate accesses of 20_memory.md and 40_decoder_common.md. There is no trap to take or to return from (60_exceptions.md R268): the
only errors are construction's, in Machine/Construct.lean. -/

namespace Sys2Proof.Machine

/-! ### Storage arrays (R11, R28) -/

/-- What a cell that is not listed reads as (R36, D9). -/
def Memory.unlisted : Byte := 0

/-- Reads cell `i`. -/
def Memory.read : Memory → Nat → Byte
  | [], _ => Memory.unlisted
  | (k, v) :: m, i => if k = i then v else Memory.read m i

/-- A cell at the front of a memory, unless it holds what an unlisted cell reads as. -/
def Memory.cons (k : Nat) (v : Byte) (m : Memory) : Memory :=
  if v = Memory.unlisted then m else (k, v) :: m

/-- Writes cell `i`, keeping the canonical form. -/
def Memory.write : Memory → Nat → Byte → Memory
  | [], i, b => Memory.cons i b []
  | (k, v) :: m, i, b =>
    if i < k then Memory.cons i b ((k, v) :: m)
    else if i = k then Memory.cons i b m
    else (k, v) :: Memory.write m i b

/-- Every index of the memory is at least `lo`, they rise strictly, and no listed cell holds what an unlisted cell reads as. -/
def Memory.wfFrom : Nat → Memory → Bool
  | _, [] => true
  | lo, (k, v) :: m => decide (lo ≤ k) && decide (v ≠ Memory.unlisted) && Memory.wfFrom (k + 1) m

/-- The canonical form. -/
def Memory.wf (m : Memory) : Bool := Memory.wfFrom 0 m

/-- Every listed index is below `n`. -/
def Memory.below (n : Nat) (m : Memory) : Bool := m.all fun c => decide (c.1 < n)

/-- A byte sequence as cells `i`, `i + 1`, and so on. -/
def Memory.ofBytesFrom : Nat → List Byte → Memory
  | _, [] => []
  | i, b :: bs => Memory.cons i b (Memory.ofBytesFrom (i + 1) bs)

/-- A byte sequence as a storage array. -/
def Memory.ofBytes (bs : List Byte) : Memory := Memory.ofBytesFrom 0 bs

/-- Cells `i` to `i + n - 1` as a byte sequence. -/
def Memory.slice (m : Memory) : Nat → Nat → List Byte
  | _, 0 => []
  | i, n + 1 => Memory.read m i :: Memory.slice m (i + 1) n

/-! ### The ways a transaction ends (R7) -/

/-- A read returns `b` and changes nothing else (R52). -/
def answer (b : Byte) (s : State) : Result := .next { s with output := .byte b }

/-- A transaction without a result ends in `s`. -/
def done (s : State) : Result := .next { s with output := .nothing }

/-- `st.refused <- true; refuse(UnmodelledVariant(st.kind))` (R230). -/
def refuseVariant (s : State) : Result := .refused (.unmodelledVariant s.kind { s with refused := true })

/-! ### The accesses the variants share -/

/-- A ROM window shows bank `b`: `return Rom[rom_phys(b, A)]` (R54, R101). -/
def readRomBank (b : Nat) (a : Addr) (s : State) : Result :=
  answer (Memory.read s.rom (romPhys s.romBankCount b a)) s

/-- A read of RAM bank `b` behind the gate (R55, R103). -/
def readRamBank (b : Nat) (a : Addr) (s : State) : Result :=
  if ramAccessOk s then answer (Memory.read s.ram (ramOff s.ramLen b a)) s else answer Config.openBus s

/-- A write of RAM bank `b` behind the gate (R55, R103). -/
def writeRamBank (b : Nat) (a : Addr) (d : Byte) (s : State) : Result :=
  if ramAccessOk s then done { s with ram := Memory.write s.ram (ramOff s.ramLen b a) d } else done s

/-- The RAM-enable control write (R135, R155, R174, R214). -/
def writeRamGate (d : Byte) (s : State) : Result := done { s with ramEnabled := enablesRam d }

end Sys2Proof.Machine
end

