-- ==== Sys2Proof/Machine/Construct.lean ====
section
/-! DEFINITION. Construction, which is the block's reset (70_reset_and_hazards.md R280 to R285), and its errors
(60_exceptions.md R261 to R267). -/

namespace Sys2Proof.Machine

/-- What the cartridge-type table says of a type byte (R8, R282). -/
structure CartType where
  kind      : MapperKind
  hasRtc    : Bool
  hasRumble : Bool
  deriving DecidableEq, Repr

/-- `CART_TYPE_TABLE`, the spec's default of the parameter (R282). -/
def cartTypeTable (t : Byte) : CartType :=
  match t.toNat with
  | 0x00 => ⟨.romOnly, false, false⟩
  | 0x01 => ⟨.mbc1, false, false⟩
  | 0x02 => ⟨.mbc1, false, false⟩
  | 0x03 => ⟨.mbc1, false, false⟩
  | 0x05 => ⟨.mbc2, false, false⟩
  | 0x06 => ⟨.mbc2, false, false⟩
  | 0x08 => ⟨.romOnly, false, false⟩
  | 0x09 => ⟨.romOnly, false, false⟩
  | 0x0B => ⟨.mmm01, false, false⟩
  | 0x0C => ⟨.mmm01, false, false⟩
  | 0x0D => ⟨.mmm01, false, false⟩
  | 0x0F => ⟨.mbc3, true, false⟩
  | 0x10 => ⟨.mbc3, true, false⟩
  | 0x11 => ⟨.mbc3, false, false⟩
  | 0x12 => ⟨.mbc3, false, false⟩
  | 0x13 => ⟨.mbc3, false, false⟩
  | 0x19 => ⟨.mbc5, false, false⟩
  | 0x1A => ⟨.mbc5, false, false⟩
  | 0x1B => ⟨.mbc5, false, false⟩
  | 0x1C => ⟨.mbc5, false, true⟩
  | 0x1D => ⟨.mbc5, false, true⟩
  | 0x1E => ⟨.mbc5, false, true⟩
  | 0x20 => ⟨.mbc6, false, false⟩
  | 0x22 => ⟨.mbc7, false, false⟩
  | _    => ⟨.unsupported, false, false⟩

/-- `ROM_SIZE(c)`, the declared length of the image (R8, R284). -/
def romSize (c : Byte) : Nat := 0x8000 <<< c.toNat

/-- `RAM_SIZE(c)` (R8, R284). -/
def ramSize (c : Byte) : Nat :=
  match c.toNat with
  | 1 => 0x800
  | 2 => 0x2000
  | 3 => 0x8000
  | 4 => 0x20000
  | 5 => 0x10000
  | _ => 0

/-- `ram_len`: MBC2 has its 512 cells whatever the code says (R284, C4). -/
def ramLenOf (kind : MapperKind) (code : Byte) : Nat := if kind = .mbc2 then Config.mbc2RamLen else ramSize code

/-- The 8-bit accumulator of the header checksum over `0x134` to `0x14C` (R283). -/
def headerChecksum (rom : Memory) : Byte := (Memory.slice rom 0x134 25).foldl (fun x b => x - b - 1) 0

/-- `header_checksum_ok(img)` (R283). -/
def headerChecksumOk (rom : Memory) : Bool := decide (headerChecksum rom = Memory.read rom 0x14D)

/-- The state construction leaves (R280, R285): the configuration it computes, and every mutable field at its reset value
(R36). The agents' inputs still to come stay. -/
def builtState (ct : CartType) (len : Nat) (rom : Memory) (pending : List Input) : State where
  rom           := rom
  romLen        := len
  cartridgeType := Memory.read rom 0x147
  romSizeCode   := Memory.read rom 0x148
  ramSizeCode   := Memory.read rom 0x149
  kind          := ct.kind
  hasRumble     := ct.hasRumble
  ramLen        := ramLenOf ct.kind (Memory.read rom 0x149)
  checksumOk    := headerChecksumOk rom
  romBankNumber := 1
  ramBankNumber := 0
  ramEnabled    := false
  bankingMode   := .simple
  ram           := []
  rtc           := if ct.kind = .mbc3 ∧ ct.hasRtc = true then some Rtc.reset else none
  rumbleOut     := false
  sensor        := none
  refused       := false
  fresh         := true
  begun         := true
  pending       := pending
  output        := .nothing

/-- `construct(img)` for an image of `len` bytes laid out in `rom`, under a cartridge-type table (R280). The order of the checks is
R267's. -/
def constructFrom (table : Byte → CartType) (len : Nat) (rom : Memory) (pending : List Input) : Result :=
  if len < Config.headerMinLen then .fault (.tooShort len)
  else if (table (Memory.read rom 0x147)).kind = .unsupported then
    .fault (.unsupportedCartridgeType (Memory.read rom 0x147))
  else if 0x08 < (Memory.read rom 0x148).toNat ∨ 0x05 < (Memory.read rom 0x149).toNat then
    .fault (.invalidSizeCode (Memory.read rom 0x148) (Memory.read rom 0x149))
  else if len ≠ romSize (Memory.read rom 0x148) then
    .fault (.sizeMismatch len (romSize (Memory.read rom 0x148)))
  else .next (builtState (table (Memory.read rom 0x147)) len rom pending)

/-- `construct(img)` with the table as a parameter. It is answered before the session has begun only: a constructed block is never
reset again (R285). Log entry 5. -/
def constructWith (table : Byte → CartType) (img : List Byte) (s : State) : Result :=
  if s.begun then .refused .alreadyConstructed else constructFrom table img.length (Memory.ofBytes img) s.pending

/-- `construct(img)` with the default table (R280, R282). -/
def hostConstruct (img : List Byte) (s : State) : Result := constructWith cartTypeTable img s

/-- The file cannot be opened: construction's error `NotFound`, on the host's side (R261). -/
def hostOpenFailed (s : State) : Result := if s.begun then .refused .alreadyConstructed else .fault .notFound

/-- The numeric code of an error (R261). -/
def Fault.code : Fault → Nat
  | .notFound                   => 1
  | .tooShort _                 => 2
  | .unsupportedCartridgeType _ => 3
  | .invalidSizeCode _ _        => 4
  | .sizeMismatch _ _           => 5

end Sys2Proof.Machine
end

