-- ==== Sys2Proof/Machine/Common.lean ====
section
/-! DEFINITION. The unmapped ranges of the five specified variants (40_decoder_common.md, section 2). -/

namespace Sys2Proof.Machine

/-- RD_UNMAPPED_LO: `return 0xFF` (R104). -/
def execRdUnmappedLo (_a : Addr) (s : State) : Result := answer Config.openBus s

/-- WR_UNMAPPED_LO: no effect (R105). -/
def execWrUnmappedLo (_a : Addr) (_d : Byte) (s : State) : Result := done s

/-- RD_UNMAPPED_HI: `return 0xFF` (R106). -/
def execRdUnmappedHi (_a : Addr) (s : State) : Result := answer Config.openBus s

/-- WR_UNMAPPED_HI: no effect (R107). -/
def execWrUnmappedHi (_a : Addr) (_d : Byte) (s : State) : Result := done s

end Sys2Proof.Machine
end

