-- ==== Sys2Proof/Machine/Mbc1.lean ====
section
/-! DEFINITION. The MBC1 variant (41_mbc1.md). -/

namespace Sys2Proof.Machine

/-- MBC1_RD_ROM0 (R132). -/
def execMbc1RdRom0 (a : Addr) (s : State) : Result := readRomBank (mbc1Rom0Bank s) a s

/-- MBC1_RD_ROMX (R133). -/
def execMbc1RdRomx (a : Addr) (s : State) : Result := readRomBank (mbc1RomxBank s) a s

/-- MBC1_RD_RAM (R134). -/
def execMbc1RdRam (a : Addr) (s : State) : Result := readRamBank (mbc1RamBank s) a s

/-- MBC1_WR_RAMG (R135). -/
def execMbc1WrRamg (_a : Addr) (d : Byte) (s : State) : Result := writeRamGate d s

/-- MBC1_WR_BANK1 (R136). -/
def execMbc1WrBank1 (_a : Addr) (d : Byte) (s : State) : Result := done { s with romBankNumber := mbc1Bank1Value d }

/-- MBC1_WR_BANK2, the secondary register (R137). -/
def execMbc1WrBank2 (_a : Addr) (d : Byte) (s : State) : Result := done { s with ramBankNumber := mbc1Bank2Value d }

/-- MBC1_WR_MODE (R138). -/
def execMbc1WrMode (_a : Addr) (d : Byte) (s : State) : Result := done { s with bankingMode := modeOfData d }

/-- MBC1_WR_RAM (R139). -/
def execMbc1WrRam (a : Addr) (d : Byte) (s : State) : Result := writeRamBank (mbc1RamBank s) a d s

end Sys2Proof.Machine
end

