-- ==== Sys2Proof/Machine/Mbc2.lean ====
section
/-! DEFINITION. The MBC2 variant (42_mbc2.md). -/

namespace Sys2Proof.Machine

/-- MBC2_RD_ROM0: bank 0 (R152). -/
def execMbc2RdRom0 (a : Addr) (s : State) : Result := readRomBank 0 a s

/-- MBC2_RD_ROMX (R153). -/
def execMbc2RdRomx (a : Addr) (s : State) : Result := readRomBank (mbc2RomxBank s) a s

/-- MBC2_RD_RAM: the high nibble reads as all-ones (R154). -/
def execMbc2RdRam (a : Addr) (s : State) : Result :=
  if s.ramEnabled then answer (0xF0 ||| Memory.read s.ram (mbc2Cell a)) s else answer Config.openBus s

/-- MBC2_WR_RAMG (R155). -/
def execMbc2WrRamg (_a : Addr) (d : Byte) (s : State) : Result := writeRamGate d s

/-- MBC2_WR_ROMB (R156). -/
def execMbc2WrRomb (_a : Addr) (d : Byte) (s : State) : Result := done { s with romBankNumber := mbc2RombValue d }

/-- MBC2_WR_NOP: no register here (R157). -/
def execMbc2WrNop (_a : Addr) (_d : Byte) (s : State) : Result := done s

/-- MBC2_WR_RAM: a cell keeps the low nibble (R158). -/
def execMbc2WrRam (a : Addr) (d : Byte) (s : State) : Result :=
  if s.ramEnabled then done { s with ram := Memory.write s.ram (mbc2Cell a) (d &&& 0x0F) } else done s

end Sys2Proof.Machine
end

