-- ==== Sys2Proof/Machine/Mbc3.lean ====
section
/-! DEFINITION. The MBC3 variant (43_mbc3.md): its instructions, the real-time clock's latch protocol among them. -/

namespace Sys2Proof.Machine

/-- MBC3_RD_ROM0: bank 0 (R172). -/
def execMbc3RdRom0 (a : Addr) (s : State) : Result := readRomBank 0 a s

/-- MBC3_RD_ROMX (R173). -/
def execMbc3RdRomx (a : Addr) (s : State) : Result := readRomBank (mbc3RomxBank s) a s

/-- The clock register a read of the RAM region returns: the latched copy, never the live one (R180). -/
def readRtc (i : Fin 5) (s : State) : Result :=
  match s.rtc with
  | some r => answer (r.latched.get i) s
  | none   => answer Config.openBus s

/-- A write of a clock register sets the live register, all 8 bits, and leaves the latched copy (R181). -/
def writeRtc (i : Fin 5) (d : Byte) (s : State) : Result :=
  match s.rtc with
  | some r => done { s with rtc := some { r with live := r.live.set i d } }
  | none   => done s

/-- MBC3_RD_RAM: behind the gate, what the select register selects (R178, R179, R180). -/
def execMbc3RdRam (a : Addr) (s : State) : Result :=
  if s.ramEnabled then
    match selTarget s.ramBankNumber s.hasRtc with
    | .ramBank b => if s.ramLen = 0 then answer Config.openBus s else answer (Memory.read s.ram (ramOff s.ramLen b a)) s
    | .rtc i     => readRtc i s
    | .none      => answer Config.openBus s
  else answer Config.openBus s

/-- MBC3_WR_RAMG (R174). -/
def execMbc3WrRamg (_a : Addr) (d : Byte) (s : State) : Result := writeRamGate d s

/-- MBC3_WR_ROMB (R175). -/
def execMbc3WrRomb (_a : Addr) (d : Byte) (s : State) : Result := done { s with romBankNumber := mbc3RombValue d }

/-- MBC3_WR_SEL: every value is stored (R176). -/
def execMbc3WrSel (_a : Addr) (d : Byte) (s : State) : Result := done { s with ramBankNumber := d }

/-- What a write to the LATCH range makes of the clock (R177). -/
def latchWrite (d : Byte) (r : Rtc) : Rtc :=
  if d = 0x00 then { r with latchArmed := true }
  else if d = 0x01 ∧ r.latchArmed = true then { r with latched := r.live, latchArmed := false }
  else { r with latchArmed := false }

/-- MBC3_WR_LATCH: a cartridge without a clock ignores it (R177). -/
def execMbc3WrLatch (_a : Addr) (d : Byte) (s : State) : Result := done { s with rtc := s.rtc.map (latchWrite d) }

/-- MBC3_WR_RAM: behind the gate, what the select register selects (R178, R179, R181). -/
def execMbc3WrRam (a : Addr) (d : Byte) (s : State) : Result :=
  if s.ramEnabled then
    match selTarget s.ramBankNumber s.hasRtc with
    | .ramBank b =>
      if 0 < s.ramLen then done { s with ram := Memory.write s.ram (ramOff s.ramLen b a) d } else done s
    | .rtc i     => writeRtc i d s
    | .none      => done s
  else done s

end Sys2Proof.Machine
end

