-- ==== Sys2Proof/Machine/Mbc5.lean ====
section
/-! DEFINITION. The MBC5 variant and its rumble output (44_mbc5.md). -/

namespace Sys2Proof.Machine

/-- MBC5_RD_ROM0: bank 0 (R212). -/
def execMbc5RdRom0 (a : Addr) (s : State) : Result := readRomBank 0 a s

/-- MBC5_RD_ROMX: no zero-bank aliasing (R211, R213). -/
def execMbc5RdRomx (a : Addr) (s : State) : Result := readRomBank (mbc5RomxBank s) a s

/-- MBC5_RD_RAM (R218). -/
def execMbc5RdRam (a : Addr) (s : State) : Result := readRamBank s.ramBankNumber.toNat a s

/-- MBC5_WR_RAMG (R214). -/
def execMbc5WrRamg (_a : Addr) (d : Byte) (s : State) : Result := writeRamGate d s

/-- MBC5_WR_ROMB0: bits 7:0 of the ROM bank (R215). -/
def execMbc5WrRomb0 (_a : Addr) (d : Byte) (s : State) : Result :=
  done { s with romBankNumber := mbc5Romb0Value s.romBankNumber d }

/-- MBC5_WR_ROMB1: bit 8 of the ROM bank (R216). -/
def execMbc5WrRomb1 (_a : Addr) (d : Byte) (s : State) : Result :=
  done { s with romBankNumber := mbc5Romb1Value s.romBankNumber d }

/-- MBC5_WR_RAMB: the RAM bank, and the motor on a rumble cartridge (R217, R221). -/
def execMbc5WrRamb (_a : Addr) (d : Byte) (s : State) : Result :=
  done { s with
    ramBankNumber := mbc5RambValue s.hasRumble d
    rumbleOut     := if s.hasRumble then rumbleOfData d else s.rumbleOut }

/-- MBC5_WR_NOP: no register here (R220). -/
def execMbc5WrNop (_a : Addr) (_d : Byte) (s : State) : Result := done s

/-- MBC5_WR_RAM (R219). -/
def execMbc5WrRam (a : Addr) (d : Byte) (s : State) : Result := writeRamBank s.ramBankNumber.toNat a d s

end Sys2Proof.Machine
end

