-- ==== Sys2Proof/Machine/Refused.lean ====
section
/-! DEFINITION. MBC6, MBC7 and MMM01 (45_refused_variants.md): recognised at construction, every transaction refused. -/

namespace Sys2Proof.Machine

/-- MBC6_ANY (R230). -/
def execMbc6Any (_w : Bool) (_a : Addr) (_d : Byte) (s : State) : Result := refuseVariant s

/-- MBC7_ANY (R230). -/
def execMbc7Any (_w : Bool) (_a : Addr) (_d : Byte) (s : State) : Result := refuseVariant s

/-- MMM01_ANY (R230). -/
def execMmm01Any (_w : Bool) (_a : Addr) (_d : Byte) (s : State) : Result := refuseVariant s

end Sys2Proof.Machine
end

