-- ==== Sys2Proof/Machine/RomOnly.lean ====
section
/-! DEFINITION. The ROM-only variant (40_decoder_common.md, section 3). -/

namespace Sys2Proof.Machine

/-- RO_RD_ROM: `return Rom[A]` (R110). -/
def execRoRdRom (a : Addr) (s : State) : Result := answer (Memory.read s.rom a.toNat) s

/-- RO_WR_ROM: no control writes accepted (R111). -/
def execRoWrRom (_a : Addr) (_d : Byte) (s : State) : Result := done s

/-- RO_RD_RAM: always enabled, unbanked (R112). -/
def execRoRdRam (a : Addr) (s : State) : Result :=
  if s.ramLen = 0 then answer Config.openBus s else answer (Memory.read s.ram (ramOff s.ramLen 0 a)) s

/-- RO_WR_RAM: always enabled, unbanked (R113). -/
def execRoWrRam (a : Addr) (d : Byte) (s : State) : Result :=
  if 0 < s.ramLen then done { s with ram := Memory.write s.ram (ramOff s.ramLen 0 a) d } else done s

end Sys2Proof.Machine
end

