-- ==== Sys2Proof/Machine/Dispatch.lean ====
section
/-! DEFINITION. The meaning of each instruction, one arm per constructor of `Instr`. -/

namespace Sys2Proof.Machine

def exec (i : Instr) (s : State) : Host.Outcome State Fault Refusal :=
  match i with
  | .rdUnmappedLo a => Sys2Proof.Machine.execRdUnmappedLo a s
  | .wrUnmappedLo a d => Sys2Proof.Machine.execWrUnmappedLo a d s
  | .rdUnmappedHi a => Sys2Proof.Machine.execRdUnmappedHi a s
  | .wrUnmappedHi a d => Sys2Proof.Machine.execWrUnmappedHi a d s
  | .roRdRom a => Sys2Proof.Machine.execRoRdRom a s
  | .roWrRom a d => Sys2Proof.Machine.execRoWrRom a d s
  | .roRdRam a => Sys2Proof.Machine.execRoRdRam a s
  | .roWrRam a d => Sys2Proof.Machine.execRoWrRam a d s
  | .mbc1RdRom0 a => Sys2Proof.Machine.execMbc1RdRom0 a s
  | .mbc1RdRomx a => Sys2Proof.Machine.execMbc1RdRomx a s
  | .mbc1RdRam a => Sys2Proof.Machine.execMbc1RdRam a s
  | .mbc1WrRamg a d => Sys2Proof.Machine.execMbc1WrRamg a d s
  | .mbc1WrBank1 a d => Sys2Proof.Machine.execMbc1WrBank1 a d s
  | .mbc1WrBank2 a d => Sys2Proof.Machine.execMbc1WrBank2 a d s
  | .mbc1WrMode a d => Sys2Proof.Machine.execMbc1WrMode a d s
  | .mbc1WrRam a d => Sys2Proof.Machine.execMbc1WrRam a d s
  | .mbc2RdRom0 a => Sys2Proof.Machine.execMbc2RdRom0 a s
  | .mbc2RdRomx a => Sys2Proof.Machine.execMbc2RdRomx a s
  | .mbc2RdRam a => Sys2Proof.Machine.execMbc2RdRam a s
  | .mbc2WrRamg a d => Sys2Proof.Machine.execMbc2WrRamg a d s
  | .mbc2WrRomb a d => Sys2Proof.Machine.execMbc2WrRomb a d s
  | .mbc2WrNop a d => Sys2Proof.Machine.execMbc2WrNop a d s
  | .mbc2WrRam a d => Sys2Proof.Machine.execMbc2WrRam a d s
  | .mbc3RdRom0 a => Sys2Proof.Machine.execMbc3RdRom0 a s
  | .mbc3RdRomx a => Sys2Proof.Machine.execMbc3RdRomx a s
  | .mbc3RdRam a => Sys2Proof.Machine.execMbc3RdRam a s
  | .mbc3WrRamg a d => Sys2Proof.Machine.execMbc3WrRamg a d s
  | .mbc3WrRomb a d => Sys2Proof.Machine.execMbc3WrRomb a d s
  | .mbc3WrSel a d => Sys2Proof.Machine.execMbc3WrSel a d s
  | .mbc3WrLatch a d => Sys2Proof.Machine.execMbc3WrLatch a d s
  | .mbc3WrRam a d => Sys2Proof.Machine.execMbc3WrRam a d s
  | .mbc5RdRom0 a => Sys2Proof.Machine.execMbc5RdRom0 a s
  | .mbc5RdRomx a => Sys2Proof.Machine.execMbc5RdRomx a s
  | .mbc5RdRam a => Sys2Proof.Machine.execMbc5RdRam a s
  | .mbc5WrRamg a d => Sys2Proof.Machine.execMbc5WrRamg a d s
  | .mbc5WrRomb0 a d => Sys2Proof.Machine.execMbc5WrRomb0 a d s
  | .mbc5WrRomb1 a d => Sys2Proof.Machine.execMbc5WrRomb1 a d s
  | .mbc5WrRamb a d => Sys2Proof.Machine.execMbc5WrRamb a d s
  | .mbc5WrNop a d => Sys2Proof.Machine.execMbc5WrNop a d s
  | .mbc5WrRam a d => Sys2Proof.Machine.execMbc5WrRam a d s
  | .mbc6Any w a d => Sys2Proof.Machine.execMbc6Any w a d s
  | .mbc7Any w a d => Sys2Proof.Machine.execMbc7Any w a d s
  | .mmm01Any w a d => Sys2Proof.Machine.execMmm01Any w a d s

end Sys2Proof.Machine
end

