-- ==== Sys2Proof/Machine/Rtc.lean ====
section
/-! DEFINITION. How the live clock advances (43_mbc3.md R185, R186): the spec's default of the parameter `RTC_ADVANCE`. Everything
that uses the advance takes it as an argument, and the machine passes this default. -/

namespace Sys2Proof.Machine

/-- The parameter `RTC_ADVANCE`: the live registers `n` whole seconds after `r` (R8, R186). -/
abbrev Advance := RtcRegs → Nat → RtcRegs

/-- A field counts up: from `top` it goes to `0` and carries, else it goes up by one within its bits (R186). -/
def countUp (top bits v : Byte) : Byte × Bool := if v = top then (0, true) else ((v + 1) &&& bits, false)

/-- A field counts up where the field below it carried, and stays otherwise (R186). -/
def countUpIf (carry : Bool) (top bits v : Byte) : Byte × Bool := if carry then countUp top bits v else (v, false)

/-- The 9-bit day counter: `r[3] | (r[4][0] << 8)` (R185, R186). -/
def dayCounter (r : RtcRegs) : BitVec 9 := r.dl.setWidth 9 ||| ((r.dh.extractLsb' 0 1).setWidth 9 <<< 8)

/-- The halt bit, bit 6 of the fifth register (R185). -/
def rtcHalted (r : RtcRegs) : Bool := r.dh.getLsbD 6

/-- The day-counter carry, bit 7 of the fifth register (R185). -/
def rtcCarry (r : RtcRegs) : Bool := r.dh.getLsbD 7

/-- The day counter and its carry after a day, where one has passed (R186). -/
def countDay (carry : Bool) (d : BitVec 9) (c : Bool) : BitVec 9 × Bool :=
  if carry then (if d = 0x1FF then (0, true) else (d + 1, c)) else (d, c)

/-- The fifth register of a running clock: `(c << 7) | d[8]` (R186). -/
def dhOf (d : BitVec 9) (c : Bool) : Byte := (if c then 0x80 else 0) ||| (d.extractLsb' 8 1).setWidth 8

/-- `rtc_step(r)`: one second (R186). -/
def rtcStep (r : RtcRegs) : RtcRegs :=
  if rtcHalted r then r
  else
    let s := countUp 59 0x3F (r.s &&& 0x3F)
    let m := countUpIf s.2 59 0x3F (r.m &&& 0x3F)
    let h := countUpIf m.2 23 0x1F (r.h &&& 0x1F)
    let d := countDay h.2 (dayCounter r) (rtcCarry r)
    ⟨s.1, m.1, h.1, d.1.setWidth 8, dhOf d.1 d.2⟩

/-- The default of `RTC_ADVANCE`: `n` applications of `rtc_step` (R186). -/
def rtcAdvance : Advance
  | r, 0 => r
  | r, n + 1 => rtcAdvance (rtcStep r) n

end Sys2Proof.Machine
end

