-- ==== Sys2Proof/Machine/HostOps.lean ====
section
/-! DEFINITION. The host's operations on a constructed block (46_host_interface.md): persist, restore, the time source, the output
signals and the sensor input. -/

namespace Sys2Proof.Machine

/-- `le64(t)`, little-endian (R240). -/
def le64 (t : BitVec 64) : List Byte :=
  [t.extractLsb' 0 8, t.extractLsb' 8 8, t.extractLsb' 16 8, t.extractLsb' 24 8,
   t.extractLsb' 32 8, t.extractLsb' 40 8, t.extractLsb' 48 8, t.extractLsb' 56 8]

/-- The little-endian value of a byte sequence (R242). -/
def leValue : List Byte → Nat
  | [] => 0
  | b :: bs => b.toNat + 256 * leValue bs

/-- The 8-byte clock snapshot: the five live registers and three zero bytes (R240). -/
def rtcSnapshot (r : RtcRegs) : List Byte := [r.s, r.m, r.h, r.dl, r.dh, 0, 0, 0]

/-- The five registers at the front of a snapshot (R242). -/
def regsOfSnapshot (bs : List Byte) : RtcRegs := ⟨bs.getD 0 0, bs.getD 1 0, bs.getD 2 0, bs.getD 3 0, bs.getD 4 0⟩

/-- `artifact(st, now)` (R240). -/
def artifact (s : State) (now : BitVec 64) : List Byte :=
  Memory.slice s.ram 0 s.ramLen ++
    match s.rtc with
    | some r => rtcSnapshot r.live ++ le64 now
    | none   => []

/-- `expected_len` (R240). -/
def expectedLen (s : State) : Nat := s.ramLen + if s.hasRtc then 16 else 0

/-- The kinds whose transactions, and whose `persist`, the model refuses (R230, R241). -/
def isRefusedKind (k : MapperKind) : Bool := decide (k ∈ [MapperKind.mbc6, .mbc7, .mmm01])

/-- `persist(now)` (R241). -/
def hostPersist (now : BitVec 64) (s : State) : Result :=
  if isRefusedKind s.kind then refuseVariant s else .next { s with output := .artifact (artifact s now) }

/-- What `restore` puts in a RAM cell: MBC2 keeps the low nibble (R242). -/
def restoreCell (k : MapperKind) (b : Byte) : Byte := if k = .mbc2 then b &&& 0x0F else b

/-- The seconds between a saved reading and `now`; none when the clock was set back (R242). -/
def elapsed (saved : Nat) (now : BitVec 64) : Nat := if saved ≤ now.toNat then now.toNat - saved else 0

/-- The clock after `restore`: the saved live registers, fast-forwarded (R242, R243). -/
def restoreRtc (advance : Advance) (tail : List Byte) (now : BitVec 64) (r : Rtc) : Rtc :=
  { r with live := advance (regsOfSnapshot tail) (elapsed (leValue ((tail.drop 8).take 8)) now) }

/-- `restore(buf, now)` with `RTC_ADVANCE` as a parameter (R242). A buffer of another length is ignored. -/
def restoreWith (advance : Advance) (buf : List Byte) (now : BitVec 64) (s : State) : Result :=
  if s.fresh = false then .refused .restoreNotFresh
  else if buf.length ≠ expectedLen s then done { s with fresh := false }
  else done { s with
    fresh := false
    ram   := Memory.ofBytes ((buf.take s.ramLen).map (restoreCell s.kind))
    rtc   := s.rtc.map (restoreRtc advance (buf.drop s.ramLen) now) }

/-- `restore(buf, now)` with the default advance (R242). -/
def hostRestore (buf : List Byte) (now : BitVec 64) (s : State) : Result := restoreWith rtcAdvance buf now s

/-- `rtc_tick(n)` with `RTC_ADVANCE` as a parameter: `n` seconds pass on the live registers (R244). -/
def rtcTickWith (advance : Advance) (n : Nat) (s : State) : Result :=
  done { s with fresh := false, rtc := s.rtc.map fun r => { r with live := advance r.live n } }

/-- `rtc_tick(n)` with the default advance (R244). -/
def hostRtcTick (n : Nat) (s : State) : Result := rtcTickWith rtcAdvance n s

/-- The signals the host can see; the header fields are ROM bytes at fixed offsets (R246, R281). -/
def hostSignals (s : State) : HostSignals where
  rumbleOut   := s.rumbleOut
  checksumOk  := s.checksumOk
  title       := Memory.slice s.rom 0x134 16
  newLicensee := Memory.slice s.rom 0x144 2
  oldLicensee := Memory.read s.rom 0x14B
  romSizeCode := s.romSizeCode
  ramSizeCode := s.ramSizeCode

/-- The host samples the outputs (R246, R247). -/
def hostSample (s : State) : Result := .next { s with output := .signals (hostSignals s) }

/-- The host drives the sensor input of an MBC7 block; no other block has the port (R231). -/
def hostSensor (sx sy : BitVec 16) (s : State) : Result :=
  if s.kind = .mbc7 then done { s with sensor := some (sx, sy) } else done s

/-- The pair the sensor input shows: the neutral value when no input device is wired up (R231). No rule reads it. -/
def sensorPair (s : State) : BitVec 16 × BitVec 16 := s.sensor.getD Config.sensorNeutral

end Sys2Proof.Machine
end

