-- ==== Sys2Proof/Machine/Inputs.lean ====
section
/-! DEFINITION. What each input of the two agents does to the block (00_scope.md R6, 46_host_interface.md R247). -/

namespace Sys2Proof.Machine

/-- A bus transaction: decode its word in the mode `st.kind` and execute the instruction (R73, R74, R100, R102). The block is then
no longer fresh (R242). -/
def busTransaction (T : Word) (s : State) : Result :=
  match decode s.kind T with
  | .ok i             => exec i { s with fresh := false }
  | .error (.noRow m) => .refused (.noRow m)

/-- The state in which an input other than a construction acts: the session has begun (R285). -/
def State.begin (s : State) : State := { s with begun := true }

/-- One input (R6, R7). -/
def runInput : Input → State → Result
  | .construct img, s   => hostConstruct img s
  | .openFailed, s      => hostOpenFailed s
  | .bus T, s           => busTransaction T s.begin
  | .restore buf now, s => hostRestore buf now s.begin
  | .persist now, s     => hostPersist now s.begin
  | .rtcTick n, s       => hostRtcTick n s.begin
  | .sampleOutputs, s   => hostSample s.begin
  | .sensor sx sy, s    => hostSensor sx sy s.begin

end Sys2Proof.Machine
end

