-- ==== Sys2Proof/Machine/Step.lean ====
section
/-! DEFINITION. One step of the machine: the next input, in the one total order of 20_memory.md R58 and R59. -/

namespace Sys2Proof.Machine

/-- Takes the first pending input and runs it. With none pending no agent acts and nothing changes (R6, R21); log entry 2. -/
def step (s : State) : Host.Outcome State Fault Refusal :=
  match s.pending with
  | []        => .next s
  | i :: rest => runInput i { s with pending := rest }

/-- The state in which the next step runs the instruction `decodeTableWord nbits w` names: its word stands first among the pending
inputs, and the block is in the mode that decodes it so (R73). Bits that are no transaction word change nothing. Log entry 3. -/
def State.withFetchWord (s : State) (nbits w : Nat) : State :=
  match tableWord nbits w with
  | none   => s
  | some T => { s with kind := Config.tableMode, pending := .bus T :: s.pending }

end Sys2Proof.Machine
end

