-- ==== Sys2Proof/Machine/Assembler.lean ====
section
/-! DEFINITION. The written form of a bus-transaction program (30_encoding.md R77) and its pseudo-instructions (R78), over lists
of characters. Notation only: the machine's step does not use it. -/

namespace Sys2Proof.Machine

/-- A line of R77: a transaction and, on a read, the byte it is expected to return. -/
structure AsmLine where
  transaction : Transaction
  expected    : Option Byte
  deriving DecidableEq, Repr

/-- How the value `v` below 16 is written as one digit, its letters counted on from the code point `letterA`. -/
def digitChar (letterA v : Nat) : Char := Char.ofNat (if v < 10 then 0x30 + v else letterA + (v - 10))

/-- The value of a hexadecimal digit: the one whose written digit it is, with capital or with small letters. Log entry 19. -/
def hexDigit? (c : Char) : Option Nat :=
  (List.range 16).find? fun v => c == digitChar 0x41 v || c == digitChar 0x61 v

/-- Hexadecimal digits after `acc`, the most significant first. -/
def hexDigits? (acc : Nat) : List Char → Option Nat
  | [] => some acc
  | c :: cs =>
    match hexDigit? c with
    | some v => hexDigits? (16 * acc + v) cs
    | none   => none

/-- A number of R77: `0x` and at least one digit. -/
def number? : List Char → Option Nat
  | '0' :: 'x' :: c :: cs => hexDigits? 0 (c :: cs)
  | _ => none

/-- A number of `w` bits. -/
def bits? (w : Nat) (cs : List Char) : Option (BitVec w) :=
  match number? cs with
  | some n => if n < 2 ^ w then some (BitVec.ofNat w n) else none
  | none   => none

/-- A line without its comment. -/
def dropComment (cs : List Char) : List Char := cs.takeWhile (· != ';')

/-- Puts the word read so far, if any, in front of the tokens. -/
def flushWord (word : List Char) (toks : List (List Char)) : List (List Char) :=
  if word.isEmpty then toks else word.reverse :: toks

/-- The tokens of a line: words between blanks, a comma being a word of its own. -/
def tokens (word : List Char) : List Char → List (List Char)
  | [] => flushWord word []
  | c :: cs =>
    if c = ' ' ∨ c = '\t' then flushWord word (tokens [] cs)
    else if c = ',' then flushWord word ([','] :: tokens [] cs)
    else tokens (c :: word) cs

/-- A line of the assembly syntax (R77). -/
def parseLine (cs : List Char) : Option AsmLine :=
  match tokens [] (dropComment cs) with
  | [['R', 'D'], a] => (bits? 16 a).map fun a => ⟨.read a, none⟩
  | [['R', 'D'], a, ['-', '>'], b] =>
    match bits? 16 a, bits? 8 b with
    | some a, some b => some ⟨.read a, some b⟩
    | _, _ => none
  | [['W', 'R'], a, [','], d] =>
    match bits? 16 a, bits? 8 d with
    | some a, some d => some ⟨.write a d, none⟩
    | _, _ => none
  | _ => none

/-- The `k` low hexadecimal digits of `n`, behind `0x`. -/
def hexNumber (k n : Nat) : List Char :=
  '0' :: 'x' :: ((List.range k).reverse.map fun i => digitChar 0x41 (n / 16 ^ i % 16))

/-- A transaction as a line (R77). -/
def renderLine : Transaction → List Char
  | .read a    => ['R', 'D', ' '] ++ hexNumber 4 a.toNat
  | .write a d => ['W', 'R', ' '] ++ hexNumber 4 a.toNat ++ [',', ' '] ++ hexNumber 2 d.toNat

/-- The pseudo-instructions (R78). -/
inductive Pseudo where
  | enram
  | disram
  | selrom (n : Nat)
  | selram (n : Byte)
  | mode (m : BankingMode)
  | latch
  deriving DecidableEq, Repr

/-- The expansion of a pseudo-instruction in a mode, where the mode has it (R78). -/
def Pseudo.expand (k : MapperKind) : Pseudo → Option (List Transaction)
  | .enram    => if k ∈ [MapperKind.mbc1, .mbc2, .mbc3, .mbc5] then some [.write 0x0000 0x0A] else none
  | .disram   => if k ∈ [MapperKind.mbc1, .mbc2, .mbc3, .mbc5] then some [.write 0x0000 0x00] else none
  | .selrom n =>
    match k with
    | .mbc1 => some [.write 0x2000 (BitVec.ofNat 8 n &&& 0x1F)]
    | .mbc2 => some [.write 0x2000 (BitVec.ofNat 8 n &&& 0x0F)]
    | .mbc3 => some [.write 0x2000 (BitVec.ofNat 8 n &&& 0x7F)]
    | .mbc5 => some [.write 0x2000 (BitVec.ofNat 8 n), .write 0x3000 (BitVec.ofNat 8 (n >>> 8) &&& 1)]
    | _     => none
  | .selram n => if k ∈ [MapperKind.mbc1, .mbc3, .mbc5] then some [.write 0x4000 n] else none
  | .mode m   =>
    if k = .mbc1 then
      match m with
      | .simple   => some [.write 0x6000 0x00]
      | .advanced => some [.write 0x6000 0x01]
    else none
  | .latch    => if k = .mbc3 then some [.write 0x6000 0x00, .write 0x6000 0x01] else none

end Sys2Proof.Machine
end

