-- ==== Sys2Proof/Safety.lean ====
section
/-! DEFINITION. What counts as a sound state, and what never changes in a session: the terms the statements use. -/

namespace Sys2Proof.Machine

/-- The variants the spec gives in full (R2, R7). -/
def specifiedKind (k : MapperKind) : Bool := decide (k ∈ [MapperKind.romOnly, .mbc1, .mbc2, .mbc3, .mbc5])

/-- The bound of `rom_bank_number` by kind: its stored width where a rule writes it (R24). -/
def romBankBound : MapperKind → Nat
  | .mbc1 => 2 ^ 5
  | .mbc2 => 2 ^ 4
  | .mbc3 => 2 ^ 7
  | .mbc5 => 2 ^ 9
  | _     => 2

/-- The bound of `ram_bank_number` by kind (R25). -/
def ramBankBound (k : MapperKind) (hasRumble : Bool) : Nat :=
  match k with
  | .mbc1 => 2 ^ 2
  | .mbc3 => 2 ^ 8
  | .mbc5 => if hasRumble then 2 ^ 3 else 2 ^ 4
  | _     => 1

/-- The kinds whose RAM-enable control write exists (R26). -/
def hasRamGate (k : MapperKind) : Bool := decide (k ∈ [MapperKind.mbc1, .mbc2, .mbc3, .mbc5])

/-- The configuration is the one construction computes from the image (R23, R280 to R284). -/
structure State.ConfigOk (s : State) : Prop where
  supported    : s.kind ≠ .unsupported
  table        : cartTypeTable s.cartridgeType = ⟨s.kind, s.hasRtc, s.hasRumble⟩
  typeByte     : s.cartridgeType = Memory.read s.rom 0x147
  romCodeByte  : s.romSizeCode = Memory.read s.rom 0x148
  ramCodeByte  : s.ramSizeCode = Memory.read s.rom 0x149
  romCode      : s.romSizeCode.toNat ≤ 0x08
  ramCode      : s.ramSizeCode.toNat ≤ 0x05
  romLen       : s.romLen = 0x8000 * 2 ^ s.romSizeCode.toNat
  ramLen       : s.ramLen = ramLenOf s.kind s.ramSizeCode
  checksum     : s.checksumOk = headerChecksumOk s.rom

/-- The two storage arrays are in canonical form and inside their lengths, and an MBC2 cell holds 4 bits (R23, R28). -/
structure State.StorageOk (s : State) : Prop where
  romWf    : Memory.wf s.rom = true
  romBelow : Memory.below s.romLen s.rom = true
  ramWf    : Memory.wf s.ram = true
  ramBelow : Memory.below s.ramLen s.ram = true
  nibbles  : s.kind = .mbc2 → ∀ i, (Memory.read s.ram i).toNat < 16

/-- Every register stays in the bits, and in the variants, that have it (R24 to R31). -/
structure State.RegsOk (s : State) : Prop where
  romBank : s.romBankNumber.toNat < romBankBound s.kind
  romKept : hasRamGate s.kind = false → s.romBankNumber = 1
  ramBank : s.ramBankNumber.toNat < ramBankBound s.kind s.hasRumble
  gate    : s.ramEnabled = true → hasRamGate s.kind = true
  mode    : s.bankingMode = .advanced → s.kind = .mbc1
  clock   : s.hasRtc = true → s.kind = .mbc3
  rumble  : s.rumbleOut = true → s.kind = .mbc5 ∧ s.hasRumble = true
  port    : s.sensor.isSome = true → s.kind = .mbc7
  session : s.fresh = false → s.begun = true

/-- The invariant of the machine: what construction establishes and every step keeps. -/
structure State.Inv (s : State) : Prop where
  config  : s.ConfigOk
  storage : s.StorageOk
  regs    : s.RegsOk

/-- The configuration fields of the two states agree (R23). -/
structure State.SameConfig (s t : State) : Prop where
  rom           : t.rom = s.rom
  romLen        : t.romLen = s.romLen
  romBankCount  : t.romBankCount = s.romBankCount
  cartridgeType : t.cartridgeType = s.cartridgeType
  romSizeCode   : t.romSizeCode = s.romSizeCode
  ramSizeCode   : t.ramSizeCode = s.ramSizeCode
  kind          : t.kind = s.kind
  hasRtc        : t.hasRtc = s.hasRtc
  hasRumble     : t.hasRumble = s.hasRumble
  ramLen        : t.ramLen = s.ramLen
  checksumOk    : t.checksumOk = s.checksumOk

/-- The input constructs a block. -/
def Input.isConstruct : Input → Bool
  | .construct _ => true
  | _            => false

/-- The transaction word is a write of an address in the range. -/
def writesWithin (lo hi : Nat) (T : Word) : Bool := Word.isWrite T && Addr.within lo hi (Word.addr T)

/-- The next step copies the live clock into the latched registers: a write of `0x01` to the LATCH range on an armed MBC3 clock
(R177). -/
def latchesNext (s : State) : Bool :=
  match s.pending, s.rtc with
  | .bus T :: _, some r =>
    decide (s.kind = .mbc3) && writesWithin 0x6000 0x7FFF T && decide (Word.data T = 0x01) && r.latchArmed
  | _, _ => false

/-- The next step constructs a block. -/
def constructsNext (s : State) : Bool :=
  match s.pending with
  | i :: _ => i.isConstruct
  | []     => false

/-- The registers of a running clock are in range: seconds and minutes below 60, hours below 24, halt bit clear, unused bits clear
(R185). -/
structure RtcRegs.Running (r : RtcRegs) : Prop where
  seconds : r.s.toNat < 60
  minutes : r.m.toNat < 60
  hours   : r.h.toNat < 24
  unused  : r.dh.toNat % 128 < 2

/-- The seconds a clock in range shows, the day counter's 9 bits included (R185). -/
def RtcRegs.totalSeconds (r : RtcRegs) : Nat :=
  r.s.toNat + 60 * (r.m.toNat + 60 * (r.h.toNat + 24 * (r.dl.toNat + 256 * (r.dh.toNat % 2))))

/-- The state after a bus transaction that changes nothing of the block: the word is consumed, the block is no longer fresh (R242),
the session has begun, and `o` is what the transaction gave back. -/
def State.after (s : State) (rest : List Input) (o : Output) : State :=
  { s with pending := rest, begun := true, fresh := false, output := o }

end Sys2Proof.Machine
end

