-- ==== Sys2Proof/Certificates/Slice0/Obligations.lean ====
section
/-! DEFINITION. The statements for the provers. Addresses and registers are written as numbers and ranges, as the rules of spec/ write
them, not by the model's own operand functions. -/

open Sys2Proof Sys2Proof.Machine

/-- R70: every transaction is one 25-bit word with W at bit 24, A at bits 23:8 and D at bits 7:0. The word of read(A) is A
<< 8, the word of write(A, D) is (1 << 24) | (A << 8) | D, and the three fields of the word are the transaction's
direction, address and data (0 in a read word). -/
def Obligations.TransactionWordPlacesItsFields : Prop :=
  (∀ a : Addr, (enc (.read a)).toNat = a.toNat * 256 ∧
    Word.isWrite (enc (.read a)) = false ∧ Word.addr (enc (.read a)) = a ∧ Word.data (enc (.read a)) = 0) ∧
  (∀ (a : Addr) (d : Byte), (enc (.write a d)).toNat = 2 ^ 24 + a.toNat * 256 + d.toNat ∧
    Word.isWrite (enc (.write a d)) = true ∧ Word.addr (enc (.write a d)) = a ∧ Word.data (enc (.write a d)) = d) ∧
  ∀ T : Word, Word.isWrite T = decide (T.toNat / 2 ^ 24 % 2 = 1) ∧
    (Word.addr T).toNat = T.toNat / 2 ^ 8 % 2 ^ 16 ∧ (Word.data T).toNat = T.toNat % 2 ^ 8

/-- For every well-formed instruction, with every operand, and every decode mode in which its row exists, decoding the
instruction's word in that mode gives the instruction. -/
def Obligations.DecodeOfEncodeIsTheInstruction : Prop :=
  ∀ (i : Instr) (m : MapperKind), WellFormed i → m ∈ i.modes → decode m (encode i) = .ok i

/-- R74: given a mode of a constructed block and any 25-bit word, exactly one row of the decode map has the mode in its
list and (T & mask) == match, and the decoder gives that row's instruction, of the row's mnemonic and with the word's
three fields as operands. -/
def Obligations.ExactlyOneRowFitsEveryWord : Prop :=
  ∀ (m : MapperKind) (T : Word), m ≠ .unsupported →
    ∃ r ∈ opcodeTable, m ∈ r.modes ∧ T &&& r.mask = r.pattern ∧
      (opcodeTable.filter fun q => decide (m ∈ q.modes) && decide (T &&& q.mask = q.pattern)).length = 1 ∧
      ∃ i, decode m T = .ok i ∧ i.mnemonic = r.mnemonic ∧ i = r.build (Word.isWrite T) (Word.addr T) (Word.data T)

/-- Whatever a word decodes to in a mode is a well-formed instruction whose row exists in that mode, and its own word is the
word decoded, with the data field cleared when the word is a read word (R71). -/
def Obligations.DecodedInstructionIsWellFormedAndReencodes : Prop :=
  ∀ (m : MapperKind) (T : Word) (i : Instr), decode m T = .ok i →
    WellFormed i ∧ m ∈ i.modes ∧ encode i = if Word.isWrite T then T else T &&& 0x1FFFF00

/-- R71: the encoder writes 0 in the data field of a read word, and a decoder ignores that field: two read words of one
address decode alike in every mode. -/
def Obligations.ReadWordDataFieldIsIgnored : Prop :=
  (∀ a : Addr, Word.data (enc (.read a)) = 0) ∧
  (∀ r ∈ opcodeTable, r.pattern &&& 0x1000000 = 0 → r.mask &&& 0xFF = 0) ∧
  ∀ (m : MapperKind) (T T' : Word), Word.isWrite T = false → Word.isWrite T' = false → Word.addr T = Word.addr T' →
    decode m T = decode m T'

/-- The read rows of R75, by the column A range: in the row's mode, a read word whose address stands in the row's range
decodes to the row's instruction with that address. -/
def Obligations.ReadWordsDecodeByAddressRange : Prop :=
  ∀ (m : MapperKind) (T : Word), Word.isWrite T = false →
    (m ∈ [MapperKind.romOnly, .mbc1, .mbc2, .mbc3, .mbc5] → Addr.within 0x8000 0x9FFF (Word.addr T) = true → decode m T = .ok (.rdUnmappedLo (Word.addr T))) ∧
    (m ∈ [MapperKind.romOnly, .mbc1, .mbc2, .mbc3, .mbc5] → Addr.within 0xC000 0xFFFF (Word.addr T) = true → decode m T = .ok (.rdUnmappedHi (Word.addr T))) ∧
    (m = .romOnly → Addr.within 0x0000 0x7FFF (Word.addr T) = true → decode m T = .ok (.roRdRom (Word.addr T))) ∧
    (m = .romOnly → Addr.within 0xA000 0xBFFF (Word.addr T) = true → decode m T = .ok (.roRdRam (Word.addr T))) ∧
    (m = .mbc1 → Addr.within 0x0000 0x3FFF (Word.addr T) = true → decode m T = .ok (.mbc1RdRom0 (Word.addr T))) ∧
    (m = .mbc1 → Addr.within 0x4000 0x7FFF (Word.addr T) = true → decode m T = .ok (.mbc1RdRomx (Word.addr T))) ∧
    (m = .mbc1 → Addr.within 0xA000 0xBFFF (Word.addr T) = true → decode m T = .ok (.mbc1RdRam (Word.addr T))) ∧
    (m = .mbc2 → Addr.within 0x0000 0x3FFF (Word.addr T) = true → decode m T = .ok (.mbc2RdRom0 (Word.addr T))) ∧
    (m = .mbc2 → Addr.within 0x4000 0x7FFF (Word.addr T) = true → decode m T = .ok (.mbc2RdRomx (Word.addr T))) ∧
    (m = .mbc2 → Addr.within 0xA000 0xBFFF (Word.addr T) = true → decode m T = .ok (.mbc2RdRam (Word.addr T))) ∧
    (m = .mbc3 → Addr.within 0x0000 0x3FFF (Word.addr T) = true → decode m T = .ok (.mbc3RdRom0 (Word.addr T))) ∧
    (m = .mbc3 → Addr.within 0x4000 0x7FFF (Word.addr T) = true → decode m T = .ok (.mbc3RdRomx (Word.addr T))) ∧
    (m = .mbc3 → Addr.within 0xA000 0xBFFF (Word.addr T) = true → decode m T = .ok (.mbc3RdRam (Word.addr T))) ∧
    (m = .mbc5 → Addr.within 0x0000 0x3FFF (Word.addr T) = true → decode m T = .ok (.mbc5RdRom0 (Word.addr T))) ∧
    (m = .mbc5 → Addr.within 0x4000 0x7FFF (Word.addr T) = true → decode m T = .ok (.mbc5RdRomx (Word.addr T))) ∧
    (m = .mbc5 → Addr.within 0xA000 0xBFFF (Word.addr T) = true → decode m T = .ok (.mbc5RdRam (Word.addr T)))

/-- The write rows of R75, by the column A range: in the row's mode, a write word whose address stands in the row's range
decodes to the row's instruction with that address and data. -/
def Obligations.WriteWordsDecodeByAddressRange : Prop :=
  ∀ (m : MapperKind) (T : Word), Word.isWrite T = true →
    (m ∈ [MapperKind.romOnly, .mbc1, .mbc2, .mbc3, .mbc5] → Addr.within 0x8000 0x9FFF (Word.addr T) = true →
      decode m T = .ok (.wrUnmappedLo (Word.addr T) (Word.data T))) ∧
    (m ∈ [MapperKind.romOnly, .mbc1, .mbc2, .mbc3, .mbc5] → Addr.within 0xC000 0xFFFF (Word.addr T) = true →
      decode m T = .ok (.wrUnmappedHi (Word.addr T) (Word.data T))) ∧
    (m = .romOnly → Addr.within 0x0000 0x7FFF (Word.addr T) = true →
      decode m T = .ok (.roWrRom (Word.addr T) (Word.data T))) ∧
    (m = .romOnly → Addr.within 0xA000 0xBFFF (Word.addr T) = true →
      decode m T = .ok (.roWrRam (Word.addr T) (Word.data T))) ∧
    (m = .mbc1 → Addr.within 0x0000 0x1FFF (Word.addr T) = true →
      decode m T = .ok (.mbc1WrRamg (Word.addr T) (Word.data T))) ∧
    (m = .mbc1 → Addr.within 0x2000 0x3FFF (Word.addr T) = true →
      decode m T = .ok (.mbc1WrBank1 (Word.addr T) (Word.data T))) ∧
    (m = .mbc1 → Addr.within 0x4000 0x5FFF (Word.addr T) = true →
      decode m T = .ok (.mbc1WrBank2 (Word.addr T) (Word.data T))) ∧
    (m = .mbc1 → Addr.within 0x6000 0x7FFF (Word.addr T) = true →
      decode m T = .ok (.mbc1WrMode (Word.addr T) (Word.data T))) ∧
    (m = .mbc1 → Addr.within 0xA000 0xBFFF (Word.addr T) = true →
      decode m T = .ok (.mbc1WrRam (Word.addr T) (Word.data T))) ∧
    (m = .mbc2 → Addr.within 0x0000 0x1FFF (Word.addr T) = true →
      decode m T = .ok (.mbc2WrRamg (Word.addr T) (Word.data T))) ∧
    (m = .mbc2 → Addr.within 0x2000 0x3FFF (Word.addr T) = true →
      decode m T = .ok (.mbc2WrRomb (Word.addr T) (Word.data T))) ∧
    (m = .mbc2 → Addr.within 0x4000 0x7FFF (Word.addr T) = true →
      decode m T = .ok (.mbc2WrNop (Word.addr T) (Word.data T))) ∧
    (m = .mbc2 → Addr.within 0xA000 0xBFFF (Word.addr T) = true →
      decode m T = .ok (.mbc2WrRam (Word.addr T) (Word.data T))) ∧
    (m = .mbc3 → Addr.within 0x0000 0x1FFF (Word.addr T) = true →
      decode m T = .ok (.mbc3WrRamg (Word.addr T) (Word.data T))) ∧
    (m = .mbc3 → Addr.within 0x2000 0x3FFF (Word.addr T) = true →
      decode m T = .ok (.mbc3WrRomb (Word.addr T) (Word.data T))) ∧
    (m = .mbc3 → Addr.within 0x4000 0x5FFF (Word.addr T) = true →
      decode m T = .ok (.mbc3WrSel (Word.addr T) (Word.data T))) ∧
    (m = .mbc3 → Addr.within 0x6000 0x7FFF (Word.addr T) = true →
      decode m T = .ok (.mbc3WrLatch (Word.addr T) (Word.data T))) ∧
    (m = .mbc3 → Addr.within 0xA000 0xBFFF (Word.addr T) = true →
      decode m T = .ok (.mbc3WrRam (Word.addr T) (Word.data T))) ∧
    (m = .mbc5 → Addr.within 0x0000 0x1FFF (Word.addr T) = true →
      decode m T = .ok (.mbc5WrRamg (Word.addr T) (Word.data T))) ∧
    (m = .mbc5 → Addr.within 0x2000 0x2FFF (Word.addr T) = true →
      decode m T = .ok (.mbc5WrRomb0 (Word.addr T) (Word.data T))) ∧
    (m = .mbc5 → Addr.within 0x3000 0x3FFF (Word.addr T) = true →
      decode m T = .ok (.mbc5WrRomb1 (Word.addr T) (Word.data T))) ∧
    (m = .mbc5 → Addr.within 0x4000 0x5FFF (Word.addr T) = true →
      decode m T = .ok (.mbc5WrRamb (Word.addr T) (Word.data T))) ∧
    (m = .mbc5 → Addr.within 0x6000 0x7FFF (Word.addr T) = true →
      decode m T = .ok (.mbc5WrNop (Word.addr T) (Word.data T))) ∧
    (m = .mbc5 → Addr.within 0xA000 0xBFFF (Word.addr T) = true →
      decode m T = .ok (.mbc5WrRam (Word.addr T) (Word.data T)))

/-- Words of the spec's table of encodings (95_test_vectors.md, 2.1), one or more for each family, decode in their mode to
the row the table names; the same word decodes to different instructions in different modes (R73). -/
def Obligations.SpecVectorWordsDecode : Prop :=
  decode .romOnly 0x1200005 = .ok (.roWrRom 0x2000 0x05) ∧
  decode .mbc1 0x1200005 = .ok (.mbc1WrBank1 0x2000 0x05) ∧
  decode .mbc1 0x07FFF00 = .ok (.mbc1RdRomx 0x7FFF) ∧
  decode .mbc2 0x15FFF08 = .ok (.mbc2WrNop 0x5FFF 0x08) ∧
  decode .mbc3 0x1600001 = .ok (.mbc3WrLatch 0x6000 0x01) ∧
  decode .mbc5 0x1300001 = .ok (.mbc5WrRomb1 0x3000 0x01) ∧
  decode .mbc5 0x12FFF01 = .ok (.mbc5WrRomb0 0x2FFF 0x01) ∧
  decode .mbc2 0x09FFF00 = .ok (.rdUnmappedLo 0x9FFF) ∧
  decode .mbc3 0x1FFFFFF = .ok (.wrUnmappedHi 0xFFFF 0xFF) ∧
  decode .mbc1 0x0000055 = .ok (.mbc1RdRom0 0x0000) ∧
  decode .mbc7 0x100000A = .ok (.mbc7Any true 0x0000 0x0A)

/-- R77's syntax: writing a transaction as a line RD <addr> or WR <addr>, <data> and reading the line gives the transaction,
with no expected result. -/
def Obligations.AssemblyLineReadsBack : Prop :=
  ∀ t : Transaction, parseLine (renderLine t) = some ⟨t, none⟩

/-- When the first pending input is a bus transaction whose word decodes, in the mode of the block, to an instruction,
the step is the meaning of that instruction on the state with the input consumed, the session begun and the block no
longer fresh (the marks begun and fresh are the model's, log entry 5); with nothing pending a step changes nothing (that
last clause is the model's choice, log entry 2). -/
def Obligations.StepRunsTheDecodedTransaction : Prop :=
  (∀ (s : State) (T : Word) (rest : List Input) (i : Instr), s.pending = .bus T :: rest → decode s.kind T = .ok i →
    step s = exec i { s with pending := rest, begun := true, fresh := false }) ∧
  ∀ s : State, s.pending = [] → step s = .next s

/-- The model's choice, log entry 3: when the bits of a table row are a word that decodeTableWord reads as an
instruction, the step of any state prepared by withFetchWord with those bits is the meaning of that instruction on the
state, in the mode the bits are read in, with no input consumed from its own pending ones, the session begun and the
block no longer fresh (log entry 5). -/
def Obligations.FetchWordStepRunsTheTableInstruction : Prop :=
  ∀ (s : State) (nbits w : Nat) (i : Instr), decodeTableWord nbits w = some i →
    step (s.withFetchWord nbits w) = exec i { s with kind := Config.tableMode, begun := true, fresh := false }

/-- R260: on a block of a specified variant every bus transaction ends in a next state, a read with a byte and a write
without a result; the only abnormal outcome of a bus transaction is the refusal in MBC6, MBC7 and MMM01 modes. -/
def Obligations.SpecifiedBlockAnswersEveryTransaction : Prop :=
  ∀ (s : State) (T : Word) (rest : List Input), s.pending = .bus T :: rest →
    (s.kind ∈ [MapperKind.romOnly, .mbc1, .mbc2, .mbc3, .mbc5] →
      ∃ t, step s = .next t ∧ t.pending = rest ∧
        (Word.isWrite T = true → t.output = .nothing) ∧ (Word.isWrite T = false → ∃ b, t.output = .byte b)) ∧
    (s.kind ∈ [MapperKind.mbc6, .mbc7, .mmm01] →
      step s = .refused (.unmodelledVariant s.kind { s with pending := rest, begun := true, fresh := false, refused := true }))

/-- R52: a read transaction that ends in a next state leaves every part of the block as it was; only the word is
consumed, the byte read is given back, and the model's own marks say that the session has begun and the block is no
longer fresh (log entry 5). -/
def Obligations.ReadTransactionChangesNothing : Prop :=
  ∀ (s t : State) (T : Word) (rest : List Input), s.pending = .bus T :: rest → Word.isWrite T = false → step s = .next t →
    ∃ b, t = s.after rest (.byte b)

/-- R52: a write transaction that ends in a next state never changes the ROM image or any configuration field; a write to
the ROM region changes no RAM cell and no live clock register; a write to the RAM region changes no bank register, gate,
mode, output signal, latched register or latch-armed flag; a write elsewhere changes nothing. -/
def Obligations.WriteTransactionReachesItsRegionOnly : Prop :=
  ∀ (s t : State) (T : Word) (rest : List Input), s.pending = .bus T :: rest → Word.isWrite T = true → step s = .next t →
    s.SameConfig t ∧
    ((Word.addr T).toNat ≤ 0x7FFF →
      t.ram = s.ram ∧ t.rtc.map (fun r => r.live) = s.rtc.map (fun r => r.live)) ∧
    (Addr.within 0xA000 0xBFFF (Word.addr T) = true →
      t.romBankNumber = s.romBankNumber ∧ t.ramBankNumber = s.ramBankNumber ∧ t.ramEnabled = s.ramEnabled ∧
      t.bankingMode = s.bankingMode ∧ t.rumbleOut = s.rumbleOut ∧
      t.rtc.map (fun r => (r.latched, r.latchArmed)) = s.rtc.map (fun r => (r.latched, r.latchArmed))) ∧
    (Addr.within 0x8000 0x9FFF (Word.addr T) = true ∨ 0xC000 ≤ (Word.addr T).toNat → t = s.after rest .nothing)

/-- The reset state (the block constructed from the blank image, log entry 1) meets the invariant of the machine: a
configuration that construction computes, storage in canonical form within its length, and registers within their stored
widths. -/
def Obligations.InvariantHoldsAtReset : Prop :=
  State.reset.Inv

/-- From every state that meets the invariant, a step that ends in a next state, whichever input it runs (bus
transaction, construction, restore, persist, tick, sampling, sensor), gives a state that meets it: the configuration is
what construction computes from the image, ROM and RAM are canonical and inside their lengths, MBC2 cells hold 4 bits,
each register stays in its stored width and variant, and a block that is no longer fresh is one whose session has begun
(log entry 5). -/
def Obligations.EveryStepKeepsTheInvariant : Prop :=
  ∀ s t : State, s.Inv → step s = .next t → t.Inv

/-- R23 and R285: along any number of steps from a state whose session has begun, that is after the host's construction
or after any other input (the model's mark, log entry 5), and along any steps that take no construction, the ROM image
and every other configuration field stay as they were, whatever the bus master and the host do. -/
def Obligations.ConfigurationIsFixedForTheSession : Prop :=
  ∀ (n : Nat) (s t : State), Host.Core.run Sys2Proof.core n s = .next t →
    s.begun = true ∨ (∀ i ∈ s.pending.take n, i.isConstruct = false) → s.SameConfig t

/-- R31: every step that ends in a next state and is no construction keeps the mark refused; a step that ends in the
refusal of an unmodelled variant ran a bus transaction or a persist and carries the state with that input consumed and
the mark set, the session begun and, after a bus transaction, the block no longer fresh (log entries 4 and 5), and
nothing else changed. -/
def Obligations.RefusedMarkIsNeverCleared : Prop :=
  (∀ s t : State, constructsNext s = false → step s = .next t → t.refused = s.refused) ∧
  ∀ (s u : State) (k : MapperKind), step s = .refused (.unmodelledVariant k u) →
    u.refused = true ∧ k = s.kind ∧
      ((∃ T, s.pending = .bus T :: s.pending.tail ∧
          u = { s with pending := s.pending.tail, begun := true, fresh := false, refused := true }) ∨
        ∃ now, s.pending = .persist now :: s.pending.tail ∧
          u = { s with pending := s.pending.tail, begun := true, refused := true })

/-- R104 and R106: the meaning of each unmapped read answers the byte 0xFF and changes nothing else, for every address and
state; and a read word of an address in 0x8000-0x9FFF or 0xC000-0xFFFF runs so in every specified mode. -/
def Obligations.UnmappedReadsReturnOpenBus : Prop :=
  (∀ (a : Addr) (s : State), exec (.rdUnmappedLo a) s = .next { s with output := .byte 0xFF } ∧
    exec (.rdUnmappedHi a) s = .next { s with output := .byte 0xFF }) ∧
  ∀ (s : State) (T : Word) (rest : List Input), s.pending = .bus T :: rest → Word.isWrite T = false →
    s.kind ∈ [MapperKind.romOnly, .mbc1, .mbc2, .mbc3, .mbc5] →
    (Addr.within 0x8000 0x9FFF (Word.addr T) = true ∨ 0xC000 ≤ (Word.addr T).toNat) →
    step s = .next (s.after rest (.byte 0xFF))

/-- R105, R107, R111, R157 and R220: writes of the unmapped ranges, of RomOnly's ROM region, of MBC2's 0x4000-0x7FFF and of
MBC5's 0x6000-0x7FFF complete and change nothing, for every address, data and state; and the words of those ranges run
so in their modes. -/
def Obligations.UnmappedAndNopWritesChangeNothing : Prop :=
  (∀ (a : Addr) (d : Byte) (s : State),
    exec (.wrUnmappedLo a d) s = .next { s with output := .nothing } ∧
    exec (.wrUnmappedHi a d) s = .next { s with output := .nothing } ∧
    exec (.roWrRom a d) s = .next { s with output := .nothing } ∧
    exec (.mbc2WrNop a d) s = .next { s with output := .nothing } ∧
    exec (.mbc5WrNop a d) s = .next { s with output := .nothing }) ∧
  ∀ (s : State) (T : Word) (rest : List Input), s.pending = .bus T :: rest → Word.isWrite T = true →
    (s.kind ∈ [MapperKind.romOnly, .mbc1, .mbc2, .mbc3, .mbc5] ∧
        (Addr.within 0x8000 0x9FFF (Word.addr T) = true ∨ 0xC000 ≤ (Word.addr T).toNat)) ∨
      (s.kind = .romOnly ∧ (Word.addr T).toNat ≤ 0x7FFF) ∨
      (s.kind = .mbc2 ∧ Addr.within 0x4000 0x7FFF (Word.addr T) = true) ∨
      (s.kind = .mbc5 ∧ Addr.within 0x6000 0x7FFF (Word.addr T) = true) →
    step s = .next (s.after rest .nothing)

/-- R110: RO_RD_ROM answers Rom[A] and changes nothing else; when the image has at least 32 KiB the index is in range; and a
read word of 0x0000-0x7FFF on a RomOnly block runs so. -/
def Obligations.RomOnlyReadsTheImageDirectly : Prop :=
  (∀ (a : Addr) (s : State), exec (.roRdRom a) s = .next { s with output := .byte (Memory.read s.rom a.toNat) }) ∧
  (∀ (a : Addr) (s : State), 0x8000 ≤ s.romLen → a.toNat ≤ 0x7FFF → a.toNat < s.romLen) ∧
  ∀ (s : State) (T : Word) (rest : List Input), s.pending = .bus T :: rest → Word.isWrite T = false → s.kind = .romOnly →
    (Word.addr T).toNat ≤ 0x7FFF → step s = .next (s.after rest (.byte (Memory.read s.rom (Word.addr T).toNat)))

/-- R112 and R113: RO_RD_RAM answers 0xFF when there is no RAM and else cell (A - 0xA000) mod ram_len, whatever ram_enabled
is; RO_WR_RAM drops the write when there is no RAM and else writes exactly that cell. Everything else, every other cell
among it, stays. -/
def Obligations.RomOnlyRamIsAlwaysEnabledAndUnbanked : Prop :=
  ∀ (a : Addr) (d : Byte) (s : State), Addr.within 0xA000 0xBFFF a = true →
    exec (.roRdRam a) s = .next { s with output := .byte (if s.ramLen = 0 then 0xFF else Memory.read s.ram ((a.toNat - 0xA000) % s.ramLen)) } ∧
    (s.ramLen = 0 → exec (.roWrRam a d) s = .next { s with output := .nothing }) ∧
    (0 < s.ramLen → Memory.wf s.ram = true → ∃ m : Memory,
      exec (.roWrRam a d) s = .next { s with ram := m, output := .nothing } ∧
      Memory.read m ((a.toNat - 0xA000) % s.ramLen) = d ∧
      ∀ j, j ≠ (a.toNat - 0xA000) % s.ramLen → Memory.read m j = Memory.read s.ram j)

/-- R152, R172 and R212: a read of 0x0000-0x3FFF on MBC2, MBC3 and MBC5 answers Rom[A] and changes nothing else. -/
def Obligations.RomZeroWindowShowsBankZero : Prop :=
  ∀ (a : Addr) (s : State), a.toNat ≤ 0x3FFF →
    exec (.mbc2RdRom0 a) s = .next { s with output := .byte (Memory.read s.rom a.toNat) } ∧
    exec (.mbc3RdRom0 a) s = .next { s with output := .byte (Memory.read s.rom a.toNat) } ∧
    exec (.mbc5RdRom0 a) s = .next { s with output := .byte (Memory.read s.rom a.toNat) }

/-- R132: a read of 0x0000-0x3FFF on MBC1 answers Rom[(b mod rom_bank_count) * 0x4000 + A] with b = 0 in Simple mode,
whatever the secondary register holds, and b = 32 times the secondary register in Advanced mode; nothing else changes;
on an image of 32 banks or fewer, a power of two as construction gives it, that is bank 0 in both modes. -/
def Obligations.Mbc1RomZeroWindowFollowsTheMode : Prop :=
  (∀ (a : Addr) (s : State), a.toNat ≤ 0x3FFF →
    exec (.mbc1RdRom0 a) s = .next { s with output := .byte (Memory.read s.rom
      ((if s.bankingMode = .advanced then 32 * s.ramBankNumber.toNat else 0) % (s.romLen / 0x4000) * 0x4000 + a.toNat)) }) ∧
  ∀ (a : Addr) (s : State) (k : Nat), a.toNat ≤ 0x3FFF → k ≤ 5 → s.romLen = 0x4000 * 2 ^ k →
    exec (.mbc1RdRom0 a) s = .next { s with output := .byte (Memory.read s.rom a.toNat) }

/-- R131, R133, R151, R153, R171 and R173: a read of 0x4000-0x7FFF on MBC1, MBC2 and MBC3 answers Rom[(b mod rom_bank_count)
* 0x4000 + (A - 0x4000)] with b the stored ROM bank register, or 1 where it is 0, and changes nothing else; on MBC1 the
secondary register and the mode do not matter. The test is on the stored value: the writes of 0x00, 0x20, 0x40, 0x60,
0x80, 0xA0, 0xC0 and 0xE0 to BANK1, and of 0x00 and 0x80 to MBC3's ROMB, select bank 1. -/
def Obligations.RomxWindowAliasesBankZeroToOne : Prop :=
  (∀ (a : Addr) (s : State), Addr.within 0x4000 0x7FFF a = true →
    let t : State := { s with output := .byte (Memory.read s.rom
      ((if s.romBankNumber.toNat = 0 then 1 else s.romBankNumber.toNat) % (s.romLen / 0x4000) * 0x4000
        + (a.toNat - 0x4000))) }
    exec (.mbc1RdRomx a) s = .next t ∧ exec (.mbc2RdRomx a) s = .next t ∧ exec (.mbc3RdRomx a) s = .next t) ∧
  (∀ (a w : Addr) (d : Byte) (s : State), Addr.within 0x4000 0x7FFF a = true → d.toNat % 0x20 = 0 →
    ∃ t, exec (.mbc1WrBank1 w d) s = .next t ∧
      exec (.mbc1RdRomx a) t = .next { t with output := .byte (Memory.read s.rom
        (1 % (s.romLen / 0x4000) * 0x4000 + (a.toNat - 0x4000))) }) ∧
  ∀ (a w : Addr) (d : Byte) (s : State), Addr.within 0x4000 0x7FFF a = true → d.toNat % 0x80 = 0 →
    ∃ t, exec (.mbc3WrRomb w d) s = .next t ∧
      exec (.mbc3RdRomx a) t = .next { t with output := .byte (Memory.read s.rom
        (1 % (s.romLen / 0x4000) * 0x4000 + (a.toNat - 0x4000))) }

/-- R211 and R213: a read of 0x4000-0x7FFF on MBC5 answers Rom[(b mod rom_bank_count) * 0x4000 + (A - 0x4000)] with b the
stored ROM bank register as it is, and changes nothing else; with b = 0 it is the byte a read of A - 0x4000 answers. -/
def Obligations.Mbc5RomxWindowHasNoAliasing : Prop :=
  (∀ (a : Addr) (s : State), Addr.within 0x4000 0x7FFF a = true →
    exec (.mbc5RdRomx a) s = .next { s with output := .byte (Memory.read s.rom
      (s.romBankNumber.toNat % (s.romLen / 0x4000) * 0x4000 + (a.toNat - 0x4000))) }) ∧
  ∀ (a : Addr) (s : State), Addr.within 0x4000 0x7FFF a = true → s.romBankNumber = 0 →
    exec (.mbc5RdRomx a) s = exec (.mbc5RdRom0 (a - 0x4000)) s

/-- R54 and R55: rom_phys(b, A) = (b mod rom_bank_count) * 0x4000 + A[13:0] is below rom_len on every constructed block, and
ram_off(b, A) = (b * 0x2000 + A[12:0]) mod ram_len is below ram_len when RAM exists; for A in 0xA000-0xBFFF the offset
A[12:0] is A - 0xA000. -/
def Obligations.TranslatedIndexesStayInTheirArrays : Prop :=
  (∀ (n b : Nat) (a : Addr), romPhys n b a = b % n * 0x4000 + a.toNat % 0x4000) ∧
  (∀ (s : State) (b : Nat) (a : Addr), s.Inv → romPhys s.romBankCount b a < s.romLen) ∧
  (∀ (n b : Nat) (a : Addr), ramOff n b a = (b * 0x2000 + a.toNat % 0x2000) % n) ∧
  (∀ (s : State) (b : Nat) (a : Addr), 0 < s.ramLen → ramOff s.ramLen b a < s.ramLen) ∧
  ∀ a : Addr, Addr.within 0xA000 0xBFFF a = true → a.toNat % 0x2000 = a.toNat - 0xA000

/-- R56 and R101: on a constructed block of a specified variant, a read word of 0x0000-0x7FFF answers Rom[i], with i in
range and given by the table of effective banks: A itself on RomOnly; else the effective bank of the window (ROM0: 0, or
32 times the secondary register on MBC1 in Advanced mode; ROMX: the ROM bank register, with 0 read as 1 but on MBC5)
modulo the bank count, times 0x4000, plus A[13:0]. -/
def Obligations.RomRegionReadReturnsAnImageByte : Prop :=
  ∀ (s : State) (T : Word) (rest : List Input), s.Inv → s.pending = .bus T :: rest → Word.isWrite T = false →
    s.kind ∈ [MapperKind.romOnly, .mbc1, .mbc2, .mbc3, .mbc5] → (Word.addr T).toNat ≤ 0x7FFF →
    let a := (Word.addr T).toNat
    let rb := s.romBankNumber.toNat
    let bank :=
      if a ≤ 0x3FFF then (if s.kind = .mbc1 ∧ s.bankingMode = .advanced then 32 * s.ramBankNumber.toNat else 0)
      else if s.kind ≠ .mbc5 ∧ rb = 0 then 1 else rb
    let i := if s.kind = .romOnly then a else bank % (s.romLen / 0x4000) * 0x4000 + a % 0x4000
    i < s.romLen ∧ step s = .next (s.after rest (.byte (Memory.read s.rom i)))

/-- R140: on an MBC1 block that meets the invariant, every ROMX read answers from a bank of 1 to 0x1F and every ROM0 read
from bank 0x00, 0x20, 0x40 or 0x60, each modulo the bank count; on an image of 128 banks no read answers from a place in
banks 0x21-0x3F, 0x41-0x5F or 0x61-0x7F. -/
def Obligations.Mbc1ReachesOnlyTheStatedBanks : Prop :=
  ∀ (s : State), s.Inv → s.kind = .mbc1 →
    (∀ a : Addr, Addr.within 0x4000 0x7FFF a = true → ∃ b, 1 ≤ b ∧ b ≤ 0x1F ∧
      romPhys s.romBankCount (mbc1RomxBank s) a = b % s.romBankCount * 0x4000 + (a.toNat - 0x4000) ∧
      exec (.mbc1RdRomx a) s = .next { s with output := .byte (Memory.read s.rom
        (b % s.romBankCount * 0x4000 + (a.toNat - 0x4000))) }) ∧
    (∀ a : Addr, a.toNat ≤ 0x3FFF → ∃ b ∈ [0x00, 0x20, 0x40, 0x60],
      romPhys s.romBankCount (mbc1Rom0Bank s) a = b % s.romBankCount * 0x4000 + a.toNat ∧
      exec (.mbc1RdRom0 a) s = .next { s with output := .byte (Memory.read s.rom
        (b % s.romBankCount * 0x4000 + a.toNat)) }) ∧
    (s.romBankCount = 128 → ∀ a : Addr,
      ∀ i ∈ [romPhys s.romBankCount (mbc1RomxBank s) a, romPhys s.romBankCount (mbc1Rom0Bank s) a],
        i / 0x4000 ≤ 0x20 ∨ i / 0x4000 = 0x40 ∨ i / 0x4000 = 0x60)

/-- R135, R155, R174 and R214: the RAM-enable write of MBC1, MBC2, MBC3 and MBC5 sets ram_enabled to whether the low nibble
of the data is 0x0A; every other register, the clock, and every RAM and ROM byte stay. -/
def Obligations.RamEnableWriteTestsTheLowNibble : Prop :=
  ∀ (a : Addr) (d : Byte) (s : State),
    let t : State := { s with ramEnabled := decide (d.toNat % 16 = 10), output := .nothing }
    exec (.mbc1WrRamg a d) s = .next t ∧ exec (.mbc2WrRamg a d) s = .next t ∧
    exec (.mbc3WrRamg a d) s = .next t ∧ exec (.mbc5WrRamg a d) s = .next t

/-- R136, R137 and R138: the BANK1 write stores D mod 32 in the ROM bank register, the BANK2 write stores D mod 4 in the
secondary register, and the MODE write selects Advanced when D is odd and Simple when it is even; each changes nothing
else. -/
def Obligations.Mbc1ControlWritesStoreTheirFields : Prop :=
  ∀ (a : Addr) (d : Byte) (s : State),
    exec (.mbc1WrBank1 a d) s = .next { s with romBankNumber := BitVec.ofNat 9 (d.toNat % 32), output := .nothing } ∧
    exec (.mbc1WrBank2 a d) s = .next { s with ramBankNumber := BitVec.ofNat 8 (d.toNat % 4), output := .nothing } ∧
    exec (.mbc1WrMode a d) s = .next
      { s with bankingMode := if d.toNat % 2 = 1 then .advanced else .simple, output := .nothing }

/-- R156, R175 and R176: the ROMB write of MBC2 stores D mod 16 in the ROM bank register; the ROMB write of MBC3 stores D
mod 128 in the ROM bank register; the SEL write stores D whole in the select register, and does not latch or change the
clock; each changes nothing else. -/
def Obligations.Mbc2AndMbc3BankWritesStoreTheirFields : Prop :=
  ∀ (a : Addr) (d : Byte) (s : State),
    exec (.mbc2WrRomb a d) s = .next { s with romBankNumber := BitVec.ofNat 9 (d.toNat % 16), output := .nothing } ∧
    exec (.mbc3WrRomb a d) s = .next { s with romBankNumber := BitVec.ofNat 9 (d.toNat % 128), output := .nothing } ∧
    exec (.mbc3WrSel a d) s = .next { s with ramBankNumber := BitVec.ofNat 8 d.toNat, output := .nothing }

/-- R215 and R216: with the ROM bank register read as a number, the ROMB0 write of MBC5 keeps the multiple of 256 and adds
D, and the ROMB1 write keeps the remainder by 256 and adds 256 when D is odd; each changes nothing else. -/
def Obligations.Mbc5RomBankHasTwoWriteRanges : Prop :=
  ∀ (a : Addr) (d : Byte) (s : State),
    exec (.mbc5WrRomb0 a d) s = .next { s with
      romBankNumber := BitVec.ofNat 9 (s.romBankNumber.toNat / 256 * 256 + d.toNat), output := .nothing } ∧
    exec (.mbc5WrRomb1 a d) s = .next { s with
      romBankNumber := BitVec.ofNat 9 (s.romBankNumber.toNat % 256 + 256 * (d.toNat % 2)), output := .nothing }

/-- R217: on a rumble cartridge the RAMB write of MBC5 stores D mod 8 in the RAM bank register and sets rumble_out to bit 3
of D; on other cartridges it stores D mod 16 and leaves rumble_out; it changes nothing else. -/
def Obligations.Mbc5RambWriteDrivesTheMotor : Prop :=
  ∀ (a : Addr) (d : Byte) (s : State),
    (s.hasRumble = true → exec (.mbc5WrRamb a d) s = .next { s with
      ramBankNumber := BitVec.ofNat 8 (d.toNat % 8), rumbleOut := decide (d.toNat / 8 % 2 = 1), output := .nothing }) ∧
    (s.hasRumble = false → exec (.mbc5WrRamb a d) s = .next { s with
      ramBankNumber := BitVec.ofNat 8 (d.toNat % 16), output := .nothing })

/-- R221: after a step that is no construction, rumble_out is bit 3 of the data if the step was an MBC5 write of
0x4000-0x5FFF on a rumble cartridge, and else what it was. -/
def Obligations.RumbleIsTheLastRambWritesBitThree : Prop :=
  ∀ (s t : State), constructsNext s = false → step s = .next t →
    (∀ (T : Word) (rest : List Input), s.pending = .bus T :: rest → s.kind = .mbc5 → s.hasRumble = true →
      writesWithin 0x4000 0x5FFF T = true → t.rumbleOut = decide ((Word.data T).toNat / 8 % 2 = 1)) ∧
    ((∀ (T : Word) (rest : List Input), s.pending = .bus T :: rest →
      ¬ (s.kind = .mbc5 ∧ s.hasRumble = true ∧ writesWithin 0x4000 0x5FFF T = true)) → t.rumbleOut = s.rumbleOut)

/-- R134 and R218: a RAM-region read on MBC1 or MBC5 answers 0xFF when RAM is disabled or absent, and else cell (bank *
0x2000 + (A - 0xA000)) mod ram_len, with bank the secondary register in Advanced mode and 0 in Simple mode on MBC1, and
the RAM bank register on MBC5; it changes nothing else. -/
def Obligations.BankedRamReadIsGatedAndTranslated : Prop :=
  ∀ (a : Addr) (s : State), Addr.within 0xA000 0xBFFF a = true →
    (s.kind = .mbc1 → exec (.mbc1RdRam a) s = .next { s with output := .byte (if s.ramEnabled = true ∧ 0 < s.ramLen then
        Memory.read s.ram (((if s.bankingMode = .advanced then s.ramBankNumber.toNat else 0) * 0x2000
          + (a.toNat - 0xA000)) % s.ramLen)
      else 0xFF) }) ∧
    (s.kind = .mbc5 → exec (.mbc5RdRam a) s = .next { s with output := .byte (if s.ramEnabled = true ∧ 0 < s.ramLen then
        Memory.read s.ram ((s.ramBankNumber.toNat * 0x2000 + (a.toNat - 0xA000)) % s.ramLen)
      else 0xFF) })

/-- R139 and R219: a RAM-region write on MBC1 or MBC5 is dropped when RAM is disabled or absent, and else stores D in cell
(bank * 0x2000 + (A - 0xA000)) mod ram_len, with the bank of the read rules; every other cell reads as before and
nothing else changes. -/
def Obligations.BankedRamWriteStoresOneCell : Prop :=
  ∀ (a : Addr) (d : Byte) (s : State), Addr.within 0xA000 0xBFFF a = true →
    (s.ramEnabled = false ∨ s.ramLen = 0 →
      (s.kind = .mbc1 → exec (.mbc1WrRam a d) s = .next { s with output := .nothing }) ∧
      (s.kind = .mbc5 → exec (.mbc5WrRam a d) s = .next { s with output := .nothing })) ∧
    (s.ramEnabled = true → 0 < s.ramLen → Memory.wf s.ram = true →
      (s.kind = .mbc1 →
        let i := ((if s.bankingMode = .advanced then s.ramBankNumber.toNat else 0) * 0x2000
          + (a.toNat - 0xA000)) % s.ramLen
        ∃ m : Memory, exec (.mbc1WrRam a d) s = .next { s with ram := m, output := .nothing } ∧
          Memory.read m i = d ∧ ∀ j, j ≠ i → Memory.read m j = Memory.read s.ram j) ∧
      (s.kind = .mbc5 →
        let i := (s.ramBankNumber.toNat * 0x2000 + (a.toNat - 0xA000)) % s.ramLen
        ∃ m : Memory, exec (.mbc5WrRam a d) s = .next { s with ram := m, output := .nothing } ∧
          Memory.read m i = d ∧ ∀ j, j ≠ i → Memory.read m j = Memory.read s.ram j))

/-- R154 and R158: an MBC2 RAM read answers 0xFF when disabled and else 0xF0 | cell (A mod 0x200), which is in 0xF0-0xFF
and, for a 4-bit cell, 0xF0 plus the cell; a write is dropped when disabled and else stores D mod 16 in that cell, every
other cell reading as before; nothing else changes, and the RAM length does not matter. -/
def Obligations.Mbc2RamHoldsNibbles : Prop :=
  ∀ (a : Addr) (d : Byte) (s : State),
    (s.ramEnabled = false → exec (.mbc2RdRam a) s = .next { s with output := .byte 0xFF } ∧
      exec (.mbc2WrRam a d) s = .next { s with output := .nothing }) ∧
    (s.ramEnabled = true → (Memory.read s.ram (a.toNat % 0x200)).toNat < 16 →
      ∃ b : Byte, exec (.mbc2RdRam a) s = .next { s with output := .byte b } ∧
        b.toNat = 0xF0 + (Memory.read s.ram (a.toNat % 0x200)).toNat) ∧
    (s.ramEnabled = true →
      ∃ b : Byte, exec (.mbc2RdRam a) s = .next { s with output := .byte b } ∧ 0xF0 ≤ b.toNat ∧
        b.toNat % 16 = (Memory.read s.ram (a.toNat % 0x200)).toNat % 16) ∧
    (s.ramEnabled = true → Memory.wf s.ram = true → ∃ m : Memory,
      exec (.mbc2WrRam a d) s = .next { s with ram := m, output := .nothing } ∧
      (Memory.read m (a.toNat % 0x200)).toNat = d.toNat % 16 ∧
      ∀ j, j ≠ a.toNat % 0x200 → Memory.read m j = Memory.read s.ram j)

/-- R178, R179 and R180: an MBC3 RAM-region read answers 0xFF when disabled; else, by the select register, a value up to 3
reads RAM cell (select * 0x2000 + (A - 0xA000)) mod ram_len, or 0xFF without RAM; 0x08 to 0x0C read the latched clock
register select - 8 whatever the address, on a block with a clock; every other value, and 0x08 to 0x0C without a clock,
read 0xFF. It changes nothing else. -/
def Obligations.Mbc3RamRegionReadFollowsTheSelect : Prop :=
  ∀ (a : Addr) (s : State), Addr.within 0xA000 0xBFFF a = true →
    (s.ramEnabled = false → exec (.mbc3RdRam a) s = .next { s with output := .byte 0xFF }) ∧
    (s.ramEnabled = true → s.ramBankNumber.toNat ≤ 3 → exec (.mbc3RdRam a) s = .next { s with output := .byte (if s.ramLen = 0 then 0xFF
      else Memory.read s.ram ((s.ramBankNumber.toNat * 0x2000 + (a.toNat - 0xA000)) % s.ramLen)) }) ∧
    (∀ (i : Fin 5) (r : Rtc), s.ramEnabled = true → s.ramBankNumber.toNat = 8 + i.val → s.rtc = some r →
      exec (.mbc3RdRam a) s = .next { s with output := .byte (r.latched.get i) }) ∧
    (s.ramEnabled = true → s.ramBankNumber.toNat = 4 ∨ s.ramBankNumber.toNat = 5 ∨ s.ramBankNumber.toNat = 6 ∨
        s.ramBankNumber.toNat = 7 ∨ 0x0D ≤ s.ramBankNumber.toNat ∨ (8 ≤ s.ramBankNumber.toNat ∧ s.rtc = none) →
      exec (.mbc3RdRam a) s = .next { s with output := .byte 0xFF })

/-- R181: an MBC3 RAM-region write is dropped when disabled; else, by the select register, a value up to 3 writes RAM cell
(select * 0x2000 + (A - 0xA000)) mod ram_len and no other, or nothing without RAM; 0x08 to 0x0C set the live clock
register select - 8 to all 8 bits of D and leave the other live registers, the latched registers and the armed flag;
every other value, and 0x08 to 0x0C without a clock, write nothing. -/
def Obligations.Mbc3RamRegionWriteFollowsTheSelect : Prop :=
  ∀ (a : Addr) (d : Byte) (s : State), Addr.within 0xA000 0xBFFF a = true →
    (s.ramEnabled = false → exec (.mbc3WrRam a d) s = .next { s with output := .nothing }) ∧
    (s.ramBankNumber.toNat ≤ 3 → s.ramLen = 0 → exec (.mbc3WrRam a d) s = .next { s with output := .nothing }) ∧
    (s.ramEnabled = true → s.ramBankNumber.toNat ≤ 3 → 0 < s.ramLen → Memory.wf s.ram = true →
      let i := (s.ramBankNumber.toNat * 0x2000 + (a.toNat - 0xA000)) % s.ramLen
      ∃ m : Memory, exec (.mbc3WrRam a d) s = .next { s with ram := m, output := .nothing } ∧
        Memory.read m i = d ∧ ∀ j, j ≠ i → Memory.read m j = Memory.read s.ram j) ∧
    (∀ (i : Fin 5) (r : Rtc), s.ramEnabled = true → s.ramBankNumber.toNat = 8 + i.val → s.rtc = some r →
      ∃ l : RtcRegs, exec (.mbc3WrRam a d) s = .next { s with rtc := some { r with live := l }, output := .nothing } ∧
        l.get i = d ∧ ∀ j, j ≠ i → l.get j = r.live.get j) ∧
    (s.ramBankNumber.toNat = 4 ∨ s.ramBankNumber.toNat = 5 ∨ s.ramBankNumber.toNat = 6 ∨
        s.ramBankNumber.toNat = 7 ∨ 0x0D ≤ s.ramBankNumber.toNat ∨ (8 ≤ s.ramBankNumber.toNat ∧ s.rtc = none) →
      exec (.mbc3WrRam a d) s = .next { s with output := .nothing })

/-- 95_test_vectors.md S6: on a block that meets the invariant with RAM enabled and present, a RAM-region write of D
followed by a disabling and an enabling RAM-enable write and a read of the same address answers D on MBC1, MBC5 and MBC3
(a RAM bank selected), and 0xF0 plus D mod 16 on MBC2; between, while disabled, the read answers 0xFF. -/
def Obligations.RamWriteReadsBack : Prop :=
  ∀ (a g : Addr) (d off on : Byte) (s : State), s.Inv → Addr.within 0xA000 0xBFFF a = true → s.ramEnabled = true →
    0 < s.ramLen → off.toNat % 16 ≠ 10 → on.toNat % 16 = 10 →
    (s.kind = .mbc1 → ∃ t u v, exec (.mbc1WrRam a d) s = .next t ∧ exec (.mbc1WrRamg g off) t = .next u ∧
      exec (.mbc1RdRam a) u = .next { u with output := .byte 0xFF } ∧ exec (.mbc1WrRamg g on) u = .next v ∧
      exec (.mbc1RdRam a) v = .next { v with output := .byte d }) ∧
    (s.kind = .mbc2 → ∃ t u v b, exec (.mbc2WrRam a d) s = .next t ∧ exec (.mbc2WrRamg g off) t = .next u ∧
      exec (.mbc2RdRam a) u = .next { u with output := .byte 0xFF } ∧ exec (.mbc2WrRamg g on) u = .next v ∧
      exec (.mbc2RdRam a) v = .next { v with output := .byte b } ∧ b.toNat = 0xF0 + d.toNat % 16) ∧
    (s.kind = .mbc3 → s.ramBankNumber.toNat ≤ 3 → ∃ t u v, exec (.mbc3WrRam a d) s = .next t ∧
      exec (.mbc3WrRamg g off) t = .next u ∧ exec (.mbc3RdRam a) u = .next { u with output := .byte 0xFF } ∧
      exec (.mbc3WrRamg g on) u = .next v ∧ exec (.mbc3RdRam a) v = .next { v with output := .byte d }) ∧
    (s.kind = .mbc5 → ∃ t u v, exec (.mbc5WrRam a d) s = .next t ∧ exec (.mbc5WrRamg g off) t = .next u ∧
      exec (.mbc5RdRam a) u = .next { u with output := .byte 0xFF } ∧ exec (.mbc5WrRamg g on) u = .next v ∧
      exec (.mbc5RdRam a) v = .next { v with output := .byte d })

/-- R177: a LATCH write does nothing on a block without a clock; with one, D = 0x00 sets the armed flag; D = 0x01 when armed
copies all five live registers to the latched ones and clears the flag; every other write clears the flag and copies
nothing; live registers stay. Steps that are no write of 0x6000-0x7FFF and no construction leave the armed flag as it
is. -/
def Obligations.LatchWriteFollowsTheProtocol : Prop :=
  (∀ (a : Addr) (d : Byte) (s : State),
    (s.rtc = none → exec (.mbc3WrLatch a d) s = .next { s with output := .nothing }) ∧
    (∀ r : Rtc, s.rtc = some r →
      exec (.mbc3WrLatch a d) s = .next { s with output := .nothing, rtc := some (if d.toNat = 0 then ⟨r.live, r.latched, true⟩
        else if d.toNat = 1 ∧ r.latchArmed = true then ⟨r.live, r.live, false⟩
        else ⟨r.live, r.latched, false⟩) })) ∧
  ∀ s t : State, constructsNext s = false → step s = .next t →
    (∀ (T : Word) (rest : List Input), s.pending = .bus T :: rest → writesWithin 0x6000 0x7FFF T = false) →
    t.rtc.map (fun r => r.latchArmed) = s.rtc.map (fun r => r.latchArmed)

/-- R187: along any number of steps, with any ticks, clock writes and other transactions, none of which is a construction or
a successful latch (a write of 0x01 to the LATCH range on an armed MBC3 clock), the latched registers stay; so at the
end a RAM-region read that selects clock register i answers the value latched at the start. -/
def Obligations.LatchedRegistersAreFrozenBetweenLatches : Prop :=
  ∀ (n : Nat) (s t : State) (r : Rtc), s.rtc = some r → Host.Core.run Sys2Proof.core n s = .next t →
    (∀ k < n, ∀ u : State, Host.Core.run Sys2Proof.core k s = .next u →
      latchesNext u = false ∧ constructsNext u = false) →
    (∃ q : Rtc, t.rtc = some q ∧ q.latched = r.latched) ∧
    ∀ (a : Addr) (i : Fin 5), t.ramEnabled = true → t.ramBankNumber.toNat = 8 + i.val →
      exec (.mbc3RdRam a) t = .next { t with output := .byte (r.latched.get i) }

/-- R244: for every advance function, a tick of n seconds replaces the live registers by the advanced ones and leaves the
latched registers and the armed flag; on a block without a clock it does nothing; no other part of the block changes
(the block is no longer fresh, R242). The step of a pending tick is that, with the default advance, on the state with the
input consumed and the session begun, before and after construction (the mark begun is the model's, log entry 5). -/
def Obligations.TickAdvancesTheLiveRegistersOnly : Prop :=
  (∀ (advance : Advance) (n : Nat) (s : State), 1 ≤ n →
    (∀ r : Rtc, s.rtc = some r → rtcTickWith advance n s = .next
      { s with fresh := false, output := .nothing, rtc := some ⟨advance r.live n, r.latched, r.latchArmed⟩ }) ∧
    (s.rtc = none → rtcTickWith advance n s = .next { s with fresh := false, output := .nothing })) ∧
  ∀ (n : Nat) (s : State) (rest : List Input), 1 ≤ n → s.pending = .rtcTick n :: rest →
    step s = rtcTickWith rtcAdvance n { s with pending := rest, begun := true }

/-- R186's default advance, read with R185: one step of a clock whose fields are in range adds one to the number of seconds
its fields show, modulo 512 days, keeps the fields in range, and its carry bit is set exactly when it was set or the day
counter overflowed. -/
def Obligations.RunningClockCountsSeconds : Prop :=
  ∀ r : RtcRegs, r.Running →
    (rtcStep r).Running ∧
    (rtcStep r).totalSeconds = (r.totalSeconds + 1) % (512 * 86400) ∧
    (128 ≤ (rtcStep r).dh.toNat ↔ 128 ≤ r.dh.toNat ∨ r.totalSeconds + 1 = 512 * 86400)

/-- R186 with the halt bit clear, for every content of the five registers, in range or not: a step looks at the used
bits only, 6 of seconds and minutes and 5 of hours, and keeps no other bit of a field. A field carries into the next
only when its used bits are 59 (seconds, minutes) or 23 (hours), and then it goes to 0; any other value, above the top
too, counts up by one modulo 64 or 32 without a carry. A field that receives no carry keeps its used bits, and so do the
9-bit day counter and the carry bit; a carry out of hours adds one to the day counter modulo 512 and sets the carry bit
when the counter was 511. Bits 5 to 1 of the fifth register become 0. -/
def Obligations.InvalidClockFieldsWrapWithoutCarry : Prop :=
  ∀ r : RtcRegs, r.dh.getLsbD 6 = false →
    let s := r.s.toNat % 64
    let m := r.m.toNat % 64
    let h := r.h.toNat % 32
    let day := r.dl.toNat + 256 * (r.dh.toNat % 2)
    let t := rtcStep r
    (s ≠ 59 → t.s.toNat = (s + 1) % 64 ∧ t.m.toNat = m ∧ t.h.toNat = h ∧ t.dl = r.dl ∧
      t.dh.toNat = r.dh.toNat / 128 * 128 + r.dh.toNat % 2) ∧
    (s = 59 → m ≠ 59 → t.s.toNat = 0 ∧ t.m.toNat = (m + 1) % 64 ∧ t.h.toNat = h ∧ t.dl = r.dl ∧
      t.dh.toNat = r.dh.toNat / 128 * 128 + r.dh.toNat % 2) ∧
    (s = 59 → m = 59 → h ≠ 23 → t.s.toNat = 0 ∧ t.m.toNat = 0 ∧ t.h.toNat = (h + 1) % 32 ∧ t.dl = r.dl ∧
      t.dh.toNat = r.dh.toNat / 128 * 128 + r.dh.toNat % 2) ∧
    (s = 59 → m = 59 → h = 23 → t.s.toNat = 0 ∧ t.m.toNat = 0 ∧ t.h.toNat = 0 ∧ t.dl.toNat = (day + 1) % 256 ∧
      t.dh.toNat = (if day = 511 then 128 else r.dh.toNat / 128 * 128) + (day + 1) % 512 / 256)

/-- R186's default advance: a clock whose halt bit is set is unchanged by any number of seconds; and the advance by m + n
seconds is the advance by m seconds followed by the advance by n, so no tick schedule changes the clock's end. -/
def Obligations.HaltedClockStandsStillAndAdvanceComposes : Prop :=
  (∀ (r : RtcRegs) (n : Nat), r.dh.getLsbD 6 = true → rtcAdvance r n = r) ∧
  ∀ (r : RtcRegs) (m n : Nat), rtcAdvance r (m + n) = rtcAdvance (rtcAdvance r m) n

/-- R240: the artifact of a block has ram_len bytes, plus 16 with a clock; byte j below ram_len is RAM cell j; with a clock
the next five are the live registers, the next three 0, and byte k of the last eight is byte k, the least significant
first, of the 64-bit reading; so an MBC2 cell of 4 bits has a zero high nibble. -/
def Obligations.ArtifactHasTheStatedLayout : Prop :=
  ∀ (s : State) (now : BitVec 64),
    (artifact s now).length = s.ramLen + (if s.rtc.isSome then 16 else 0) ∧
    (artifact s now).length = expectedLen s ∧
    (∀ j < s.ramLen, (artifact s now).getD j 0 = Memory.read s.ram j) ∧
    ∀ r : Rtc, s.rtc = some r →
      (∀ i : Fin 5, (artifact s now).getD (s.ramLen + i.val) 0 = r.live.get i) ∧
      (∀ k < 3, (artifact s now).getD (s.ramLen + 5 + k) 0 = 0) ∧
      ∀ k < 8, ((artifact s now).getD (s.ramLen + 8 + k) 0).toNat = now.toNat / 256 ^ k % 256

/-- R241: a pending persist gives back the artifact of the block and changes nothing of it, fresh or not, for every
specified variant; on MBC6, MBC7 and MMM01 it is refused like a bus transaction, with the mark refused set. In both
cases the input is consumed and the model's own mark says that the session has begun (log entries 2 and 5). -/
def Obligations.PersistSnapshotsWithoutChange : Prop :=
  ∀ (s : State) (now : BitVec 64) (rest : List Input), s.pending = .persist now :: rest →
    (s.kind ∉ [MapperKind.mbc6, .mbc7, .mmm01] →
      step s = .next { s with pending := rest, begun := true, output := .artifact (artifact s now) }) ∧
    (s.kind ∈ [MapperKind.mbc6, .mbc7, .mmm01] →
      step s = .refused (.unmodelledVariant s.kind { s with pending := rest, begun := true, refused := true }))

/-- R242: for every advance function, restore on a block that is not freshly constructed is refused; a buffer of another
length changes nothing; a buffer of the expected length puts its first ram_len bytes in the RAM cells, the low nibble on
MBC2, and the five bytes after them, advanced by now minus the little-endian reading in the buffer's last eight bytes
(by 0 when that is later), in the live registers; the latched registers, the armed flag and everything else stay. The
step of a pending restore is that, with the default advance, on the state with the input consumed and the session begun.
Two points are the model's choice, log entry 14: that an ignored restore, too, leaves the block no longer fresh, and that
restore takes effect on MBC6, MBC7 and MMM01 as well; so is the mark that the session has begun, log entry 5. -/
def Obligations.RestoreLoadsAMatchingSave : Prop :=
  (∀ (advance : Advance) (buf : List Byte) (now : BitVec 64) (s : State),
    (s.fresh = false → restoreWith advance buf now s = .refused .restoreNotFresh) ∧
    (s.fresh = true → buf.length ≠ expectedLen s →
      restoreWith advance buf now s = .next { s with fresh := false, output := .nothing }) ∧
    (s.fresh = true → buf.length = expectedLen s → ∃ (m : Memory) (c : Option Rtc),
      restoreWith advance buf now s = .next { s with fresh := false, output := .nothing, ram := m, rtc := c } ∧
      (∀ j < s.ramLen, (Memory.read m j).toNat =
        if s.kind = .mbc2 then (buf.getD j 0).toNat % 16 else (buf.getD j 0).toNat) ∧
      (∀ j, s.ramLen ≤ j → Memory.read m j = 0) ∧
      (s.rtc = none → c = none) ∧
      ∀ r : Rtc, s.rtc = some r →
        let saved : RtcRegs := ⟨buf.getD s.ramLen 0, buf.getD (s.ramLen + 1) 0, buf.getD (s.ramLen + 2) 0,
          buf.getD (s.ramLen + 3) 0, buf.getD (s.ramLen + 4) 0⟩
        let t := ((List.range 8).map fun k => (buf.getD (s.ramLen + 8 + k) 0).toNat * 256 ^ k).sum
        c = some ⟨advance saved (if t ≤ now.toNat then now.toNat - t else 0), r.latched, r.latchArmed⟩)) ∧
  ∀ (buf : List Byte) (now : BitVec 64) (s : State) (rest : List Input), s.pending = .restore buf now :: rest →
    step s = restoreWith rtcAdvance buf now { s with pending := rest, begun := true }

/-- R240, R242 and R243: for every advance function, persist of a block that meets the invariant at now0, then restore
of that artifact at now1 on a fresh block of the same cartridge (same kind, RAM length and clock), ends with the same
RAM data and with the saved live clock advanced by now1 - now0 seconds (0 when now1 is earlier), the fresh block's
latched registers and bank registers as they were. -/
def Obligations.PersistThenRestoreKeepsRamAndTime : Prop :=
  ∀ (advance : Advance) (s f : State) (now0 now1 : BitVec 64), s.Inv → f.fresh = true → f.kind = s.kind →
    f.ramLen = s.ramLen → f.hasRtc = s.hasRtc → s.kind ∉ [MapperKind.mbc6, .mbc7, .mmm01] →
    ∃ bytes : List Byte, hostPersist now0 s = .next { s with output := .artifact bytes } ∧
      ∃ c : Option Rtc,
        restoreWith advance bytes now1 f = .next { f with fresh := false, output := .nothing, ram := s.ram, rtc := c } ∧
        (f.rtc = none → c = none) ∧
        ∀ r q : Rtc, s.rtc = some r → f.rtc = some q →
          c = some ⟨advance r.live (now1.toNat - now0.toNat), q.latched, q.latchArmed⟩

/-- R246 and R247: sampling gives back rumble_out, checksum_ok and the header bytes of title, licensee and size codes
and changes nothing of the block; R231: driving the sensor sets the port of an MBC7 block and nothing else. The model's
choices are that one sample gives all the signals together (log entry 20), that driving the sensor does nothing on a
block of another kind (log entry 15), and the mark that the session has begun (log entry 5). -/
def Obligations.HostSeesSignalsAndDrivesTheSensor : Prop :=
  ∀ (s : State) (rest : List Input),
    (s.Inv → s.pending = .sampleOutputs :: rest → ∃ h : HostSignals,
      step s = .next { s with pending := rest, begun := true, output := .signals h } ∧
      h.rumbleOut = s.rumbleOut ∧ h.checksumOk = s.checksumOk ∧
      h.title.length = 16 ∧ (∀ k < 16, h.title.getD k 0 = Memory.read s.rom (0x134 + k)) ∧
      h.newLicensee = [Memory.read s.rom 0x144, Memory.read s.rom 0x145] ∧ h.oldLicensee = Memory.read s.rom 0x14B ∧
      h.romSizeCode = Memory.read s.rom 0x148 ∧ h.ramSizeCode = Memory.read s.rom 0x149) ∧
    ∀ sx sy : BitVec 16, s.pending = .sensor sx sy :: rest →
      (s.kind = .mbc7 → step s = .next { s with pending := rest, begun := true, output := .nothing, sensor := some (sx, sy) }) ∧
      (s.kind ≠ .mbc7 → step s = .next { s with pending := rest, begun := true, output := .nothing })

/-- R231 and R266: no rule reads the sensor port, and no bus rule reads checksum_ok. Two states that differ only in these
two fields step alike, for every input but constructing, sampling and the sensor's own: when one answers a next state,
the other answers that state with its own two fields. -/
def Obligations.UnreadInputsHaveNoInfluence : Prop :=
  ∀ (s t : State) (p : Option (BitVec 16 × BitVec 16)) (c : Bool),
    (∀ i ∈ s.pending.head?, i.isConstruct = false ∧ i ≠ .sampleOutputs ∧ ∀ sx sy, i ≠ .sensor sx sy) →
    step s = .next t → step { s with sensor := p, checksumOk := c } = .next { t with sensor := p, checksumOk := c }

/-- R29, R36, R280 and R284: whatever the cartridge-type table, when construction from an image ends in a next state,
rom_bank_number is 1, ram_bank_number 0, ram_enabled false, banking_mode Simple, every RAM cell 0, a clock that is
present has live and latched registers 0 and is not armed, rumble_out and refused are false; the ROM reads as the image,
rom_len is the image's length, the header codes are its bytes, and ram_len is 512 for MBC2 and else the standard size of
the RAM code. Two points are the model's: that under any table has_rtc is the presence of the clock, so that a type of
another kind than MBC3 has none (DEDUCED, log entry 22), and the marks, fresh and begun, of the block so built (log
entry 5). -/
def Obligations.ConstructionLeavesTheResetValues : Prop :=
  ∀ (table : Byte → CartType) (img : List Byte) (s t : State), constructWith table img s = .next t →
    t.romBankNumber = 1 ∧ t.ramBankNumber = 0 ∧ t.ramEnabled = false ∧ t.bankingMode = .simple ∧
    (∀ i, Memory.read t.ram i = 0) ∧ (∀ r : Rtc, t.rtc = some r → r = ⟨⟨0, 0, 0, 0, 0⟩, ⟨0, 0, 0, 0, 0⟩, false⟩) ∧
    t.rumbleOut = false ∧ t.refused = false ∧
    (∀ i, Memory.read t.rom i = img.getD i 0) ∧ t.romLen = img.length ∧
    t.romLen = 0x8000 * 2 ^ (img.getD 0x148 0).toNat ∧ t.romBankCount = 2 * 2 ^ (img.getD 0x148 0).toNat ∧
    t.cartridgeType = img.getD 0x147 0 ∧ t.romSizeCode = img.getD 0x148 0 ∧ t.ramSizeCode = img.getD 0x149 0 ∧
    t.kind = (table t.cartridgeType).kind ∧ t.hasRumble = (table t.cartridgeType).hasRumble ∧
    t.hasRtc = (decide (t.kind = .mbc3) && (table t.cartridgeType).hasRtc) ∧
    (t.kind = .mbc2 → t.ramLen = 512) ∧
    (t.kind ≠ .mbc2 → t.ramLen = [0, 0x800, 0x2000, 0x8000, 0x20000, 0x10000].getD (img.getD 0x149 0).toNat 0) ∧
    t.fresh = true ∧ t.begun = true ∧ t.pending = s.pending

/-- R261, R267 and R280: before the session has begun, for every type table and image, construction fails with TooShort
(and the length) when the image has less than 0x150 bytes; else with UnsupportedCartridgeType (and the type byte) when
the table gives no kind; else with InvalidSizeCode (and both codes) when the ROM code exceeds 8 or the RAM code exceeds
5; else with SizeMismatch (and both lengths) when the length is not 32 KiB << ROM code; else it ends in a next state
with that kind and the checksum result. A file that cannot be opened is NotFound. The codes are 1 to 5 in R261's order.
The step of a pending construction of any image is that, under the default table, on the state with the input consumed,
and the step of a pending failed open is the NotFound case. The mark that the session has begun, and the failed open as
an input, are the model's, log entries 5 and 21. -/
def Obligations.ConstructionChecksInOrder : Prop :=
  (∀ (table : Byte → CartType) (img : List Byte) (s : State), s.begun = false →
    let ct := table (img.getD 0x147 0)
    let rsc := img.getD 0x148 0
    let rmc := img.getD 0x149 0
    hostOpenFailed s = .fault .notFound ∧
    (img.length < 0x150 → constructWith table img s = .fault (.tooShort img.length)) ∧
    (0x150 ≤ img.length → ct.kind = .unsupported →
      constructWith table img s = .fault (.unsupportedCartridgeType (img.getD 0x147 0))) ∧
    (0x150 ≤ img.length → ct.kind ≠ .unsupported → 8 < rsc.toNat ∨ 5 < rmc.toNat →
      constructWith table img s = .fault (.invalidSizeCode rsc rmc)) ∧
    (0x150 ≤ img.length → ct.kind ≠ .unsupported → rsc.toNat ≤ 8 → rmc.toNat ≤ 5 →
      img.length ≠ 0x8000 * 2 ^ rsc.toNat →
      constructWith table img s = .fault (.sizeMismatch img.length (0x8000 * 2 ^ rsc.toNat))) ∧
    (ct.kind ≠ .unsupported → rsc.toNat ≤ 8 → rmc.toNat ≤ 5 → img.length = 0x8000 * 2 ^ rsc.toNat →
      ∃ t, constructWith table img s = .next t ∧ t.kind = ct.kind ∧
        t.checksumOk = headerChecksumOk (Memory.ofBytes img)) ∧
    [Fault.notFound.code, (Fault.tooShort img.length).code, (Fault.unsupportedCartridgeType rsc).code,
      (Fault.invalidSizeCode rsc rmc).code, (Fault.sizeMismatch img.length 0).code] = [1, 2, 3, 4, 5]) ∧
  ∀ (s : State) (rest : List Input),
    (∀ img, s.pending = .construct img :: rest → step s = constructWith cartTypeTable img { s with pending := rest }) ∧
    (s.pending = .openFailed :: rest → step s = hostOpenFailed { s with pending := rest })

/-- R283: over the bytes 0x134 to 0x14C of an image, starting from 0 and subtracting each byte and 1 modulo 256, the
check passes exactly when the result is the byte at 0x14D, that is when the sum of those bytes, plus 25, plus the byte
at 0x14D, is 0 modulo 256; and construction stores the result in checksum_ok only: it is that field of the block, and
when an image constructs a block, every image of its length with its type and size bytes constructs a block that differs
in the ROM image and checksum_ok alone, whichever way the check falls on either. -/
def Obligations.HeaderChecksumIsARunningDifference : Prop :=
  (∀ img : List Byte, headerChecksumOk (Memory.ofBytes img) = true ↔
    (((List.range 25).map fun k => (img.getD (0x134 + k) 0).toNat).sum + 25 + (img.getD 0x14D 0).toNat) % 256 = 0) ∧
  ∀ (table : Byte → CartType) (img : List Byte) (s t : State), constructWith table img s = .next t →
    t.checksumOk = headerChecksumOk (Memory.ofBytes img) ∧
    ∀ other : List Byte, other.length = img.length → (∀ a ∈ [0x147, 0x148, 0x149], other.getD a 0 = img.getD a 0) →
      constructWith table other s =
        .next { t with rom := Memory.ofBytes other, checksumOk := headerChecksumOk (Memory.ofBytes other) }

/-- The model's choice of image, log entry 1, is consistent with R280: the step that constructs a block from the blank
image of 0x8000 zero bytes, from the reset state, ends in the reset state with the mark that the session has begun (log
entry 5). -/
def Obligations.BlankImageConstructsTheResetState : Prop :=
  step { State.reset with pending := [.construct (List.replicate 0x8000 0)] } = .next { State.reset with begun := true }

/-- R285: once the host has constructed the block, or any other input has been taken, no step constructs: every step
that takes an input leaves the session begun, no step ends that, and while it lasts a construction and a failed open are
refused. R242: a bus transaction, tick or restore leaves the block not fresh, no later step makes it fresh, and then a
restore is refused. The model's choices are the two marks, begun and fresh, and the refusal of a construction that the
spec says never happens (log entry 5), and that a restore that is ignored and a tick of 0 seconds leave the block not
fresh too (log entry 14). -/
def Obligations.BlockInUseIsNeverConstructedAgain : Prop :=
  (∀ (s t : State) (i : Input) (rest : List Input), s.pending = i :: rest → step s = .next t →
    t.begun = true ∧ ((∃ T, i = .bus T) ∨ (∃ n, i = .rtcTick n) ∨ (∃ b now, i = .restore b now) → t.fresh = false)) ∧
  (∀ (n : Nat) (s t : State), s.begun = true → Host.Core.run Sys2Proof.core n s = .next t →
    t.begun = true ∧ (s.fresh = false → t.fresh = false)) ∧
  ∀ (s : State) (rest : List Input),
    (∀ img, s.begun = true → s.pending = .construct img :: rest → step s = .refused .alreadyConstructed) ∧
    (s.begun = true → s.pending = .openFailed :: rest → step s = .refused .alreadyConstructed) ∧
    ∀ b now, s.fresh = false → s.pending = .restore b now :: rest → step s = .refused .restoreNotFresh

/-- R230: the meaning of MBC6_ANY, MBC7_ANY and MMM01_ANY is, for every operand and state, the refusal
UnmodelledVariant(kind) with the state's mark refused set and nothing else changed; and every word of those modes
decodes to that row. -/
def Obligations.UnmodelledVariantsRefuse : Prop :=
  (∀ (w : Bool) (a : Addr) (d : Byte) (s : State),
    exec (.mbc6Any w a d) s = .refused (.unmodelledVariant s.kind { s with refused := true }) ∧
    exec (.mbc7Any w a d) s = .refused (.unmodelledVariant s.kind { s with refused := true }) ∧
    exec (.mmm01Any w a d) s = .refused (.unmodelledVariant s.kind { s with refused := true })) ∧
  ∀ T : Word, ∃ d : Byte, (Word.isWrite T = true → d = Word.data T) ∧
    decode .mbc6 T = .ok (.mbc6Any (Word.isWrite T) (Word.addr T) d) ∧
    decode .mbc7 T = .ok (.mbc7Any (Word.isWrite T) (Word.addr T) d) ∧
    decode .mmm01 T = .ok (.mmm01Any (Word.isWrite T) (Word.addr T) d)

/-- R78: in each mode that has it, the words of a pseudo-instruction's expansion, run one step each, end in a next
state: after ENRAM the RAM is enabled, after DISRAM disabled; after SELROM n the ROM bank register is n modulo 2^5, 2^4,
2^7 or 2^9 on MBC1, MBC2, MBC3 and MBC5; after SELRAM n the secondary, select or RAM bank register is n modulo 2^2 on
MBC1, 2^8 on MBC3, and 2^4 or, with a motor, 2^3 on MBC5; after MODE the banking mode is the one named; after LATCH the
latched clock registers are the live ones. -/
def Obligations.PseudoInstructionsDoWhatTheirNamesSay : Prop :=
  ∀ (p : Pseudo) (ts : List Transaction) (s : State) (rest : List Input),
    p.expand s.kind = some ts → s.pending = (ts.map fun t => Input.bus (enc t)) ++ rest →
    ∃ t, Host.Core.run Sys2Proof.core ts.length s = .next t ∧ t.pending = rest ∧
      (p = .enram → t.ramEnabled = true) ∧ (p = .disram → t.ramEnabled = false) ∧
      (∀ n, p = .selrom n → t.romBankNumber.toNat = n % romBankBound s.kind) ∧
      (∀ n, p = .selram n → t.ramBankNumber.toNat = n.toNat % ramBankBound s.kind s.hasRumble) ∧
      (∀ m, p = .mode m → t.bankingMode = m) ∧
      (p = .latch → t.rtc.map (fun r => r.latched) = s.rtc.map (fun r => r.live) ∧
        t.rtc.map (fun r => r.live) = s.rtc.map (fun r => r.live))
end

