-- ==== Sys2Proof/Laws/Operands.lean ====
section
/-! SUPPORT. The operand forms as arithmetic on numbers: offsets as remainders, masks as remainders, fields as quotients. -/

namespace Sys2Proof.Machine

theorem romOffset_eq (a : Addr) : romOffset a = a.toNat % 0x4000 := by simp [romOffset]

theorem ramOffset_eq (a : Addr) : ramOffset a = a.toNat % 0x2000 := by simp [ramOffset]

theorem mbc2Cell_eq (a : Addr) : mbc2Cell a = a.toNat % 0x200 := by simp [mbc2Cell]

theorem romOffset_lt (a : Addr) : romOffset a < 0x4000 := by rw [romOffset_eq]; omega

theorem ramOffset_lt (a : Addr) : ramOffset a < 0x2000 := by rw [ramOffset_eq]; omega

theorem mbc2Cell_lt (a : Addr) : mbc2Cell a < 512 := by rw [mbc2Cell_eq]; omega

/-- The reduction of R54 keeps every index inside the banks there are. -/
theorem romPhys_lt {n : Nat} (h : 0 < n) (b : Nat) (a : Addr) : romPhys n b a < n * 0x4000 := by
  have h1 : b % n < n := Nat.mod_lt b h
  have h2 := romOffset_lt a
  have h3 : (b % n + 1) * 0x4000 ≤ n * 0x4000 := Nat.mul_le_mul_right _ h1
  simp only [romPhys, Config.romBankSize]
  omega

/-- The reduction of R55 keeps every offset in the buffer. -/
theorem ramOff_lt {n : Nat} (h : 0 < n) (b : Nat) (a : Addr) : ramOff n b a < n := Nat.mod_lt _ h

theorem aliasZeroBank_eq (b : BitVec 9) : aliasZeroBank b = max 1 b.toNat := by
  unfold aliasZeroBank
  split
  · next h => subst h; rfl
  · next h =>
    have : b.toNat ≠ 0 := fun h0 => h (BitVec.eq_of_toNat_eq (by simpa using h0))
    omega

theorem mbc1Bank1Value_toNat (d : Byte) : (mbc1Bank1Value d).toNat = d.toNat % 32 := by
  revert d; decide

theorem mbc1Bank2Value_toNat (d : Byte) : (mbc1Bank2Value d).toNat = d.toNat % 4 := by
  revert d; decide

theorem mbc2RombValue_toNat (d : Byte) : (mbc2RombValue d).toNat = d.toNat % 16 := by
  revert d; decide

theorem mbc3RombValue_toNat (d : Byte) : (mbc3RombValue d).toNat = d.toNat % 128 := by
  revert d; decide

theorem mbc5RambValue_toNat (r : Bool) (d : Byte) :
    (mbc5RambValue r d).toNat = if r then d.toNat % 8 else d.toNat % 16 := by
  revert r d; decide

theorem enablesRam_iff (d : Byte) : enablesRam d = true ↔ d.toNat % 16 = 10 := by
  revert d; decide

theorem modeOfData_eq_advanced (d : Byte) : modeOfData d = .advanced ↔ d.toNat % 2 = 1 := by
  revert d; decide

theorem rumbleOfData_iff (d : Byte) : rumbleOfData d = true ↔ d.toNat / 8 % 2 = 1 := by
  revert d; decide

/-- A clock register read after a clock register write. -/
theorem RtcRegs.get_set (r : RtcRegs) (i j : Fin 5) (d : Byte) :
    (r.set i d).get j = if i = j then d else r.get j := by
  match i, j with
  | 0, 0 | 0, 1 | 0, 2 | 0, 3 | 0, 4 => rfl
  | 1, 0 | 1, 1 | 1, 2 | 1, 3 | 1, 4 => rfl
  | 2, 0 | 2, 1 | 2, 2 | 2, 3 | 2, 4 => rfl
  | 3, 0 | 3, 1 | 3, 2 | 3, 3 | 3, 4 => rfl
  | 4, 0 | 4, 1 | 4, 2 | 4, 3 | 4, 4 => rfl

end Sys2Proof.Machine
end

