-- ==== Sys2Proof/Laws/State.lean ====
section
/-! SUPPORT. The two views of State that are no fields of it (`hasRtc`, `romBankCount`), under each update a meaning makes. A field
itself is read through a record update by projection, so it needs no lemma. -/

namespace Sys2Proof.Machine

variable (s : State)

@[simp] theorem hasRtc_setOutput (o : Output) : State.hasRtc { s with output := o } = s.hasRtc := rfl
@[simp] theorem hasRtc_setRam (m : Memory) (o : Output) : State.hasRtc { s with ram := m, output := o } = s.hasRtc := rfl
@[simp] theorem hasRtc_setGate (b : Bool) (o : Output) :
    State.hasRtc { s with ramEnabled := b, output := o } = s.hasRtc := rfl
@[simp] theorem hasRtc_setRomBank (b : BitVec 9) (o : Output) :
    State.hasRtc { s with romBankNumber := b, output := o } = s.hasRtc := rfl
@[simp] theorem hasRtc_setRamBank (b : BitVec 8) (o : Output) :
    State.hasRtc { s with ramBankNumber := b, output := o } = s.hasRtc := rfl
@[simp] theorem hasRtc_setMode (m : BankingMode) (o : Output) :
    State.hasRtc { s with bankingMode := m, output := o } = s.hasRtc := rfl
@[simp] theorem hasRtc_setRamb (b : BitVec 8) (r : Bool) (o : Output) :
    State.hasRtc { s with ramBankNumber := b, rumbleOut := r, output := o } = s.hasRtc := rfl
@[simp] theorem hasRtc_setRtc (f : Rtc → Rtc) (o : Output) :
    State.hasRtc { s with rtc := s.rtc.map f, output := o } = s.hasRtc := by
  simp [State.hasRtc]
@[simp] theorem hasRtc_setPending (p : List Input) : State.hasRtc { s with pending := p } = s.hasRtc := rfl
@[simp] theorem hasRtc_begin : s.begin.hasRtc = s.hasRtc := rfl
@[simp] theorem hasRtc_setFresh (b : Bool) : State.hasRtc { s with fresh := b } = s.hasRtc := rfl
@[simp] theorem hasRtc_setSensor (p : Option (BitVec 16 × BitVec 16)) (o : Output) :
    State.hasRtc { s with sensor := p, output := o } = s.hasRtc := rfl
@[simp] theorem hasRtc_setRefused (b : Bool) : State.hasRtc { s with refused := b } = s.hasRtc := rfl

@[simp] theorem romBankCount_setOutput (o : Output) :
    State.romBankCount { s with output := o } = s.romBankCount := rfl
@[simp] theorem romBankCount_setPending (p : List Input) :
    State.romBankCount { s with pending := p } = s.romBankCount := rfl
@[simp] theorem romBankCount_begin : s.begin.romBankCount = s.romBankCount := rfl
@[simp] theorem romBankCount_setFresh (b : Bool) : State.romBankCount { s with fresh := b } = s.romBankCount := rfl
@[simp] theorem romBankCount_setRtc (r : Option Rtc) (o : Output) :
    State.romBankCount { s with rtc := r, output := o } = s.romBankCount := rfl
@[simp] theorem romBankCount_setRam (m : Memory) (o : Output) :
    State.romBankCount { s with ram := m, output := o } = s.romBankCount := rfl
@[simp] theorem romBankCount_setSensor (p : Option (BitVec 16 × BitVec 16)) (o : Output) :
    State.romBankCount { s with sensor := p, output := o } = s.romBankCount := rfl

/-! Beginning the session changes the one mark (R285). -/

@[simp] theorem begin_begun : s.begin.begun = true := rfl
@[simp] theorem begin_rom : s.begin.rom = s.rom := rfl
@[simp] theorem begin_romLen : s.begin.romLen = s.romLen := rfl
@[simp] theorem begin_cartridgeType : s.begin.cartridgeType = s.cartridgeType := rfl
@[simp] theorem begin_romSizeCode : s.begin.romSizeCode = s.romSizeCode := rfl
@[simp] theorem begin_ramSizeCode : s.begin.ramSizeCode = s.ramSizeCode := rfl
@[simp] theorem begin_kind : s.begin.kind = s.kind := rfl
@[simp] theorem begin_hasRumble : s.begin.hasRumble = s.hasRumble := rfl
@[simp] theorem begin_ramLen : s.begin.ramLen = s.ramLen := rfl
@[simp] theorem begin_checksumOk : s.begin.checksumOk = s.checksumOk := rfl
@[simp] theorem begin_romBankNumber : s.begin.romBankNumber = s.romBankNumber := rfl
@[simp] theorem begin_ramBankNumber : s.begin.ramBankNumber = s.ramBankNumber := rfl
@[simp] theorem begin_ramEnabled : s.begin.ramEnabled = s.ramEnabled := rfl
@[simp] theorem begin_bankingMode : s.begin.bankingMode = s.bankingMode := rfl
@[simp] theorem begin_ram : s.begin.ram = s.ram := rfl
@[simp] theorem begin_rtc : s.begin.rtc = s.rtc := rfl
@[simp] theorem begin_rumbleOut : s.begin.rumbleOut = s.rumbleOut := rfl
@[simp] theorem begin_sensor : s.begin.sensor = s.sensor := rfl
@[simp] theorem begin_refused : s.begin.refused = s.refused := rfl
@[simp] theorem begin_fresh : s.begin.fresh = s.fresh := rfl
@[simp] theorem begin_pending : s.begin.pending = s.pending := rfl
@[simp] theorem begin_output : s.begin.output = s.output := rfl
@[simp] theorem begin_begin : s.begin.begin = s.begin := rfl

/-- The block has a clock exactly when the field holds one. -/
theorem hasRtc_eq_true : s.hasRtc = true ↔ ∃ r, s.rtc = some r := Option.isSome_iff_exists

end Sys2Proof.Machine
end

