-- ==== Sys2Proof/Laws/Exec.lean ====
section
/-! SUPPORT. What a meaning can do: the shared operations and `exec`, each in one inversion lemma, and the frame every bus
transaction keeps. -/

namespace Sys2Proof.Machine

theorem answer_eq_next {b : Byte} {s t : State} : answer b s = .next t ↔ t = { s with output := .byte b } := by
  simp [answer, eq_comm]

theorem done_eq_next {s t : State} : done s = .next t ↔ t = { s with output := .nothing } := by
  simp [done, eq_comm]

theorem refuseVariant_ne_next {s t : State} : refuseVariant s ≠ .next t := by simp [refuseVariant]

/-- What a bus transaction can make of a state: a list of every kind of change, each leaving all else. -/
inductive Effect (s : State) : State → Prop where
  | byte (b : Byte) : Effect s { s with output := .byte b }
  | nothing : Effect s { s with output := .nothing }
  | ram (i : Nat) (b : Byte) : Effect s { s with ram := Memory.write s.ram i b, output := .nothing }
  | gate (b : Bool) : Effect s { s with ramEnabled := b, output := .nothing }
  | romBank (b : BitVec 9) : Effect s { s with romBankNumber := b, output := .nothing }
  | ramBank (b : BitVec 8) : Effect s { s with ramBankNumber := b, output := .nothing }
  | mode (m : BankingMode) : Effect s { s with bankingMode := m, output := .nothing }
  | ramb (b : BitVec 8) (r : Bool) : Effect s { s with ramBankNumber := b, rumbleOut := r, output := .nothing }
  | rtc (f : Rtc → Rtc) : Effect s { s with rtc := s.rtc.map f, output := .nothing }

theorem readRomBank_effect {b : Nat} {a : Addr} {s t : State} (h : readRomBank b a s = .next t) : Effect s t := by
  rw [readRomBank, answer_eq_next] at h
  exact h ▸ .byte _

theorem readRamBank_effect {b : Nat} {a : Addr} {s t : State} (h : readRamBank b a s = .next t) : Effect s t := by
  unfold readRamBank at h
  split at h <;> exact answer_eq_next.1 h ▸ .byte _

theorem writeRamBank_effect {b : Nat} {a : Addr} {d : Byte} {s t : State} (h : writeRamBank b a d s = .next t) :
    Effect s t := by
  unfold writeRamBank at h
  split at h
  · exact done_eq_next.1 h ▸ .ram _ _
  · exact done_eq_next.1 h ▸ .nothing

theorem writeRamGate_effect {d : Byte} {s t : State} (h : writeRamGate d s = .next t) : Effect s t :=
  done_eq_next.1 h ▸ .gate _

theorem readRtc_effect {i : Fin 5} {s t : State} (h : readRtc i s = .next t) : Effect s t := by
  unfold readRtc at h
  split at h <;> exact answer_eq_next.1 h ▸ .byte _

theorem writeRtc_effect {i : Fin 5} {d : Byte} {s t : State} (h : writeRtc i d s = .next t) : Effect s t := by
  unfold writeRtc at h
  split at h
  · next r hr =>
    rw [done_eq_next] at h
    have : some { r with live := r.live.set i d } = s.rtc.map fun r => { r with live := r.live.set i d } := by
      rw [hr]; rfl
    rw [h, this]
    exact .rtc _
  · exact done_eq_next.1 h ▸ .nothing

/-- What the meaning of any instruction can do when it answers a next state. -/
theorem exec_effect {i : Instr} {s t : State} (h : exec i s = .next t) : Effect s t := by
  cases i with
  | rdUnmappedLo a | rdUnmappedHi a | roRdRom a => exact answer_eq_next.1 h ▸ .byte _
  | wrUnmappedLo a d | wrUnmappedHi a d | roWrRom a d | mbc2WrNop a d | mbc5WrNop a d =>
    exact done_eq_next.1 h ▸ .nothing
  | roRdRam a =>
    simp only [exec, execRoRdRam] at h
    split at h <;> exact answer_eq_next.1 h ▸ .byte _
  | roWrRam a d =>
    simp only [exec, execRoWrRam] at h
    split at h
    · exact done_eq_next.1 h ▸ .ram _ _
    · exact done_eq_next.1 h ▸ .nothing
  | mbc1RdRom0 a | mbc1RdRomx a | mbc2RdRom0 a | mbc2RdRomx a | mbc3RdRom0 a | mbc3RdRomx a | mbc5RdRom0 a
  | mbc5RdRomx a => exact readRomBank_effect h
  | mbc1RdRam a | mbc5RdRam a => exact readRamBank_effect h
  | mbc1WrRam a d | mbc5WrRam a d => exact writeRamBank_effect h
  | mbc1WrRamg a d | mbc2WrRamg a d | mbc3WrRamg a d | mbc5WrRamg a d => exact writeRamGate_effect h
  | mbc1WrBank1 a d | mbc2WrRomb a d | mbc3WrRomb a d | mbc5WrRomb0 a d | mbc5WrRomb1 a d =>
    exact done_eq_next.1 h ▸ .romBank _
  | mbc1WrBank2 a d | mbc3WrSel a d => exact done_eq_next.1 h ▸ .ramBank _
  | mbc1WrMode a d => exact done_eq_next.1 h ▸ .mode _
  | mbc5WrRamb a d => exact done_eq_next.1 h ▸ .ramb _ _
  | mbc3WrLatch a d => exact done_eq_next.1 h ▸ .rtc _
  | mbc2RdRam a =>
    simp only [exec, execMbc2RdRam] at h
    split at h <;> exact answer_eq_next.1 h ▸ .byte _
  | mbc2WrRam a d =>
    simp only [exec, execMbc2WrRam] at h
    split at h
    · exact done_eq_next.1 h ▸ .ram _ _
    · exact done_eq_next.1 h ▸ .nothing
  | mbc3RdRam a =>
    simp only [exec, execMbc3RdRam] at h
    split at h
    · split at h
      · split at h <;> exact answer_eq_next.1 h ▸ .byte _
      · exact readRtc_effect h
      · exact answer_eq_next.1 h ▸ .byte _
    · exact answer_eq_next.1 h ▸ .byte _
  | mbc3WrRam a d =>
    simp only [exec, execMbc3WrRam] at h
    split at h
    · split at h
      · split at h
        · exact done_eq_next.1 h ▸ .ram _ _
        · exact done_eq_next.1 h ▸ .nothing
      · exact writeRtc_effect h
      · exact done_eq_next.1 h ▸ .nothing
    · exact done_eq_next.1 h ▸ .nothing
  | mbc6Any w a d | mbc7Any w a d | mmm01Any w a d => exact absurd h refuseVariant_ne_next

/-- What every effect leaves: the configuration, the inputs still to come, the marks of the session and the sensor port. -/
theorem Effect.frame {s t : State} (h : Effect s t) :
    s.SameConfig t ∧ t.pending = s.pending ∧ t.fresh = s.fresh ∧ t.begun = s.begun ∧ t.refused = s.refused ∧
      t.sensor = s.sensor := by
  cases h <;> exact ⟨⟨rfl, rfl, rfl, rfl, rfl, rfl, rfl, by simp, rfl, rfl, rfl⟩, rfl, rfl, rfl, rfl, rfl⟩

/-- The frame of every instruction. -/
theorem exec_frame {i : Instr} {s t : State} (h : exec i s = .next t) :
    s.SameConfig t ∧ t.pending = s.pending ∧ t.fresh = s.fresh ∧ t.begun = s.begun ∧ t.refused = s.refused ∧
      t.sensor = s.sensor :=
  (exec_effect h).frame

theorem SameConfig.refl (s : State) : s.SameConfig s := ⟨rfl, rfl, rfl, rfl, rfl, rfl, rfl, rfl, rfl, rfl, rfl⟩

theorem SameConfig.trans {s t u : State} (h : s.SameConfig t) (k : t.SameConfig u) : s.SameConfig u :=
  ⟨k.rom.trans h.rom, k.romLen.trans h.romLen, k.romBankCount.trans h.romBankCount,
    k.cartridgeType.trans h.cartridgeType, k.romSizeCode.trans h.romSizeCode, k.ramSizeCode.trans h.ramSizeCode,
    k.kind.trans h.kind, k.hasRtc.trans h.hasRtc, k.hasRumble.trans h.hasRumble, k.ramLen.trans h.ramLen,
    k.checksumOk.trans h.checksumOk⟩

/-- A bus transaction that ends in a next state is the meaning of the instruction its word decodes to. -/
theorem busTransaction_next {T : Word} {s t : State} (h : busTransaction T s = .next t) :
    ∃ i, decode s.kind T = .ok i ∧ exec i { s with fresh := false } = .next t := by
  unfold busTransaction at h
  split at h
  · next i hi => exact ⟨i, hi, h⟩
  · cases h

/-- A construction that ends in a next state: the session had not begun, the image passed every check, and the state is the
one it builds. -/
theorem constructWith_next {table : Byte → CartType} {img : List Byte} {s t : State}
    (h : constructWith table img s = .next t) :
    s.begun = false ∧ Config.headerMinLen ≤ img.length ∧
    (table (Memory.read (Memory.ofBytes img) 0x147)).kind ≠ .unsupported ∧
    (Memory.read (Memory.ofBytes img) 0x148).toNat ≤ 0x08 ∧ (Memory.read (Memory.ofBytes img) 0x149).toNat ≤ 0x05 ∧
    img.length = romSize (Memory.read (Memory.ofBytes img) 0x148) ∧
    t = builtState (table (Memory.read (Memory.ofBytes img) 0x147)) img.length (Memory.ofBytes img) s.pending := by
  unfold constructWith constructFrom at h
  split at h
  · cases h
  · next hf =>
    split at h
    · cases h
    · next h1 =>
      split at h
      · cases h
      · next h2 =>
        split at h
        · cases h
        · next h3 =>
          split at h
          · cases h
          · next h4 =>
            rw [not_or, Nat.not_lt, Nat.not_lt] at h3
            exact ⟨by simpa using hf, Nat.le_of_not_lt h1, h2, h3.1, h3.2, not_not.1 h4, (Host.Outcome.next.inj h).symm⟩

/-- A restore that ends in a next state: the block is fresh, and either the buffer's length is another and nothing is restored, or
RAM and live clock are. -/
theorem restoreWith_next {advance : Advance} {buf : List Byte} {now : BitVec 64} {s t : State}
    (h : restoreWith advance buf now s = .next t) :
    s.fresh = true ∧
    ((buf.length ≠ expectedLen s ∧ t = { s with fresh := false, output := .nothing }) ∨
      (buf.length = expectedLen s ∧ t = { s with
        fresh := false, output := .nothing
        ram := Memory.ofBytes ((buf.take s.ramLen).map (restoreCell s.kind))
        rtc := s.rtc.map (restoreRtc advance (buf.drop s.ramLen) now) })) := by
  unfold restoreWith at h
  split at h
  · cases h
  · next hf =>
    refine ⟨by simpa using hf, ?_⟩
    split at h
    · next hl => exact .inl ⟨hl, done_eq_next.1 h⟩
    · next hl => exact .inr ⟨not_not.1 hl, done_eq_next.1 h⟩

theorem rtcTickWith_next {advance : Advance} {n : Nat} {s t : State} (h : rtcTickWith advance n s = .next t) :
    t = { s with fresh := false, output := .nothing, rtc := s.rtc.map fun r => { r with live := advance r.live n } } :=
  done_eq_next.1 h

theorem hostPersist_next {now : BitVec 64} {s t : State} (h : hostPersist now s = .next t) :
    isRefusedKind s.kind = false ∧ t = { s with output := .artifact (artifact s now) } := by
  unfold hostPersist at h
  split at h
  · exact absurd h refuseVariant_ne_next
  · next hk => exact ⟨by simpa using hk, (Host.Outcome.next.inj h).symm⟩

theorem hostSensor_next {sx sy : BitVec 16} {s t : State} (h : hostSensor sx sy s = .next t) :
    (s.kind = .mbc7 ∧ t = { s with sensor := some (sx, sy), output := .nothing }) ∨
    (s.kind ≠ .mbc7 ∧ t = { s with output := .nothing }) := by
  unfold hostSensor at h
  split at h
  · next hk => exact .inl ⟨hk, done_eq_next.1 h⟩
  · next hk => exact .inr ⟨hk, done_eq_next.1 h⟩

end Sys2Proof.Machine
end

