-- ==== Sys2Proof/Laws/Memory.lean ====
section
/-! SUPPORT. The laws of the storage arrays: a read after a write, the canonical form and the bound kept by every operation, byte
sequences laid out and read back, and equality of two arrays that read alike. -/

namespace Sys2Proof.Machine.Memory

@[simp] theorem read_nil (i : Nat) : read [] i = 0 := rfl

theorem read_consCell (k : Nat) (v : Byte) (m : Memory) (i : Nat) :
    read ((k, v) :: m) i = if k = i then v else read m i := rfl

theorem wfFrom_consCell (lo k : Nat) (v : Byte) (m : Memory) :
    wfFrom lo ((k, v) :: m) = true ↔ lo ≤ k ∧ v ≠ 0 ∧ wfFrom (k + 1) m = true := by
  simp only [wfFrom, unlisted, Bool.and_eq_true, decide_eq_true_eq, and_assoc]
  exact ⟨fun h => ⟨h.1, of_decide_eq_true h.2.1, h.2.2⟩, fun h => ⟨h.1, decide_eq_true h.2.1, h.2.2⟩⟩

/-- A canonical memory may be read as starting lower. -/
theorem wfFrom_mono {lo lo' : Nat} (h : lo' ≤ lo) : ∀ {m : Memory}, wfFrom lo m = true → wfFrom lo' m = true
  | [], _ => rfl
  | (k, v) :: m, hw => by
    rw [wfFrom_consCell] at hw ⊢
    exact ⟨by omega, hw.2⟩

/-- Below its first index a canonical memory lists nothing. -/
theorem read_of_lt {i : Nat} : ∀ {lo : Nat} {m : Memory}, wfFrom lo m = true → i < lo → read m i = 0
  | _, [], _, _ => rfl
  | lo, (k, v) :: m, hw, h => by
    rw [wfFrom_consCell] at hw
    rw [read_consCell, if_neg (by omega), read_of_lt hw.2.2 (by omega)]

/-! ### `cons` -/

theorem read_cons {k : Nat} {v : Byte} {m : Memory} (hw : wfFrom (k + 1) m = true) (i : Nat) :
    read (cons k v m) i = if k = i then v else read m i := by
  unfold cons
  split
  · next hv =>
    split
    · next hk => rw [← hk, read_of_lt hw (by omega), hv]; rfl
    · rfl
  · rfl

theorem wfFrom_cons {lo k : Nat} {v : Byte} {m : Memory} (hk : lo ≤ k) (hw : wfFrom (k + 1) m = true) :
    wfFrom lo (cons k v m) = true := by
  unfold cons
  split
  · exact wfFrom_mono (by omega) hw
  · next hv => exact (wfFrom_consCell ..).2 ⟨hk, hv, hw⟩

theorem below_consCell {n k : Nat} {v : Byte} {m : Memory} :
    below n ((k, v) :: m) = true ↔ k < n ∧ below n m = true := by simp [below]

theorem below_cons {n k : Nat} {v : Byte} {m : Memory} (hk : k < n) (hb : below n m = true) :
    below n (cons k v m) = true := by
  unfold cons
  split
  · exact hb
  · exact below_consCell.2 ⟨hk, hb⟩

/-! ### `write` -/

theorem wfFrom_write {i : Nat} {b : Byte} : ∀ {lo : Nat} {m : Memory}, lo ≤ i → wfFrom lo m = true →
    wfFrom lo (write m i b) = true
  | _, [], hi, _ => wfFrom_cons hi rfl
  | lo, (k, v) :: m, hi, hw => by
    have h := (wfFrom_consCell ..).1 hw
    unfold write
    split
    · next hlt => exact wfFrom_cons hi ((wfFrom_consCell ..).2 ⟨hlt, h.2⟩)
    · split
      · next heq => exact wfFrom_cons hi (by rw [heq]; exact h.2.2)
      · exact (wfFrom_consCell ..).2 ⟨h.1, h.2.1, wfFrom_write (by omega) h.2.2⟩

/-- A write keeps the canonical form. -/
theorem wf_write {m : Memory} (i : Nat) (b : Byte) (hw : wf m = true) : wf (write m i b) = true :=
  wfFrom_write (Nat.zero_le i) hw

/-- A write inside the array keeps it inside. -/
theorem below_write {n i : Nat} {b : Byte} (hi : i < n) : ∀ {m : Memory}, below n m = true →
    below n (write m i b) = true
  | [], _ => below_cons hi rfl
  | (k, v) :: m, hb => by
    have h := below_consCell.1 hb
    unfold write
    split
    · exact below_cons hi hb
    · split
      · exact below_cons hi h.2
      · exact below_consCell.2 ⟨h.1, below_write hi h.2⟩

theorem read_write_from {i : Nat} {b : Byte} (j : Nat) : ∀ {lo : Nat} {m : Memory}, wfFrom lo m = true →
    read (write m i b) j = if i = j then b else read m j
  | _, [], _ => read_cons (m := []) rfl j
  | lo, (k, v) :: m, hw => by
    have h := (wfFrom_consCell ..).1 hw
    unfold write
    split
    · next hlt => rw [read_cons ((wfFrom_consCell ..).2 ⟨hlt, h.2⟩)]
    · split
      · next heq =>
        rw [read_cons (by rw [heq]; exact h.2.2), read_consCell]
        split
        · rfl
        · rw [if_neg (by omega)]
      · rw [read_consCell, read_write_from j h.2.2, read_consCell]
        split
        · rw [if_neg (by omega)]
        · rfl

/-- A read after a write: the value written at its place, what was there elsewhere. -/
theorem read_write {m : Memory} (hw : wf m = true) (i j : Nat) (b : Byte) :
    read (write m i b) j = if i = j then b else read m j := read_write_from j hw

/-- Beyond the bound an array lists nothing. -/
theorem read_of_below {n i : Nat} (hi : n ≤ i) : ∀ {m : Memory}, below n m = true → read m i = 0
  | [], _ => rfl
  | (k, v) :: m, hb => by
    have h := below_consCell.1 hb
    rw [read_consCell, if_neg (by omega), read_of_below hi h.2]

/-! ### Byte sequences -/

theorem wfFrom_ofBytesFrom : ∀ (bs : List Byte) (i : Nat), wfFrom i (ofBytesFrom i bs) = true
  | [], _ => rfl
  | _ :: bs, i => wfFrom_cons (Nat.le_refl i) (wfFrom_ofBytesFrom bs (i + 1))

/-- A byte sequence laid out is in canonical form. -/
theorem wf_ofBytes (bs : List Byte) : wf (ofBytes bs) = true := wfFrom_ofBytesFrom bs 0

theorem below_ofBytesFrom : ∀ (bs : List Byte) (i : Nat), below (i + bs.length) (ofBytesFrom i bs) = true
  | [], _ => rfl
  | b :: bs, i => by
    have h := below_ofBytesFrom bs (i + 1)
    rw [show i + 1 + bs.length = i + (b :: bs).length by simp; omega] at h
    exact below_cons (by simp) h

/-- A byte sequence laid out stays inside its length. -/
theorem below_ofBytes (bs : List Byte) : below bs.length (ofBytes bs) = true := by
  have h := below_ofBytesFrom bs 0
  rwa [Nat.zero_add] at h

theorem read_ofBytesFrom : ∀ (bs : List Byte) (i j : Nat), read (ofBytesFrom i bs) (i + j) = bs.getD j 0
  | [], _, _ => by simp [ofBytesFrom]
  | b :: bs, i, j => by
    rw [ofBytesFrom, read_cons (wfFrom_ofBytesFrom bs (i + 1))]
    cases j with
    | zero => simp
    | succ j =>
      rw [if_neg (by omega), show i + (j + 1) = i + 1 + j by omega, read_ofBytesFrom]
      simp

/-- Cell `j` of a byte sequence laid out is its byte `j`. -/
theorem read_ofBytes (bs : List Byte) (j : Nat) : read (ofBytes bs) j = bs.getD j 0 := by
  have h := read_ofBytesFrom bs 0 j
  rwa [Nat.zero_add] at h

theorem ofBytesFrom_replicate_zero : ∀ n i : Nat, ofBytesFrom i (List.replicate n 0) = []
  | 0, _ => rfl
  | n + 1, i => by rw [List.replicate_succ, ofBytesFrom, ofBytesFrom_replicate_zero n]; rfl

/-- Zero bytes list nothing. -/
theorem ofBytes_replicate_zero (n : Nat) : ofBytes (List.replicate n 0) = [] := ofBytesFrom_replicate_zero n 0

@[simp] theorem length_slice (m : Memory) : ∀ (i n : Nat), (slice m i n).length = n
  | _, 0 => rfl
  | i, n + 1 => by simp [slice, length_slice m (i + 1) n]

theorem getD_slice (m : Memory) : ∀ (n i j : Nat), j < n → (slice m i n).getD j 0 = read m (i + j)
  | 0, _, _, h => absurd h (Nat.not_lt_zero _)
  | n + 1, i, 0, _ => by simp [slice]
  | n + 1, i, j + 1, h => by
    have := getD_slice m n (i + 1) j (by omega)
    simp only [slice, List.getD_cons_succ, this]
    congr 1
    omega

/-! ### Equality -/

theorem ext_from : ∀ {lo : Nat} {m m' : Memory}, wfFrom lo m = true → wfFrom lo m' = true →
    (∀ i, read m i = read m' i) → m = m'
  | _, [], [], _, _, _ => rfl
  | _, [], (k, v) :: m', _, hw', h => by
    have hk := h k
    rw [read_nil, read_consCell, if_pos rfl] at hk
    exact absurd hk.symm ((wfFrom_consCell ..).1 hw').2.1
  | _, (k, v) :: m, [], hw, _, h => by
    have hk := h k
    rw [read_nil, read_consCell, if_pos rfl] at hk
    exact absurd hk ((wfFrom_consCell ..).1 hw).2.1
  | lo, (k, v) :: m, (k', v') :: m', hw, hw', h => by
    have a := (wfFrom_consCell ..).1 hw
    have b := (wfFrom_consCell ..).1 hw'
    have hkk : k = k' := by
      rcases Nat.lt_trichotomy k k' with hlt | heq | hlt
      · have hk := h k
        rw [read_consCell, if_pos rfl, read_consCell, if_neg (by omega), read_of_lt b.2.2 (by omega)] at hk
        exact absurd hk a.2.1
      · exact heq
      · have hk := h k'
        rw [read_consCell, if_neg (by omega), read_of_lt a.2.2 (by omega), read_consCell, if_pos rfl] at hk
        exact absurd hk.symm b.2.1
    subst hkk
    have hv : v = v' := by
      have hk := h k
      rwa [read_consCell, if_pos rfl, read_consCell, if_pos rfl] at hk
    subst hv
    rw [ext_from a.2.2 b.2.2 fun i => ?_]
    by_cases hi : k = i
    · rw [← hi, read_of_lt a.2.2 (by omega), read_of_lt b.2.2 (by omega)]
    · have hk := h i
      rwa [read_consCell, if_neg hi, read_consCell, if_neg hi] at hk

/-- Two canonical memories that read alike are the same data. -/
theorem ext {m m' : Memory} (hw : wf m = true) (hw' : wf m' = true) (h : ∀ i, read m i = read m' i) : m = m' :=
  ext_from hw hw' h

/-- The storage arrays at reset are in canonical form. -/
theorem wf_reset : wf State.reset.rom = true ∧ wf State.reset.ram = true := ⟨rfl, rfl⟩

end Sys2Proof.Machine.Memory
end

