-- ==== Sys2Proof/Laws/Construct.lean ====
section
/-! SUPPORT. The block construction builds: the invariant it has, and the images that construct. -/

namespace Sys2Proof.Machine

/-- MBC3 is the only kind whose table entries have a clock, and MBC5 the only one whose entries have a motor (R282). -/
theorem cartTypeTable_shape : ∀ t : Byte,
    (cartTypeTable t).hasRtc = decide ((cartTypeTable t).kind = .mbc3 ∧ (cartTypeTable t).hasRtc = true) ∧
    ((cartTypeTable t).hasRumble = true → (cartTypeTable t).kind = .mbc5) := by decide

theorem romSize_eq (c : Byte) : romSize c = 0x8000 * 2 ^ c.toNat := Nat.shiftLeft_eq ..

/-- Every bound of the bank registers admits the reset values (R24, R25, R36). -/
theorem resetBanks_inBounds (k : MapperKind) (r : Bool) : 1 < romBankBound k ∧ 0 < ramBankBound k r := by
  cases k <;> cases r <;> decide

/-- What construction builds from an image that passed its checks (R280, R285) meets the invariant. -/
theorem builtState_inv {len : Nat} {rom : Memory} {pending : List Input}
    (hk : (cartTypeTable (Memory.read rom 0x147)).kind ≠ .unsupported)
    (hc : (Memory.read rom 0x148).toNat ≤ 0x08) (hr : (Memory.read rom 0x149).toNat ≤ 0x05)
    (hl : len = romSize (Memory.read rom 0x148)) (hw : Memory.wf rom = true) (hb : Memory.below len rom = true) :
    (builtState (cartTypeTable (Memory.read rom 0x147)) len rom pending).Inv := by
  have hshape := cartTypeTable_shape (Memory.read rom 0x147)
  have hclock : State.hasRtc (builtState (cartTypeTable (Memory.read rom 0x147)) len rom pending) =
      (cartTypeTable (Memory.read rom 0x147)).hasRtc := by
    rw [hshape.1]
    simp only [State.hasRtc, builtState]
    split <;> simp_all
  have hbanks := resetBanks_inBounds (cartTypeTable (Memory.read rom 0x147)).kind
    (cartTypeTable (Memory.read rom 0x147)).hasRumble
  rw [romSize_eq] at hl
  refine ⟨⟨hk, ?_, rfl, rfl, rfl, hc, hr, ?_, rfl, ?_⟩, ⟨hw, hb, rfl, rfl, ?_⟩,
    ⟨hbanks.1, fun _ => rfl, hbanks.2, ?_, ?_, ?_, ?_, ?_, fun _ => rfl⟩⟩
  · rw [hclock]; rfl
  · simpa only [builtState] using hl
  · simp only [builtState]
  · intro _ i; exact Nat.succ_pos _
  · intro h; cases h
  · intro h; cases h
  · intro h
    rw [hclock, hshape.1] at h
    exact (of_decide_eq_true h).1
  · intro h; cases h
  · intro h; cases h

/-- Before the session has begun, an image whose header passes the checks constructs a block (R267, R280). -/
theorem constructWith_of_checks {table : Byte → CartType} {img : List Byte} {s : State} (hf : s.begun = false)
    (h0 : Config.headerMinLen ≤ img.length) (hk : (table (Memory.read (Memory.ofBytes img) 0x147)).kind ≠ .unsupported)
    (hc : (Memory.read (Memory.ofBytes img) 0x148).toNat ≤ 0x08)
    (hr : (Memory.read (Memory.ofBytes img) 0x149).toNat ≤ 0x05)
    (hl : img.length = romSize (Memory.read (Memory.ofBytes img) 0x148)) :
    constructWith table img s =
      .next (builtState (table (Memory.read (Memory.ofBytes img) 0x147)) img.length (Memory.ofBytes img) s.pending) := by
  unfold constructWith constructFrom
  rw [if_neg (by simp [hf]), if_neg (by omega), if_neg hk, if_neg (by omega), if_neg (not_not.2 hl)]

end Sys2Proof.Machine
end

