-- ==== Sys2Proof/Laws/Encoding.lean ====
section
/-! SUPPORT. The fields of an encoded transaction, and the decode map through the five top bits of a word: every mask of the map
lies in them, so a row fits a word exactly when it fits the word's top bits. -/

namespace Sys2Proof

/-- Is the transaction a write? -/
def Transaction.isWrite : Transaction → Bool
  | .read _    => false
  | .write _ _ => true

/-- The address of a transaction. -/
def Transaction.addr : Transaction → Addr
  | .read a    => a
  | .write a _ => a

/-- The data of a transaction; a read has none and shows `0` (R70). -/
def Transaction.data : Transaction → Byte
  | .read _    => 0
  | .write _ d => d

@[simp] theorem isWrite_enc (t : Transaction) : Word.isWrite (enc t) = t.isWrite := by
  cases t <;> simp [enc, Word.isWrite, Transaction.isWrite]

@[simp] theorem addr_enc (t : Transaction) : Word.addr (enc t) = t.addr := by
  cases t with
  | read a =>
    apply BitVec.eq_of_getLsbD_eq
    intro i hi
    simp only [enc, Word.addr, Transaction.addr, BitVec.getLsbD_extractLsb', BitVec.getLsbD_shiftLeft,
      BitVec.getLsbD_setWidth]
    simp [hi, show 8 + i < 25 by omega, show i < 25 by omega]
  | write a d =>
    apply BitVec.eq_of_getLsbD_eq
    intro i hi
    simp only [enc, Word.addr, Transaction.addr, BitVec.getLsbD_extractLsb', BitVec.getLsbD_shiftLeft,
      BitVec.getLsbD_setWidth, BitVec.getLsbD_or, BitVec.getLsbD_one]
    simp [hi, show 8 + i < 25 by omega, show i < 25 by omega, show 8 + i < 24 by omega]

@[simp] theorem data_enc (t : Transaction) : Word.data (enc t) = t.data := by
  cases t with
  | read a =>
    apply BitVec.eq_of_getLsbD_eq
    intro i hi
    simp only [enc, Word.data, Transaction.data, BitVec.getLsbD_extractLsb', BitVec.getLsbD_shiftLeft,
      BitVec.getLsbD_setWidth]
    simp [hi]
  | write a d =>
    apply BitVec.eq_of_getLsbD_eq
    intro i hi
    simp only [enc, Word.data, Transaction.data, BitVec.getLsbD_extractLsb', BitVec.getLsbD_shiftLeft,
      BitVec.getLsbD_setWidth, BitVec.getLsbD_or, BitVec.getLsbD_one]
    simp [hi, show i < 25 by omega, show i < 24 by omega]

/-- A word is its three fields (R70). -/
theorem word_eq_fields (T : Word) :
    T = BitVec.ofNat 25 ((if Word.isWrite T then 2 ^ 24 else 0) + (Word.addr T).toNat * 2 ^ 8 + (Word.data T).toNat) := by
  apply BitVec.eq_of_toNat_eq
  have hT := T.isLt
  have hw : Word.isWrite T = decide (2 ^ 24 ≤ T.toNat) := by
    rw [Word.isWrite, BitVec.getLsbD, Nat.testBit_eq_decide_div_mod_eq]
    apply decide_eq_decide.2
    omega
  have ha : (Word.addr T).toNat = T.toNat / 2 ^ 8 % 2 ^ 16 := by
    simp [Word.addr, BitVec.extractLsb'_toNat, Nat.shiftRight_eq_div_pow]
  have hd : (Word.data T).toNat = T.toNat % 2 ^ 8 := by
    simp [Word.data, BitVec.extractLsb'_toNat]
  rw [hw, ha, hd, BitVec.toNat_ofNat]
  by_cases h : 2 ^ 24 ≤ T.toNat
  · rw [if_pos (by simpa using h)]; omega
  · rw [if_neg (by simpa using h)]; omega

/-- The five top bits of a word: `W` and `A[15:12]`. -/
def Word.top (T : Word) : BitVec 5 := T.extractLsb' 20 5

/-- The word with these top bits and no other bit. -/
def Word.ofTop (h : BitVec 5) : Word := h ++ (0 : BitVec 20)

theorem and_mask_eq_ofTop (T m : Word) (hm : m &&& 0x1F00000 = m) : T &&& m = Word.ofTop (Word.top T) &&& m := by
  apply BitVec.eq_of_getLsbD_eq
  intro i hi
  have hmi : m.getLsbD i = (m.getLsbD i && (0x1F00000 : Word).getLsbD i) := by rw [← BitVec.getLsbD_and, hm]
  by_cases h20 : 20 ≤ i
  · have : (Word.ofTop (Word.top T)).getLsbD i = T.getLsbD i := by
      simp only [Word.ofTop, Word.top, BitVec.getLsbD_append, BitVec.getLsbD_extractLsb']
      rw [if_neg (by omega), show 20 + (i - 20) = i by omega]
      simp [show i - 20 < 5 by omega]
    rw [BitVec.getLsbD_and, BitVec.getLsbD_and, this]
  · have hz : (0x1F00000 : Word).getLsbD i = false := by
      have : ∀ j : Fin 20, (0x1F00000 : Word).getLsbD j.1 = false := by decide
      exact this ⟨i, by omega⟩
    rw [BitVec.getLsbD_and, BitVec.getLsbD_and, hmi, hz]
    simp

/-- Every mask of the decode map lies in the five top bits. -/
theorem mask_in_top : ∀ r ∈ opcodeTable, r.mask &&& 0x1F00000 = r.mask := by
  have h : opcodeTable.all (fun r => decide (r.mask &&& 0x1F00000 = r.mask)) = true := by decide
  simpa using h

/-- A row fits a word exactly when it fits the word's top bits. -/
theorem fits_ofTop {r : Row} (hr : r ∈ opcodeTable) (m : MapperKind) (T : Word) :
    Row.fits m T r = Row.fits m (Word.ofTop (Word.top T)) r := by
  unfold Row.fits
  rw [and_mask_eq_ofTop T r.mask (mask_in_top r hr)]

theorem find?_congr_mem {α : Type} {p q : α → Bool} : ∀ {l : List α}, (∀ a ∈ l, p a = q a) → l.find? p = l.find? q
  | [], _ => rfl
  | a :: l, h => by
    rw [List.find?_cons, List.find?_cons, h a (by simp), find?_congr_mem fun b hb => h b (by simp [hb])]

/-- The row the decode procedure finds depends on the mode and the top bits only. -/
theorem find?_ofTop (m : MapperKind) (T : Word) :
    opcodeTable.find? (Row.fits m T) = opcodeTable.find? (Row.fits m (Word.ofTop (Word.top T))) :=
  find?_congr_mem fun _ hr => fits_ofTop hr m T

/-- The top bits of an encoded transaction. -/
theorem top_enc (t : Transaction) : Word.top (enc t) = BitVec.ofBool t.isWrite ++ t.addr.extractLsb' 12 4 := by
  apply BitVec.eq_of_getLsbD_eq
  intro i hi
  have hw : (enc t).getLsbD 24 = t.isWrite := isWrite_enc t
  have ha : ∀ j, j < 16 → (enc t).getLsbD (8 + j) = t.addr.getLsbD j := by
    intro j hj
    rw [← addr_enc t]
    simp [Word.addr, hj]
  simp only [Word.top, BitVec.getLsbD_extractLsb', BitVec.getLsbD_append, BitVec.getLsbD_ofBool]
  by_cases h4 : i < 4
  · rw [if_pos h4, show 20 + i = 8 + (12 + i) by omega, ha _ (by omega)]
    simp [hi, h4]
  · have : i = 4 := by omega
    subst this
    rw [if_neg h4, hw]
    rfl

end Sys2Proof
end

