-- ==== Sys2Proof/Laws/Decode.lean ====
section
/-! SUPPORT. Decoding through the five top bits of a word: the row found is a finite table of mode and top bits, so a fact about
every word is a check of 32 cases. -/

namespace Sys2Proof

/-- Decoding with the row found at the word's top bits. -/
theorem decode_of_find {m : MapperKind} {T : Word} {r : Row}
    (h : opcodeTable.find? (Row.fits m (Word.ofTop (Word.top T))) = some r) :
    decode m T = .ok (r.build (Word.isWrite T) (Word.addr T) (Word.data T)) := by
  rw [decode, find?_ofTop, h]

/-- The row a decoded instruction comes from. -/
theorem find_of_decode {m : MapperKind} {T : Word} {i : Instr} (h : decode m T = .ok i) :
    ∃ r, opcodeTable.find? (Row.fits m (Word.ofTop (Word.top T))) = some r ∧
      i = r.build (Word.isWrite T) (Word.addr T) (Word.data T) := by
  rw [decode, find?_ofTop] at h
  split at h
  · next r hr => exact ⟨r, hr, (Except.ok.inj h).symm⟩
  · cases h

/-- A word decodes to nothing only in mode `unsupported`. -/
theorem decode_error {m : MapperKind} {T : Word} {e : Reject} (h : decode m T = .error e) : e = .noRow m := by
  rw [decode] at h
  split at h
  · cases h
  · exact (Except.error.inj h).symm

/-- The top bits of a word are its direction and the top nibble of its address. -/
theorem top_eq (T : Word) : Word.top T = BitVec.ofBool (Word.isWrite T) ++ (Word.addr T).extractLsb' 12 4 := by
  apply BitVec.eq_of_getLsbD_eq
  intro i hi
  simp only [Word.top, Word.isWrite, Word.addr, BitVec.getLsbD_extractLsb', BitVec.getLsbD_append, BitVec.getLsbD_ofBool]
  by_cases h4 : i < 4
  · simp [h4, hi, show 12 + i < 16 by omega, show 8 + (12 + i) = 20 + i by omega]
  · have : i = 4 := by omega
    subst this
    simp

/-- The direction of a word is its top bit. -/
theorem isWrite_eq_top (T : Word) : Word.isWrite T = (Word.top T).getLsbD 4 := by
  simp [Word.top, Word.isWrite]

/-- The top nibble of a word's address is the rest of its top bits. -/
theorem addr_div_eq_top (T : Word) : (Word.addr T).toNat / 0x1000 = (Word.top T).toNat % 16 := by
  have hT := T.isLt
  simp only [Word.addr, Word.top, BitVec.extractLsb'_toNat, Nat.shiftRight_eq_div_pow]
  omega

/-- A property of words that depends on the mode's row and the top bits holds of every word once it holds of the 32 top bits. -/
theorem forall_top {p : BitVec 5 → Prop} (h : ∀ n : Fin 32, p (BitVec.ofFin n)) (T : Word) : p (Word.top T) := h _

end Sys2Proof
end

