-- ==== Sys2Proof/Laws/HostOps.lean ====
section
/-! SUPPORT. Byte sequences and the numbers they spell, for the save artifact (46_host_interface.md R240, R242). -/

namespace Sys2Proof.Machine

/-- The little-endian value, byte by byte. -/
theorem leValue_eq_sum : ∀ bs : List Byte, leValue bs = ((List.range bs.length).map fun k => (bs.getD k 0).toNat * 256 ^ k).sum
  | [] => rfl
  | b :: bs => by
    rw [leValue, leValue_eq_sum bs, List.length_cons, List.range_succ_eq_map, List.map_cons, List.sum_cons, List.map_map]
    congr 1
    · simp
    · rw [← List.sum_map_mul_left]
      congr 1
      apply List.map_congr_left
      intro k _
      simp only [Function.comp, List.getD_cons_succ, pow_succ]
      generalize (256 ^ k : Nat) = p
      rw [Nat.mul_comm p 256, ← Nat.mul_assoc, ← Nat.mul_assoc, Nat.mul_comm 256]

@[simp] theorem length_le64 (t : BitVec 64) : (le64 t).length = 8 := rfl

@[simp] theorem length_rtcSnapshot (r : RtcRegs) : (rtcSnapshot r).length = 8 := rfl

@[simp] theorem regsOfSnapshot_append (r : RtcRegs) (bs : List Byte) : regsOfSnapshot (rtcSnapshot r ++ bs) = r := rfl

/-- The 64-bit reading comes back. -/
theorem leValue_le64 (t : BitVec 64) : leValue (le64 t) = t.toNat := by
  simp only [le64, leValue, BitVec.extractLsb'_toNat, Nat.shiftRight_eq_div_pow]
  have := t.isLt
  generalize t.toNat = n at *
  omega

end Sys2Proof.Machine
end

