-- ==== Sys2Proof/Laws/PerInstr.lean ====
section
/-! SUPPORT. One law per instruction, over its syntax: the word of a well-formed instruction fits the instruction's row of the
decode map (30_encoding.md R74, R75), and no row of another mnemonic in any mode of the instruction. -/

namespace Sys2Proof.Laws.EncodesInRow

/-- In each of its modes, the rows that fit the encoded word of a well-formed instruction are exactly one: the row of its own
mnemonic. -/
def Statement (i : Instr) : Prop :=
  WellFormed i → ∀ m ∈ i.modes,
    (opcodeTable.filter (Row.fits m (encode i))).map Row.mnemonic = [i.mnemonic]

/-- The rows that fit an encoded transaction, by its direction and the top nibble of its address. -/
theorem filter_enc (m : MapperKind) (t : Transaction) :
    opcodeTable.filter (Row.fits m (enc t)) =
      opcodeTable.filter (Row.fits m (Word.ofTop (BitVec.ofBool t.isWrite ++ t.addr.extractLsb' 12 4))) := by
  rw [← top_enc]
  exact List.filter_congr fun _ hr => fits_ofTop hr m (enc t)

/-- The top nibble of an address as a number. -/
theorem nibble_toNat (a : Addr) : (a.extractLsb' 12 4).toNat = a.toNat / 0x1000 := by
  have := a.isLt
  simp [BitVec.extractLsb'_toNat, Nat.shiftRight_eq_div_pow]
  omega

/-- From the check of a range of whole top nibbles to the nibble. -/
theorem nibble_within {lo hi : Nat} {a : Addr} (h : Addr.within lo hi a = true) :
    lo / 0x1000 ≤ (a.extractLsb' 12 4).toNat ∧ (a.extractLsb' 12 4).toNat ≤ hi / 0x1000 := by
  simp only [Addr.within, Bool.and_eq_true, decide_eq_true_eq] at h
  rw [nibble_toNat]
  omega

/-- A row whose transaction's direction is `w` and whose address stands in the range: what is left to check is a finite table. -/
theorem of_nibble {m : MapperKind} {t : Transaction} {lo hi : Nat} {w : Bool} {name : String} (hw : t.isWrite = w)
    (h : Addr.within lo hi t.addr = true)
    (htab : ∀ n : BitVec 4, lo / 0x1000 ≤ n.toNat → n.toNat ≤ hi / 0x1000 →
      (opcodeTable.filter (Row.fits m (Word.ofTop (BitVec.ofBool w ++ n)))).map Row.mnemonic = [name]) :
    (opcodeTable.filter (Row.fits m (enc t))).map Row.mnemonic = [name] := by
  rw [filter_enc, hw]
  exact htab _ (nibble_within h).1 (nibble_within h).2

/-- A row that takes every word of its mode. -/
theorem of_any {m : MapperKind} {t : Transaction} {name : String}
    (htab : ∀ h : BitVec 5, (opcodeTable.filter (Row.fits m (Word.ofTop h))).map Row.mnemonic = [name]) :
    (opcodeTable.filter (Row.fits m (enc t))).map Row.mnemonic = [name] := by
  rw [filter_enc]
  exact htab _

theorem rdUnmappedLo (a : Addr) : Statement (.rdUnmappedLo a) := by
  intro h m hm
  simp only [Instr.modes, List.mem_cons, List.not_mem_nil, or_false] at hm
  rcases hm with rfl | rfl | rfl | rfl | rfl <;> exact of_nibble (w := false) (name := "RD_UNMAPPED_LO") rfl h (by decide)

theorem wrUnmappedLo (a : Addr) (d : Byte) : Statement (.wrUnmappedLo a d) := by
  intro h m hm
  simp only [Instr.modes, List.mem_cons, List.not_mem_nil, or_false] at hm
  rcases hm with rfl | rfl | rfl | rfl | rfl <;> exact of_nibble (w := true) (name := "WR_UNMAPPED_LO") rfl h (by decide)

theorem rdUnmappedHi (a : Addr) : Statement (.rdUnmappedHi a) := by
  intro h m hm
  simp only [Instr.modes, List.mem_cons, List.not_mem_nil, or_false] at hm
  rcases hm with rfl | rfl | rfl | rfl | rfl <;> exact of_nibble (w := false) (name := "RD_UNMAPPED_HI") rfl h (by decide)

theorem wrUnmappedHi (a : Addr) (d : Byte) : Statement (.wrUnmappedHi a d) := by
  intro h m hm
  simp only [Instr.modes, List.mem_cons, List.not_mem_nil, or_false] at hm
  rcases hm with rfl | rfl | rfl | rfl | rfl <;> exact of_nibble (w := true) (name := "WR_UNMAPPED_HI") rfl h (by decide)

theorem roRdRom (a : Addr) : Statement (.roRdRom a) := by
  intro h m hm
  simp only [Instr.modes, List.mem_singleton] at hm
  subst hm
  exact of_nibble (w := false) (name := "RO_RD_ROM") rfl h (by decide)

theorem roWrRom (a : Addr) (d : Byte) : Statement (.roWrRom a d) := by
  intro h m hm
  simp only [Instr.modes, List.mem_singleton] at hm
  subst hm
  exact of_nibble (w := true) (name := "RO_WR_ROM") rfl h (by decide)

theorem roRdRam (a : Addr) : Statement (.roRdRam a) := by
  intro h m hm
  simp only [Instr.modes, List.mem_singleton] at hm
  subst hm
  exact of_nibble (w := false) (name := "RO_RD_RAM") rfl h (by decide)

theorem roWrRam (a : Addr) (d : Byte) : Statement (.roWrRam a d) := by
  intro h m hm
  simp only [Instr.modes, List.mem_singleton] at hm
  subst hm
  exact of_nibble (w := true) (name := "RO_WR_RAM") rfl h (by decide)

theorem mbc1RdRom0 (a : Addr) : Statement (.mbc1RdRom0 a) := by
  intro h m hm
  simp only [Instr.modes, List.mem_singleton] at hm
  subst hm
  exact of_nibble (w := false) (name := "MBC1_RD_ROM0") rfl h (by decide)

theorem mbc1RdRomx (a : Addr) : Statement (.mbc1RdRomx a) := by
  intro h m hm
  simp only [Instr.modes, List.mem_singleton] at hm
  subst hm
  exact of_nibble (w := false) (name := "MBC1_RD_ROMX") rfl h (by decide)

theorem mbc1RdRam (a : Addr) : Statement (.mbc1RdRam a) := by
  intro h m hm
  simp only [Instr.modes, List.mem_singleton] at hm
  subst hm
  exact of_nibble (w := false) (name := "MBC1_RD_RAM") rfl h (by decide)

theorem mbc1WrRamg (a : Addr) (d : Byte) : Statement (.mbc1WrRamg a d) := by
  intro h m hm
  simp only [Instr.modes, List.mem_singleton] at hm
  subst hm
  exact of_nibble (w := true) (name := "MBC1_WR_RAMG") rfl h (by decide)

theorem mbc1WrBank1 (a : Addr) (d : Byte) : Statement (.mbc1WrBank1 a d) := by
  intro h m hm
  simp only [Instr.modes, List.mem_singleton] at hm
  subst hm
  exact of_nibble (w := true) (name := "MBC1_WR_BANK1") rfl h (by decide)

theorem mbc1WrBank2 (a : Addr) (d : Byte) : Statement (.mbc1WrBank2 a d) := by
  intro h m hm
  simp only [Instr.modes, List.mem_singleton] at hm
  subst hm
  exact of_nibble (w := true) (name := "MBC1_WR_BANK2") rfl h (by decide)

theorem mbc1WrMode (a : Addr) (d : Byte) : Statement (.mbc1WrMode a d) := by
  intro h m hm
  simp only [Instr.modes, List.mem_singleton] at hm
  subst hm
  exact of_nibble (w := true) (name := "MBC1_WR_MODE") rfl h (by decide)

theorem mbc1WrRam (a : Addr) (d : Byte) : Statement (.mbc1WrRam a d) := by
  intro h m hm
  simp only [Instr.modes, List.mem_singleton] at hm
  subst hm
  exact of_nibble (w := true) (name := "MBC1_WR_RAM") rfl h (by decide)

theorem mbc2RdRom0 (a : Addr) : Statement (.mbc2RdRom0 a) := by
  intro h m hm
  simp only [Instr.modes, List.mem_singleton] at hm
  subst hm
  exact of_nibble (w := false) (name := "MBC2_RD_ROM0") rfl h (by decide)

theorem mbc2RdRomx (a : Addr) : Statement (.mbc2RdRomx a) := by
  intro h m hm
  simp only [Instr.modes, List.mem_singleton] at hm
  subst hm
  exact of_nibble (w := false) (name := "MBC2_RD_ROMX") rfl h (by decide)

theorem mbc2RdRam (a : Addr) : Statement (.mbc2RdRam a) := by
  intro h m hm
  simp only [Instr.modes, List.mem_singleton] at hm
  subst hm
  exact of_nibble (w := false) (name := "MBC2_RD_RAM") rfl h (by decide)

theorem mbc2WrRamg (a : Addr) (d : Byte) : Statement (.mbc2WrRamg a d) := by
  intro h m hm
  simp only [Instr.modes, List.mem_singleton] at hm
  subst hm
  exact of_nibble (w := true) (name := "MBC2_WR_RAMG") rfl h (by decide)

theorem mbc2WrRomb (a : Addr) (d : Byte) : Statement (.mbc2WrRomb a d) := by
  intro h m hm
  simp only [Instr.modes, List.mem_singleton] at hm
  subst hm
  exact of_nibble (w := true) (name := "MBC2_WR_ROMB") rfl h (by decide)

theorem mbc2WrNop (a : Addr) (d : Byte) : Statement (.mbc2WrNop a d) := by
  intro h m hm
  simp only [Instr.modes, List.mem_singleton] at hm
  subst hm
  exact of_nibble (w := true) (name := "MBC2_WR_NOP") rfl h (by decide)

theorem mbc2WrRam (a : Addr) (d : Byte) : Statement (.mbc2WrRam a d) := by
  intro h m hm
  simp only [Instr.modes, List.mem_singleton] at hm
  subst hm
  exact of_nibble (w := true) (name := "MBC2_WR_RAM") rfl h (by decide)

theorem mbc3RdRom0 (a : Addr) : Statement (.mbc3RdRom0 a) := by
  intro h m hm
  simp only [Instr.modes, List.mem_singleton] at hm
  subst hm
  exact of_nibble (w := false) (name := "MBC3_RD_ROM0") rfl h (by decide)

theorem mbc3RdRomx (a : Addr) : Statement (.mbc3RdRomx a) := by
  intro h m hm
  simp only [Instr.modes, List.mem_singleton] at hm
  subst hm
  exact of_nibble (w := false) (name := "MBC3_RD_ROMX") rfl h (by decide)

theorem mbc3RdRam (a : Addr) : Statement (.mbc3RdRam a) := by
  intro h m hm
  simp only [Instr.modes, List.mem_singleton] at hm
  subst hm
  exact of_nibble (w := false) (name := "MBC3_RD_RAM") rfl h (by decide)

theorem mbc3WrRamg (a : Addr) (d : Byte) : Statement (.mbc3WrRamg a d) := by
  intro h m hm
  simp only [Instr.modes, List.mem_singleton] at hm
  subst hm
  exact of_nibble (w := true) (name := "MBC3_WR_RAMG") rfl h (by decide)

theorem mbc3WrRomb (a : Addr) (d : Byte) : Statement (.mbc3WrRomb a d) := by
  intro h m hm
  simp only [Instr.modes, List.mem_singleton] at hm
  subst hm
  exact of_nibble (w := true) (name := "MBC3_WR_ROMB") rfl h (by decide)

theorem mbc3WrSel (a : Addr) (d : Byte) : Statement (.mbc3WrSel a d) := by
  intro h m hm
  simp only [Instr.modes, List.mem_singleton] at hm
  subst hm
  exact of_nibble (w := true) (name := "MBC3_WR_SEL") rfl h (by decide)

theorem mbc3WrLatch (a : Addr) (d : Byte) : Statement (.mbc3WrLatch a d) := by
  intro h m hm
  simp only [Instr.modes, List.mem_singleton] at hm
  subst hm
  exact of_nibble (w := true) (name := "MBC3_WR_LATCH") rfl h (by decide)

theorem mbc3WrRam (a : Addr) (d : Byte) : Statement (.mbc3WrRam a d) := by
  intro h m hm
  simp only [Instr.modes, List.mem_singleton] at hm
  subst hm
  exact of_nibble (w := true) (name := "MBC3_WR_RAM") rfl h (by decide)

theorem mbc5RdRom0 (a : Addr) : Statement (.mbc5RdRom0 a) := by
  intro h m hm
  simp only [Instr.modes, List.mem_singleton] at hm
  subst hm
  exact of_nibble (w := false) (name := "MBC5_RD_ROM0") rfl h (by decide)

theorem mbc5RdRomx (a : Addr) : Statement (.mbc5RdRomx a) := by
  intro h m hm
  simp only [Instr.modes, List.mem_singleton] at hm
  subst hm
  exact of_nibble (w := false) (name := "MBC5_RD_ROMX") rfl h (by decide)

theorem mbc5RdRam (a : Addr) : Statement (.mbc5RdRam a) := by
  intro h m hm
  simp only [Instr.modes, List.mem_singleton] at hm
  subst hm
  exact of_nibble (w := false) (name := "MBC5_RD_RAM") rfl h (by decide)

theorem mbc5WrRamg (a : Addr) (d : Byte) : Statement (.mbc5WrRamg a d) := by
  intro h m hm
  simp only [Instr.modes, List.mem_singleton] at hm
  subst hm
  exact of_nibble (w := true) (name := "MBC5_WR_RAMG") rfl h (by decide)

theorem mbc5WrRomb0 (a : Addr) (d : Byte) : Statement (.mbc5WrRomb0 a d) := by
  intro h m hm
  simp only [Instr.modes, List.mem_singleton] at hm
  subst hm
  exact of_nibble (w := true) (name := "MBC5_WR_ROMB0") rfl h (by decide)

theorem mbc5WrRomb1 (a : Addr) (d : Byte) : Statement (.mbc5WrRomb1 a d) := by
  intro h m hm
  simp only [Instr.modes, List.mem_singleton] at hm
  subst hm
  exact of_nibble (w := true) (name := "MBC5_WR_ROMB1") rfl h (by decide)

theorem mbc5WrRamb (a : Addr) (d : Byte) : Statement (.mbc5WrRamb a d) := by
  intro h m hm
  simp only [Instr.modes, List.mem_singleton] at hm
  subst hm
  exact of_nibble (w := true) (name := "MBC5_WR_RAMB") rfl h (by decide)

theorem mbc5WrNop (a : Addr) (d : Byte) : Statement (.mbc5WrNop a d) := by
  intro h m hm
  simp only [Instr.modes, List.mem_singleton] at hm
  subst hm
  exact of_nibble (w := true) (name := "MBC5_WR_NOP") rfl h (by decide)

theorem mbc5WrRam (a : Addr) (d : Byte) : Statement (.mbc5WrRam a d) := by
  intro h m hm
  simp only [Instr.modes, List.mem_singleton] at hm
  subst hm
  exact of_nibble (w := true) (name := "MBC5_WR_RAM") rfl h (by decide)

theorem mbc6Any (w : Bool) (a : Addr) (d : Byte) : Statement (.mbc6Any w a d) := by
  intro _ m hm
  simp only [Instr.modes, List.mem_singleton] at hm
  subst hm
  exact of_any (name := "MBC6_ANY") (by decide)

theorem mbc7Any (w : Bool) (a : Addr) (d : Byte) : Statement (.mbc7Any w a d) := by
  intro _ m hm
  simp only [Instr.modes, List.mem_singleton] at hm
  subst hm
  exact of_any (name := "MBC7_ANY") (by decide)

theorem mmm01Any (w : Bool) (a : Addr) (d : Byte) : Statement (.mmm01Any w a d) := by
  intro _ m hm
  simp only [Instr.modes, List.mem_singleton] at hm
  subst hm
  exact of_any (name := "MMM01_ANY") (by decide)

end Sys2Proof.Laws.EncodesInRow
end

