-- ==== Sys2Proof/Laws/Step.lean ====
section
/-! SUPPORT. What a step can do when it ends in a next state, said once, and how runs unfold. -/

namespace Sys2Proof.Machine

/-- Every way a step ends in a next state: nothing pending, or the first input with what its operation can make of the state. -/
inductive StepEffect (s : State) : State → Prop where
  | idle (hp : s.pending = []) : StepEffect s s
  | bus {T : Word} {rest : List Input} {i : Instr} {t : State} (hp : s.pending = .bus T :: rest)
      (hd : decode s.kind T = .ok i) (he : exec i { s with pending := rest, begun := true, fresh := false } = .next t)
      (hf : Effect { s with pending := rest, begun := true, fresh := false } t) : StepEffect s t
  | construct {img : List Byte} {rest : List Input} (hp : s.pending = .construct img :: rest) (hs : s.begun = false)
      (hk : (cartTypeTable (Memory.read (Memory.ofBytes img) 0x147)).kind ≠ .unsupported)
      (hc : (Memory.read (Memory.ofBytes img) 0x148).toNat ≤ 0x08)
      (hr : (Memory.read (Memory.ofBytes img) 0x149).toNat ≤ 0x05)
      (hl : img.length = romSize (Memory.read (Memory.ofBytes img) 0x148)) :
      StepEffect s (builtState (cartTypeTable (Memory.read (Memory.ofBytes img) 0x147)) img.length (Memory.ofBytes img) rest)
  | ignored {buf : List Byte} {now : BitVec 64} {rest : List Input} (hp : s.pending = .restore buf now :: rest)
      (hs : s.fresh = true) (hl : buf.length ≠ expectedLen s) :
      StepEffect s { s with pending := rest, begun := true, fresh := false, output := .nothing }
  | restored {buf : List Byte} {now : BitVec 64} {rest : List Input} (hp : s.pending = .restore buf now :: rest)
      (hs : s.fresh = true) (hl : buf.length = expectedLen s) :
      StepEffect s { s with
        pending := rest, begun := true, fresh := false, output := .nothing
        ram := Memory.ofBytes ((buf.take s.ramLen).map (restoreCell s.kind))
        rtc := s.rtc.map (restoreRtc rtcAdvance (buf.drop s.ramLen) now) }
  | persist {now : BitVec 64} {rest : List Input} (hp : s.pending = .persist now :: rest)
      (hk : isRefusedKind s.kind = false) : StepEffect s { s with pending := rest, begun := true, output := .artifact (artifact s now) }
  | tick {n : Nat} {rest : List Input} (hp : s.pending = .rtcTick n :: rest) :
      StepEffect s { s with
        pending := rest, begun := true, fresh := false, output := .nothing
        rtc := s.rtc.map fun r => { r with live := rtcAdvance r.live n } }
  | sample {rest : List Input} (hp : s.pending = .sampleOutputs :: rest) :
      StepEffect s { s with pending := rest, begun := true, output := .signals (hostSignals s) }
  | sensor {sx sy : BitVec 16} {rest : List Input} (hp : s.pending = .sensor sx sy :: rest) (hk : s.kind = .mbc7) :
      StepEffect s { s with pending := rest, begun := true, output := .nothing, sensor := some (sx, sy) }
  | noSensor {sx sy : BitVec 16} {rest : List Input} (hp : s.pending = .sensor sx sy :: rest) (hk : s.kind ≠ .mbc7) :
      StepEffect s { s with pending := rest, begun := true, output := .nothing }

theorem step_effect {s t : State} (h : step s = .next t) : StepEffect s t := by
  unfold step at h
  split at h
  · next hp => cases h; exact .idle hp
  · next i rest hp =>
    cases i with
    | bus T =>
      obtain ⟨i, hd, he⟩ := busTransaction_next h
      exact .bus hp hd he (exec_effect he)
    | construct img =>
      obtain ⟨hs, _, hk, hc, hr, hl, rfl⟩ := constructWith_next h
      exact .construct hp hs hk hc hr hl
    | openFailed =>
      simp only [runInput, hostOpenFailed] at h
      split at h <;> cases h
    | restore b now =>
      obtain ⟨hs, ⟨hl, rfl⟩ | ⟨hl, rfl⟩⟩ := restoreWith_next h
      · exact .ignored hp hs hl
      · exact .restored hp hs hl
    | persist now =>
      obtain ⟨hk, rfl⟩ := hostPersist_next h
      exact .persist hp hk
    | rtcTick n =>
      obtain rfl := rtcTickWith_next h
      exact .tick hp
    | sampleOutputs =>
      cases h
      exact .sample hp
    | sensor sx sy =>
      obtain ⟨hk, rfl⟩ | ⟨hk, rfl⟩ := hostSensor_next h
      · exact .sensor hp hk
      · exact .noSensor hp hk

/-- A step takes the first pending input and no other. -/
theorem step_pending {s t : State} (h : step s = .next t) : t.pending = s.pending.tail := by
  cases step_effect h with
  | idle hp => rw [hp]; rfl
  | bus hp _ _ hf => rw [hp]; exact hf.frame.2.1
  | construct hp | ignored hp | restored hp | persist hp | tick hp | sample hp | sensor hp | noSensor hp => rw [hp]; rfl

/-- A run of `n + 1` steps of any core that ends in a next state is a step and a run of `n`. -/
theorem coreRun_succ_next {M : Host.Core} {n : Nat} {s t : M.State} (h : M.run (n + 1) s = .next t) :
    ∃ u, M.step s = .next u ∧ M.run n u = .next t := by
  rw [Host.Core.run] at h
  split at h
  · next u hu => exact ⟨u, hu, h⟩
  · cases h
  · cases h

/-- A step and then a run is a longer run. -/
theorem coreRun_of_step {M : Host.Core} {n : Nat} {s u : M.State} (h : M.step s = .next u) :
    M.run (n + 1) s = M.run n u := by
  rw [Host.Core.run, h]

/-- `coreRun_succ_next` on this machine. -/
theorem run_succ_next {n : Nat} {s t : State} (h : Host.Core.run Sys2Proof.core (n + 1) s = .next t) :
    ∃ u, step s = .next u ∧ Host.Core.run Sys2Proof.core n u = .next t := coreRun_succ_next (M := Sys2Proof.core) h

/-- `coreRun_of_step` on this machine. -/
theorem run_of_step {n : Nat} {s u : State} (h : step s = .next u) :
    Host.Core.run Sys2Proof.core (n + 1) s = Host.Core.run Sys2Proof.core n u :=
  coreRun_of_step (M := Sys2Proof.core) h

end Sys2Proof.Machine
end

