-- ==== Sys2Proof/Tests/Slice0.lean ====
section
/-! SUPPORT. Tests: ill-formed terms that the check refuses, words written out from the spec's encodings, one-step results taken from
the worked examples and vectors of spec/ (each names its source), and witnesses for the hypotheses of the statements. -/

namespace Sys2Proof.Tests

open Sys2Proof Sys2Proof.Machine

/-! ### Helpers -/

/-- A freshly constructed block of type `t`, ROM code `c` and RAM code `r`, whose image holds `cells` and those header bytes. -/
def cart (t c r : Byte) (cells : Memory) : State :=
  builtState (cartTypeTable t) (romSize c)
    (Memory.write (Memory.write (Memory.write cells 0x147 t) 0x148 c) 0x149 r) []

/-- One step that runs a bus transaction. -/
def bus (t : Transaction) (s : State) : Result := step { s with pending := [.bus (enc t)] }

/-- One step that runs a host input. -/
def host (i : Input) (s : State) : Result := step { s with pending := [i] }

/-- A view of the next state, where there is one. -/
def next? {α : Type} (f : State → α) : Result → Option α
  | .next t => some (f t)
  | _       => none

/-- The fault a step ends in. -/
def fault? : Result → Option Fault
  | .fault e => some e
  | _        => none

/-- The refusal a step ends in. -/
def refusal? : Result → Option Refusal
  | .refused r => some r
  | _          => none

/-- The byte a read gave back. -/
def byte? (r : Result) : Option Output := next? (fun t => t.output) r

/-! ### WellFormed: an address on each side of each row's range, and a read word with data -/

theorem test_wf_refuses_common : ∀ i ∈ ([
    .rdUnmappedLo 0x7FFF, .rdUnmappedLo 0xA000, .wrUnmappedLo 0x7FFF 0x0A, .wrUnmappedLo 0xA000 0x0A,
    .rdUnmappedHi 0xBFFF, .wrUnmappedHi 0xBFFF 0x0A] : List Instr), i.wf = false := by decide

theorem test_wf_accepts_common : ∀ i ∈ ([
    .rdUnmappedLo 0x8000, .rdUnmappedLo 0x9FFF, .wrUnmappedLo 0x8000 0x0A, .wrUnmappedLo 0x9FFF 0x0A,
    .rdUnmappedHi 0xC000, .rdUnmappedHi 0xFFFF, .wrUnmappedHi 0xC000 0x0A, .wrUnmappedHi 0xFFFF 0x0A] : List Instr), i.wf = true := by decide

theorem test_wf_refuses_romOnly : ∀ i ∈ ([
    .roRdRom 0x8000, .roWrRom 0x8000 0x0A, .roRdRam 0x9FFF, .roRdRam 0xC000,
    .roWrRam 0x9FFF 0x0A, .roWrRam 0xC000 0x0A] : List Instr), i.wf = false := by decide

theorem test_wf_accepts_romOnly : ∀ i ∈ ([
    .roRdRom 0x0000, .roRdRom 0x7FFF, .roWrRom 0x0000 0x0A, .roWrRom 0x7FFF 0x0A,
    .roRdRam 0xA000, .roRdRam 0xBFFF, .roWrRam 0xA000 0x0A, .roWrRam 0xBFFF 0x0A] : List Instr), i.wf = true := by decide

theorem test_wf_refuses_mbc1 : ∀ i ∈ ([
    .mbc1RdRom0 0x4000, .mbc1RdRomx 0x3FFF, .mbc1RdRomx 0x8000, .mbc1RdRam 0x9FFF,
    .mbc1RdRam 0xC000, .mbc1WrRamg 0x2000 0x0A, .mbc1WrBank1 0x1FFF 0x0A, .mbc1WrBank1 0x4000 0x0A,
    .mbc1WrBank2 0x3FFF 0x0A, .mbc1WrBank2 0x6000 0x0A, .mbc1WrMode 0x5FFF 0x0A, .mbc1WrMode 0x8000 0x0A,
    .mbc1WrRam 0x9FFF 0x0A, .mbc1WrRam 0xC000 0x0A] : List Instr), i.wf = false := by decide

theorem test_wf_accepts_mbc1 : ∀ i ∈ ([
    .mbc1RdRom0 0x0000, .mbc1RdRom0 0x3FFF, .mbc1RdRomx 0x4000, .mbc1RdRomx 0x7FFF,
    .mbc1RdRam 0xA000, .mbc1RdRam 0xBFFF, .mbc1WrRamg 0x0000 0x0A, .mbc1WrRamg 0x1FFF 0x0A,
    .mbc1WrBank1 0x2000 0x0A, .mbc1WrBank1 0x3FFF 0x0A, .mbc1WrBank2 0x4000 0x0A, .mbc1WrBank2 0x5FFF 0x0A,
    .mbc1WrMode 0x6000 0x0A, .mbc1WrMode 0x7FFF 0x0A, .mbc1WrRam 0xA000 0x0A, .mbc1WrRam 0xBFFF 0x0A] : List Instr), i.wf = true := by decide

theorem test_wf_refuses_mbc2 : ∀ i ∈ ([
    .mbc2RdRom0 0x4000, .mbc2RdRomx 0x3FFF, .mbc2RdRomx 0x8000, .mbc2RdRam 0x9FFF,
    .mbc2RdRam 0xC000, .mbc2WrRamg 0x2000 0x0A, .mbc2WrRomb 0x1FFF 0x0A, .mbc2WrRomb 0x4000 0x0A,
    .mbc2WrNop 0x3FFF 0x0A, .mbc2WrNop 0x8000 0x0A, .mbc2WrRam 0x9FFF 0x0A, .mbc2WrRam 0xC000 0x0A] : List Instr), i.wf = false := by decide

theorem test_wf_accepts_mbc2 : ∀ i ∈ ([
    .mbc2RdRom0 0x0000, .mbc2RdRom0 0x3FFF, .mbc2RdRomx 0x4000, .mbc2RdRomx 0x7FFF,
    .mbc2RdRam 0xA000, .mbc2RdRam 0xBFFF, .mbc2WrRamg 0x0000 0x0A, .mbc2WrRamg 0x1FFF 0x0A,
    .mbc2WrRomb 0x2000 0x0A, .mbc2WrRomb 0x3FFF 0x0A, .mbc2WrNop 0x4000 0x0A, .mbc2WrNop 0x7FFF 0x0A,
    .mbc2WrRam 0xA000 0x0A, .mbc2WrRam 0xBFFF 0x0A] : List Instr), i.wf = true := by decide

theorem test_wf_refuses_mbc3 : ∀ i ∈ ([
    .mbc3RdRom0 0x4000, .mbc3RdRomx 0x3FFF, .mbc3RdRomx 0x8000, .mbc3RdRam 0x9FFF,
    .mbc3RdRam 0xC000, .mbc3WrRamg 0x2000 0x0A, .mbc3WrRomb 0x1FFF 0x0A, .mbc3WrRomb 0x4000 0x0A,
    .mbc3WrSel 0x3FFF 0x0A, .mbc3WrSel 0x6000 0x0A, .mbc3WrLatch 0x5FFF 0x0A, .mbc3WrLatch 0x8000 0x0A,
    .mbc3WrRam 0x9FFF 0x0A, .mbc3WrRam 0xC000 0x0A] : List Instr), i.wf = false := by decide

theorem test_wf_accepts_mbc3 : ∀ i ∈ ([
    .mbc3RdRom0 0x0000, .mbc3RdRom0 0x3FFF, .mbc3RdRomx 0x4000, .mbc3RdRomx 0x7FFF,
    .mbc3RdRam 0xA000, .mbc3RdRam 0xBFFF, .mbc3WrRamg 0x0000 0x0A, .mbc3WrRamg 0x1FFF 0x0A,
    .mbc3WrRomb 0x2000 0x0A, .mbc3WrRomb 0x3FFF 0x0A, .mbc3WrSel 0x4000 0x0A, .mbc3WrSel 0x5FFF 0x0A,
    .mbc3WrLatch 0x6000 0x0A, .mbc3WrLatch 0x7FFF 0x0A, .mbc3WrRam 0xA000 0x0A, .mbc3WrRam 0xBFFF 0x0A] : List Instr), i.wf = true := by decide

theorem test_wf_refuses_mbc5 : ∀ i ∈ ([
    .mbc5RdRom0 0x4000, .mbc5RdRomx 0x3FFF, .mbc5RdRomx 0x8000, .mbc5RdRam 0x9FFF,
    .mbc5RdRam 0xC000, .mbc5WrRamg 0x2000 0x0A, .mbc5WrRomb0 0x1FFF 0x0A, .mbc5WrRomb0 0x3000 0x0A,
    .mbc5WrRomb1 0x2FFF 0x0A, .mbc5WrRomb1 0x4000 0x0A, .mbc5WrRamb 0x3FFF 0x0A, .mbc5WrRamb 0x6000 0x0A,
    .mbc5WrNop 0x5FFF 0x0A, .mbc5WrNop 0x8000 0x0A, .mbc5WrRam 0x9FFF 0x0A, .mbc5WrRam 0xC000 0x0A] : List Instr), i.wf = false := by decide

theorem test_wf_accepts_mbc5 : ∀ i ∈ ([
    .mbc5RdRom0 0x0000, .mbc5RdRom0 0x3FFF, .mbc5RdRomx 0x4000, .mbc5RdRomx 0x7FFF,
    .mbc5RdRam 0xA000, .mbc5RdRam 0xBFFF, .mbc5WrRamg 0x0000 0x0A, .mbc5WrRamg 0x1FFF 0x0A,
    .mbc5WrRomb0 0x2000 0x0A, .mbc5WrRomb0 0x2FFF 0x0A, .mbc5WrRomb1 0x3000 0x0A, .mbc5WrRomb1 0x3FFF 0x0A,
    .mbc5WrRamb 0x4000 0x0A, .mbc5WrRamb 0x5FFF 0x0A, .mbc5WrNop 0x6000 0x0A, .mbc5WrNop 0x7FFF 0x0A,
    .mbc5WrRam 0xA000 0x0A, .mbc5WrRam 0xBFFF 0x0A] : List Instr), i.wf = true := by decide

theorem test_wf_refuses_read_with_data :
    ∀ i ∈ ([.mbc6Any false 0x0000 0x55, .mbc7Any false 0xA000 0x01, .mmm01Any false 0xFFFF 0x80] : List Instr),
      i.wf = false := by decide

theorem test_wf_accepts_any :
    ∀ i ∈ ([.mbc6Any true 0x0000 0x55, .mbc7Any false 0xA000 0x00, .mmm01Any true 0xFFFF 0x80] : List Instr),
      i.wf = true := by decide

/-! ### Decode: words from 95_test_vectors.md 2.1, R70 and R75, written out by hand -/

theorem test_decode_table_romOnly :
    decode .romOnly 0x0000000 = .ok (.roRdRom 0x0000) ∧
    decode .romOnly 0x07FFF00 = .ok (.roRdRom 0x7FFF) ∧
    decode .romOnly 0x09FFF00 = .ok (.rdUnmappedLo 0x9FFF) ∧
    decode .romOnly 0x0BFFF00 = .ok (.roRdRam 0xBFFF) ∧
    decode .romOnly 0x0C00000 = .ok (.rdUnmappedHi 0xC000) ∧
    decode .romOnly 0x11FFF0A = .ok (.roWrRom 0x1FFF 0x0A) ∧
    decode .romOnly 0x12FFF01 = .ok (.roWrRom 0x2FFF 0x01) ∧
    decode .romOnly 0x1300001 = .ok (.roWrRom 0x3000 0x01) ∧
    decode .romOnly 0x15FFF08 = .ok (.roWrRom 0x5FFF 0x08) ∧
    decode .romOnly 0x1600001 = .ok (.roWrRom 0x6000 0x01) ∧
    decode .romOnly 0x180000A = .ok (.wrUnmappedLo 0x8000 0x0A) ∧
    decode .romOnly 0x1A00055 = .ok (.roWrRam 0xA000 0x55) ∧
    decode .romOnly 0x1FFFFFF = .ok (.wrUnmappedHi 0xFFFF 0xFF) := by
  refine ⟨?_, ?_, ?_, ?_, ?_, ?_, ?_, ?_, ?_, ?_, ?_, ?_, ?_⟩ <;> rfl

theorem test_decode_table_mbc1 :
    decode .mbc1 0x0000000 = .ok (.mbc1RdRom0 0x0000) ∧
    decode .mbc1 0x07FFF00 = .ok (.mbc1RdRomx 0x7FFF) ∧
    decode .mbc1 0x09FFF00 = .ok (.rdUnmappedLo 0x9FFF) ∧
    decode .mbc1 0x0BFFF00 = .ok (.mbc1RdRam 0xBFFF) ∧
    decode .mbc1 0x0C00000 = .ok (.rdUnmappedHi 0xC000) ∧
    decode .mbc1 0x11FFF0A = .ok (.mbc1WrRamg 0x1FFF 0x0A) ∧
    decode .mbc1 0x12FFF01 = .ok (.mbc1WrBank1 0x2FFF 0x01) ∧
    decode .mbc1 0x1300001 = .ok (.mbc1WrBank1 0x3000 0x01) ∧
    decode .mbc1 0x15FFF08 = .ok (.mbc1WrBank2 0x5FFF 0x08) ∧
    decode .mbc1 0x1600001 = .ok (.mbc1WrMode 0x6000 0x01) ∧
    decode .mbc1 0x180000A = .ok (.wrUnmappedLo 0x8000 0x0A) ∧
    decode .mbc1 0x1A00055 = .ok (.mbc1WrRam 0xA000 0x55) ∧
    decode .mbc1 0x1FFFFFF = .ok (.wrUnmappedHi 0xFFFF 0xFF) := by
  refine ⟨?_, ?_, ?_, ?_, ?_, ?_, ?_, ?_, ?_, ?_, ?_, ?_, ?_⟩ <;> rfl

theorem test_decode_table_mbc2 :
    decode .mbc2 0x0000000 = .ok (.mbc2RdRom0 0x0000) ∧
    decode .mbc2 0x07FFF00 = .ok (.mbc2RdRomx 0x7FFF) ∧
    decode .mbc2 0x09FFF00 = .ok (.rdUnmappedLo 0x9FFF) ∧
    decode .mbc2 0x0BFFF00 = .ok (.mbc2RdRam 0xBFFF) ∧
    decode .mbc2 0x0C00000 = .ok (.rdUnmappedHi 0xC000) ∧
    decode .mbc2 0x11FFF0A = .ok (.mbc2WrRamg 0x1FFF 0x0A) ∧
    decode .mbc2 0x12FFF01 = .ok (.mbc2WrRomb 0x2FFF 0x01) ∧
    decode .mbc2 0x1300001 = .ok (.mbc2WrRomb 0x3000 0x01) ∧
    decode .mbc2 0x15FFF08 = .ok (.mbc2WrNop 0x5FFF 0x08) ∧
    decode .mbc2 0x1600001 = .ok (.mbc2WrNop 0x6000 0x01) ∧
    decode .mbc2 0x180000A = .ok (.wrUnmappedLo 0x8000 0x0A) ∧
    decode .mbc2 0x1A00055 = .ok (.mbc2WrRam 0xA000 0x55) ∧
    decode .mbc2 0x1FFFFFF = .ok (.wrUnmappedHi 0xFFFF 0xFF) := by
  refine ⟨?_, ?_, ?_, ?_, ?_, ?_, ?_, ?_, ?_, ?_, ?_, ?_, ?_⟩ <;> rfl

theorem test_decode_table_mbc3 :
    decode .mbc3 0x0000000 = .ok (.mbc3RdRom0 0x0000) ∧
    decode .mbc3 0x07FFF00 = .ok (.mbc3RdRomx 0x7FFF) ∧
    decode .mbc3 0x09FFF00 = .ok (.rdUnmappedLo 0x9FFF) ∧
    decode .mbc3 0x0BFFF00 = .ok (.mbc3RdRam 0xBFFF) ∧
    decode .mbc3 0x0C00000 = .ok (.rdUnmappedHi 0xC000) ∧
    decode .mbc3 0x11FFF0A = .ok (.mbc3WrRamg 0x1FFF 0x0A) ∧
    decode .mbc3 0x12FFF01 = .ok (.mbc3WrRomb 0x2FFF 0x01) ∧
    decode .mbc3 0x1300001 = .ok (.mbc3WrRomb 0x3000 0x01) ∧
    decode .mbc3 0x15FFF08 = .ok (.mbc3WrSel 0x5FFF 0x08) ∧
    decode .mbc3 0x1600001 = .ok (.mbc3WrLatch 0x6000 0x01) ∧
    decode .mbc3 0x180000A = .ok (.wrUnmappedLo 0x8000 0x0A) ∧
    decode .mbc3 0x1A00055 = .ok (.mbc3WrRam 0xA000 0x55) ∧
    decode .mbc3 0x1FFFFFF = .ok (.wrUnmappedHi 0xFFFF 0xFF) := by
  refine ⟨?_, ?_, ?_, ?_, ?_, ?_, ?_, ?_, ?_, ?_, ?_, ?_, ?_⟩ <;> rfl

theorem test_decode_table_mbc5 :
    decode .mbc5 0x0000000 = .ok (.mbc5RdRom0 0x0000) ∧
    decode .mbc5 0x07FFF00 = .ok (.mbc5RdRomx 0x7FFF) ∧
    decode .mbc5 0x09FFF00 = .ok (.rdUnmappedLo 0x9FFF) ∧
    decode .mbc5 0x0BFFF00 = .ok (.mbc5RdRam 0xBFFF) ∧
    decode .mbc5 0x0C00000 = .ok (.rdUnmappedHi 0xC000) ∧
    decode .mbc5 0x11FFF0A = .ok (.mbc5WrRamg 0x1FFF 0x0A) ∧
    decode .mbc5 0x12FFF01 = .ok (.mbc5WrRomb0 0x2FFF 0x01) ∧
    decode .mbc5 0x1300001 = .ok (.mbc5WrRomb1 0x3000 0x01) ∧
    decode .mbc5 0x15FFF08 = .ok (.mbc5WrRamb 0x5FFF 0x08) ∧
    decode .mbc5 0x1600001 = .ok (.mbc5WrNop 0x6000 0x01) ∧
    decode .mbc5 0x180000A = .ok (.wrUnmappedLo 0x8000 0x0A) ∧
    decode .mbc5 0x1A00055 = .ok (.mbc5WrRam 0xA000 0x55) ∧
    decode .mbc5 0x1FFFFFF = .ok (.wrUnmappedHi 0xFFFF 0xFF) := by
  refine ⟨?_, ?_, ?_, ?_, ?_, ?_, ?_, ?_, ?_, ?_, ?_, ?_, ?_⟩ <;> rfl

/-- The rows the table above does not name: the word is `W`, `A` in 16 bits, `D` in 8 bits (R70). -/
theorem test_decode_any :
    decode .mbc6 0b0000000000000000000000000 = .ok (.mbc6Any false 0x0000 0x00) ∧
    decode .mbc7 0b1000000000000000000001010 = .ok (.mbc7Any true 0x0000 0x0A) ∧
    decode .mmm01 0b0101000000000000000000000 = .ok (.mmm01Any false 0xA000 0x00) := ⟨rfl, rfl, rfl⟩

/-- A read word with a data field decodes like the word without (95_test_vectors.md 2.1, R71). -/
theorem test_decode_read_data_ignored :
    decode .mbc1 0x0000055 = .ok (.mbc1RdRom0 0x0000) ∧ decode .mmm01 0x0000055 = .ok (.mmm01Any false 0x0000 0x00) := ⟨rfl, rfl⟩

theorem test_decode_unsupported : decode .unsupported 0x0000000 = .error (.noRow .unsupported) := rfl

/-- P1 line 4 and P2 line 7 (95_test_vectors.md). -/
theorem test_encode : encode (.mbc1WrBank1 0x2000 0x25) = 0x1200025 ∧ encode (.mbc3WrRam 0xA123 0x5A) = 0x1A1235A ∧
    encode (.mbc5RdRomx 0x4001) = 0x0400100 := ⟨rfl, rfl, rfl⟩

theorem test_table_word : decodeTableWord 32 0x1300000 = some (.mbc5WrRomb1 0x3000 0x00) ∧
    decodeTableWord 32 0x2000000 = none := ⟨rfl, rfl⟩

/-- No two rows of a mode fit one word: checked over the five bits the masks lie in (R74). -/
theorem test_masks_lie_in_the_top_bits : (opcodeTable.all fun r => decide (r.mask &&& 0x00FFFFF = 0)) = true := by decide

theorem test_fetch_word_runs_first :
    next? (fun t => t.romBankNumber) (step (State.reset.withFetchWord 32 0x1300001)) = some 0x101 := by decide

/-! ### Unmapped ranges and RomOnly (95_test_vectors.md 2.2) -/

theorem test_rdUnmappedLo : byte? (bus (.read 0x8000) (cart 0x01 0 0 [])) = some (.byte 0xFF) := by decide
theorem test_rdUnmappedHi : byte? (bus (.read 0xFFFF) (cart 0x19 0 0 [])) = some (.byte 0xFF) := by decide
theorem test_wrUnmappedLo : next? (fun t => t.ramEnabled) (bus (.write 0x9FFF 0x0A) (cart 0x03 0 2 [])) = some false := by decide
theorem test_wrUnmappedHi : next? (fun t => t.ram) (bus (.write 0xC000 0x55) (cart 0x08 0 2 [])) = some [] := by decide
theorem test_roRdRom : byte? (bus (.read 0x4000) (cart 0x00 0 0 [(0x4000, 0x42)])) = some (.byte 0x42) := by decide
theorem test_roWrRom : next? (fun t => (t.ramEnabled, t.romBankNumber)) (bus (.write 0x0000 0x0A) (cart 0x00 0 0 [])) =
    some (false, 1) := by decide
theorem test_roRdRam_none : byte? (bus (.read 0xA000) (cart 0x00 0 0 [])) = some (.byte 0xFF) := by decide
theorem test_roRdRam_small : byte? (bus (.read 0xA800) { cart 0x08 0 1 [] with ram := [(0, 0x42)] }) =
    some (.byte 0x42) := by decide
theorem test_roWrRam_none : next? (fun t => t.ram) (bus (.write 0xA000 0x12) (cart 0x00 0 0 [])) = some [] := by decide
theorem test_roWrRam : next? (fun t => (t.ram, t.ramEnabled)) (bus (.write 0xA010 0x99) (cart 0x08 0 2 [])) =
    some ([(0x10, 0x99)], false) := by decide

/-! ### MBC1 (95_test_vectors.md 2.3, 41_mbc1.md) -/

theorem test_mbc1RdRom0_advanced : byte? (bus (.read 0x0000)
    { cart 0x03 5 3 [(0x80000, 0x20)] with ramBankNumber := 1, bankingMode := .advanced }) = some (.byte 0x20) := by decide
theorem test_mbc1RdRom0_simple : byte? (bus (.read 0x0000)
    { cart 0x03 5 3 [(0x0, 0x11), (0x80000, 0x20)] with ramBankNumber := 1 }) = some (.byte 0x11) := by decide
theorem test_mbc1RdRomx_wraps : byte? (bus (.read 0x4000)
    { cart 0x01 1 0 [(0x4000, 0x01)] with romBankNumber := 5 }) = some (.byte 0x01) := by decide
theorem test_mbc1RdRomx_alias : byte? (bus (.read 0x4000)
    { cart 0x01 6 2 [(0x0, 0x77), (0x4000, 0x01)] with romBankNumber := 0 }) = some (.byte 0x01) := by decide
theorem test_mbc1RdRam : byte? (bus (.read 0xA123)
    { cart 0x03 0 2 [] with ramEnabled := true, ram := [(0x123, 0x5A)] }) = some (.byte 0x5A) := by decide
theorem test_mbc1RdRam_disabled : byte? (bus (.read 0xA123) { cart 0x03 0 2 [] with ram := [(0x123, 0x5A)] }) =
    some (.byte 0xFF) := by decide
theorem test_mbc1WrRamg : [0x0A, 0x1A, 0xFA, 0x00, 0x0B, 0xA0].map
    (fun d => next? (fun t => t.ramEnabled) (bus (.write 0x0000 d) (cart 0x01 0 2 []))) =
    [some true, some true, some true, some false, some false, some false] := by decide
theorem test_mbc1WrBank1 : [0x00, 0x20, 0xE0, 0x3F, 0x25].map
    (fun d => next? (fun t => t.romBankNumber) (bus (.write 0x2000 d) (cart 0x01 6 2 []))) =
    [some 0, some 0, some 0, some 0x1F, some 0x05] := by decide
theorem test_mbc1WrBank2 : next? (fun t => t.ramBankNumber) (bus (.write 0x4000 0x07) (cart 0x03 5 3 [])) = some 3 := by decide
theorem test_mbc1WrMode : [0x01, 0xFF, 0x00, 0x02].map
    (fun d => next? (fun t => t.bankingMode) (bus (.write 0x6000 d) (cart 0x01 0 2 []))) =
    [some .advanced, some .advanced, some .simple, some .simple] := by decide
theorem test_mbc1WrRam : next? (fun t => t.ram) (bus (.write 0xA000 0x77)
    { cart 0x03 5 3 [] with ramEnabled := true, ramBankNumber := 2, bankingMode := .advanced }) =
    some [(0x4000, 0x77)] := by decide
theorem test_mbc1WrRam_wraps : next? (fun t => t.ram) (bus (.write 0xA000 0x11)
    { cart 0x01 6 2 [] with ramEnabled := true, ramBankNumber := 2, bankingMode := .advanced }) =
    some [(0x0000, 0x11)] := by decide

/-! ### MBC2 (95_test_vectors.md 2.4) -/

theorem test_mbc2_ramLen : (cart 0x05 3 4 []).ramLen = 512 := by decide
theorem test_mbc2RdRom0 : byte? (bus (.read 0x0147) (cart 0x06 3 0 [])) = some (.byte 0x06) := by decide
theorem test_mbc2RdRomx_alias : byte? (bus (.read 0x4000)
    { cart 0x06 3 0 [(0x4000, 0x01)] with romBankNumber := 0 }) = some (.byte 0x01) := by decide
theorem test_mbc2RdRomx_wraps : byte? (bus (.read 0x4000)
    { cart 0x05 1 0 [(0xC000, 0x03)] with romBankNumber := 7 }) = some (.byte 0x03) := by decide
theorem test_mbc2RdRam : byte? (bus (.read 0xBE05) { cart 0x06 3 0 [] with ramEnabled := true, ram := [(5, 3)] }) =
    some (.byte 0xF3) := by decide
theorem test_mbc2RdRam_disabled : byte? (bus (.read 0xA005) { cart 0x06 3 0 [] with ram := [(5, 3)] }) =
    some (.byte 0xFF) := by decide
theorem test_mbc2WrRamg : next? (fun t => t.ramEnabled) (bus (.write 0x1FFF 0x0A) (cart 0x06 3 0 [])) = some true := by decide
theorem test_mbc2WrRomb : [0x10, 0x13, 0x1F].map
    (fun d => next? (fun t => t.romBankNumber) (bus (.write 0x2000 d) (cart 0x06 3 0 []))) =
    [some 0, some 3, some 0x0F] := by decide
theorem test_mbc2WrNop : next? (fun t => (t.romBankNumber, t.ramBankNumber)) (bus (.write 0x7FFF 0xFF) (cart 0x06 3 0 [])) =
    some (1, 0) := by decide
theorem test_mbc2WrRam : next? (fun t => t.ram) (bus (.write 0xA205 0xC3) { cart 0x06 3 0 [] with ramEnabled := true }) =
    some [(5, 0x03)] := by decide
theorem test_mbc2WrRam_disabled : next? (fun t => t.ram) (bus (.write 0xA005 0xC3) (cart 0x06 3 0 [])) = some [] := by decide

/-! ### MBC3 and its clock (95_test_vectors.md 2.5) -/

/-- A clock with these live and latched seconds. -/
def clock (live latched : Byte) (armed : Bool) : Option Rtc := some ⟨⟨live, 0, 0, 0, 0⟩, ⟨latched, 0, 0, 0, 0⟩, armed⟩

theorem test_mbc3RdRom0 : byte? (bus (.read 0x0100) (cart 0x10 6 3 [(0x100, 0xC3)])) = some (.byte 0xC3) := by decide
theorem test_mbc3RdRomx : byte? (bus (.read 0x4000)
    { cart 0x10 6 3 [(0x1FC000, 0x7F)] with romBankNumber := 0x7F }) = some (.byte 0x7F) := by decide
theorem test_mbc3RdRomx_alias : byte? (bus (.read 0x4000)
    { cart 0x10 6 3 [(0x4000, 0x01)] with romBankNumber := 0 }) = some (.byte 0x01) := by decide
theorem test_mbc3RdRam_selects : [0x03, 0x04, 0x07, 0x08, 0x0C, 0x0D, 0xFF].map
    (fun x => byte? (bus (.read 0xA000) { cart 0x10 6 3 [] with
      ramEnabled := true, ramBankNumber := x, ram := [(0x6000, 0x33)], rtc := clock 9 1 false })) =
    [some (.byte 0x33), some (.byte 0xFF), some (.byte 0xFF), some (.byte 0x01), some (.byte 0x00), some (.byte 0xFF),
      some (.byte 0xFF)] := by decide
theorem test_mbc3RdRam_no_clock : byte? (bus (.read 0xA000)
    { cart 0x13 6 3 [] with ramEnabled := true, ramBankNumber := 8 }) = some (.byte 0xFF) := by decide
theorem test_mbc3WrRamg : next? (fun t => t.ramEnabled) (bus (.write 0x0000 0x0A) (cart 0x10 6 3 [])) = some true := by decide
theorem test_mbc3WrRomb : [0x80, 0x85].map
    (fun d => next? (fun t => t.romBankNumber) (bus (.write 0x2000 d) (cart 0x10 6 3 []))) = [some 0, some 5] := by decide
theorem test_mbc3WrSel : next? (fun t => t.ramBankNumber) (bus (.write 0x4000 0xFF) (cart 0x10 6 3 [])) = some 0xFF := by decide
theorem test_mbc3WrLatch_latches : next? (fun t => t.rtc) (bus (.write 0x6000 0x01)
    { cart 0x10 6 3 [] with rtc := clock 5 0 true }) = some (clock 5 5 false) := by decide
theorem test_mbc3WrLatch_others : [(0x00, false), (0x02, true), (0x01, false)].map
    (fun x => next? (fun t => t.rtc) (bus (.write 0x6000 x.1) { cart 0x10 6 3 [] with rtc := clock 5 0 x.2 })) =
    [some (clock 5 0 true), some (clock 5 0 false), some (clock 5 0 false)] := by decide
theorem test_mbc3WrRam_rtc : next? (fun t => t.rtc) (bus (.write 0xA000 0x1E)
    { cart 0x10 6 3 [] with ramEnabled := true, ramBankNumber := 8 }) = some (clock 0x1E 0 false) := by decide
theorem test_mbc3WrRam_bank : next? (fun t => t.ram) (bus (.write 0xA123 0x5A)
    { cart 0x10 6 3 [] with ramEnabled := true, ramBankNumber := 2 }) = some [(0x4123, 0x5A)] := by decide

/-- `rtc_step` (95_test_vectors.md 2.5, the default advance). -/
theorem test_rtcStep : ([⟨0x3B, 0, 0, 0, 0⟩, ⟨0x3B, 0x3B, 0, 0, 0⟩, ⟨0x3B, 0x3B, 0x17, 0, 0⟩, ⟨0x3B, 0x3B, 0x17, 0xFF, 0⟩,
      ⟨0x3B, 0x3B, 0x17, 0xFF, 0x01⟩] : List RtcRegs).map rtcStep =
    [⟨0, 1, 0, 0, 0⟩, ⟨0, 0, 1, 0, 0⟩, ⟨0, 0, 0, 1, 0⟩, ⟨0, 0, 0, 0, 1⟩, ⟨0, 0, 0, 0, 0x80⟩] := by decide
theorem test_rtcStep_corners : ([⟨0x3B, 0x3B, 0x17, 0xFF, 0x81⟩, ⟨0x3B, 0, 0, 0, 0x40⟩, ⟨0x3F, 0, 0, 0, 0⟩,
      ⟨0xFF, 0, 0, 0, 0⟩] : List RtcRegs).map rtcStep =
    [⟨0, 0, 0, 0, 0x80⟩, ⟨0x3B, 0, 0, 0, 0x40⟩, ⟨0, 0, 0, 0, 0⟩, ⟨0, 0, 0, 0, 0⟩] := by decide

/-- Minutes 60 and 63, hours 24 and 31, and a minute out of its 6 bits, counted up by R186's own steps. -/
theorem test_rtcStep_fields : ([⟨0x3B, 0x3C, 1, 0, 0⟩, ⟨0x3B, 0x3F, 1, 0, 0⟩, ⟨0x3B, 0x3B, 0x18, 0, 0⟩, ⟨0x3B, 0x3B, 0x1F, 7, 0x81⟩,
      ⟨0x7B, 0xFB, 0xF7, 0xFF, 0x3F⟩] : List RtcRegs).map rtcStep =
    [⟨0, 0x3D, 1, 0, 0⟩, ⟨0, 0, 1, 0, 0⟩, ⟨0, 0, 0x19, 0, 0⟩, ⟨0, 0, 0, 7, 0x81⟩, ⟨0, 0, 0, 0, 0x80⟩] := by decide

/-! ### MBC5 (95_test_vectors.md 2.6) -/

theorem test_mbc5RdRom0 : byte? (bus (.read 0x3FFF) (cart 0x19 3 0 [(0x3FFF, 0x5C)])) = some (.byte 0x5C) := by decide
theorem test_mbc5RdRomx : byte? (bus (.read 0x4000)
    { cart 0x1E 8 4 [(0x404000, 0x01)] with romBankNumber := 0x101 }) = some (.byte 0x01) := by decide
theorem test_mbc5RdRomx_bank_zero : byte? (bus (.read 0x4000)
    { cart 0x19 3 0 [(0x0000, 0x44), (0x4000, 0x01)] with romBankNumber := 0 }) = some (.byte 0x44) := by decide
theorem test_mbc5RdRam : byte? (bus (.read 0xA000)
    { cart 0x1A 3 4 [] with ramEnabled := true, ramBankNumber := 0x0F, ram := [(0x1E000, 0x0F)] }) =
    some (.byte 0x0F) := by decide
theorem test_mbc5WrRamg : next? (fun t => t.ramEnabled) (bus (.write 0x0000 0x0A) (cart 0x19 3 0 [])) = some true := by decide
theorem test_mbc5WrRomb0 : next? (fun t => t.romBankNumber) (bus (.write 0x2FFF 0x34)
    { cart 0x1E 8 4 [] with romBankNumber := 0x101 }) = some 0x134 := by decide
theorem test_mbc5WrRomb1 : [0x01, 0x03, 0x02].map (fun d => next? (fun t => t.romBankNumber) (bus (.write 0x3000 d)
    { cart 0x1E 8 4 [] with romBankNumber := 0x112 })) = [some 0x112, some 0x112, some 0x012] := by decide
theorem test_mbc5WrRamb : next? (fun t => (t.ramBankNumber, t.rumbleOut)) (bus (.write 0x4000 0x0B) (cart 0x1A 3 4 [])) =
    some (0x0B, false) := by decide
theorem test_mbc5WrRamb_rumble : [0x0B, 0xF7].map
    (fun d => next? (fun t => (t.ramBankNumber, t.rumbleOut)) (bus (.write 0x4000 d) (cart 0x1D 3 4 []))) =
    [some (3, true), some (7, false)] := by decide
theorem test_mbc5WrNop : next? (fun t => (t.bankingMode, t.ramBankNumber)) (bus (.write 0x6000 0x01) (cart 0x19 3 0 [])) =
    some (.simple, 0) := by decide
theorem test_mbc5WrRam : next? (fun t => t.ram) (bus (.write 0xBFFF 0x11)
    { cart 0x1A 3 3 [] with ramEnabled := true, ramBankNumber := 3 }) = some [(0x7FFF, 0x11)] := by decide
theorem test_mbc5WrRam_wraps : next? (fun t => t.ram) (bus (.write 0xA000 0x21)
    { cart 0x1A 3 3 [] with ramEnabled := true, ramBankNumber := 5 }) = some [(0x2000, 0x21)] := by decide

/-! ### Refused variants, construction and the host (95_test_vectors.md 2.7, 2.8) -/

/-- Is the step refused with the mark set? -/
def refusedMarked (k : MapperKind) : Result → Bool
  | .refused (.unmodelledVariant k' t) => decide (k' = k) && t.refused
  | _ => false

theorem test_mbc6Any : refusedMarked .mbc6 (bus (.read 0x0000) (cart 0x20 0 0 [])) = true := by decide
theorem test_mbc7Any : refusedMarked .mbc7 (bus (.write 0x0000 0x0A) (cart 0x22 0 0 [])) = true := by decide
theorem test_mmm01Any : refusedMarked .mmm01 (bus (.read 0xA000) (cart 0x0B 0 0 [])) = true := by decide

theorem test_construct_errors :
    [constructFrom cartTypeTable 0x14F [] [], constructFrom cartTypeTable 0x8000 [(0x147, 0xFF)] [],
      constructFrom cartTypeTable 0x8000 [(0x147, 0x01), (0x149, 0x06)] [],
      constructFrom cartTypeTable 0x8000 [(0x147, 0x01), (0x148, 0x01)] []].map fault? =
    [some (.tooShort 0x14F), some (.unsupportedCartridgeType 0xFF), some (.invalidSizeCode 0x00 0x06),
      some (.sizeMismatch 0x8000 0x10000)] := by decide
theorem test_construct_priority :
    [constructFrom cartTypeTable 0x150 [(0x147, 0xFF), (0x148, 0x09)] [],
      constructFrom cartTypeTable 0x150 [(0x147, 0x01), (0x148, 0x09)] [],
      constructFrom cartTypeTable 0x150 [(0x147, 0x01)] []].map fault? =
    [some (.unsupportedCartridgeType 0xFF), some (.invalidSizeCode 0x09 0x00), some (.sizeMismatch 0x150 0x8000)] := by decide
theorem test_construct_checksum :
    [(0x8000, [(0x147, 0x01), (0x149, 0x02), (0x14D, 0xE4)]), (0x8000, [(0x147, 0x01), (0x149, 0x02), (0x14D, 0xE5)])].map
      (fun x : Nat × Memory => next? (fun t => (t.checksumOk, t.ramLen)) (constructFrom cartTypeTable x.1 x.2 [])) =
    [some (true, 0x2000), some (false, 0x2000)] := by decide
theorem test_headerChecksum :
    [headerChecksum [], headerChecksum [(0x134, 0x54), (0x135, 0x45), (0x136, 0x53), (0x137, 0x54), (0x147, 0x01)],
      headerChecksum [(0x147, 0x03), (0x148, 0x05), (0x149, 0x03)]] = [0xE7, 0xA6, 0xDC] := by decide
theorem test_openFailed : fault? (host .openFailed State.reset) = some .notFound := by decide

/-- MBC2 with cell 5 = 3: its 512 cells and no clock (R240, C4). -/
theorem test_persist_mbc2 : host (.persist 0) { cart 0x06 3 0 [] with ram := [(5, 3)] } =
    .next { cart 0x06 3 0 [] with ram := [(5, 3)], output := .artifact (Memory.slice [(5, 3)] 0 512 ++ []) } := rfl
theorem test_slice : Memory.slice [(5, 3)] 4 3 = [0, 3, 0] := by decide
theorem test_persist_rtc : next? (fun t => t.output) (host (.persist 1000)
    { cart 0x0F 0 0 [] with rtc := some ⟨⟨0x3B, 0x3B, 0x17, 0, 0⟩, ⟨0, 0, 0, 0, 0⟩, false⟩ }) =
    some (.artifact [0x3B, 0x3B, 0x17, 0, 0, 0, 0, 0, 0xE8, 0x03, 0, 0, 0, 0, 0, 0]) := by decide

/-- The artifact above restored at 1001 and at 900. -/
theorem test_restore_rtc : [1001, 900].map (fun now => next? (fun t => t.rtc) (host
      (.restore [0x3B, 0x3B, 0x17, 0, 0, 0, 0, 0, 0xE8, 0x03, 0, 0, 0, 0, 0, 0] now) (cart 0x0F 0 0 []))) =
    [some (some ⟨⟨0, 0, 0, 1, 0⟩, ⟨0, 0, 0, 0, 0⟩, false⟩),
      some (some ⟨⟨0x3B, 0x3B, 0x17, 0, 0⟩, ⟨0, 0, 0, 0, 0⟩, false⟩)] := by decide
theorem test_restore_ignored : next? (fun t => (t.ram, t.fresh)) (host (.restore [0x11, 0x22] 0) (cart 0x06 3 0 [])) =
    some ([], false) := by decide
theorem test_restore_refused : refusal? (host (.restore [] 0) { State.reset with fresh := false }) =
    some .restoreNotFresh := by decide
theorem test_rtcTick : next? (fun t => t.rtc) (host (.rtcTick 1)
    { cart 0x0F 0 0 [] with rtc := clock 0x3B 7 true }) =
    some (some ⟨⟨0, 1, 0, 0, 0⟩, ⟨7, 0, 0, 0, 0⟩, true⟩) := by decide
theorem test_rtcTick_no_clock : next? (fun t => t.rtc) (host (.rtcTick 10) (cart 0x01 0 0 [])) = some none := by decide
theorem test_sample : next? (fun t => match t.output with
      | .signals h => (h.rumbleOut, h.checksumOk, h.ramSizeCode)
      | _ => (false, false, 0)) (host .sampleOutputs { cart 0x1E 8 4 [(0x14D, 0xBD)] with rumbleOut := true }) =
    some (true, true, 0x04) := by decide
theorem test_sensor : [cart 0x22 0 0 [], cart 0x19 0 0 []].map (fun s => next? (fun t => t.sensor) (host (.sensor 5 0xFFFF) s)) =
    [some (some (5, 0xFFFF)), some none] := by decide
theorem test_construct_again_refused : [host (.construct []) (cart 0x01 0 0 []), host .openFailed (cart 0x01 0 0 []),
      host (.construct []) { State.reset with begun := true }].map refusal? =
    [some .alreadyConstructed, some .alreadyConstructed, some .alreadyConstructed] := by decide

/-- Any input begins the session, persist, sampling and the sensor too. -/
theorem test_session_begins : [.persist 0, .sampleOutputs, .sensor 1 2, .bus 0, .rtcTick 1, .restore [] 0].map (fun i =>
    next? (fun t => t.begun) (host i State.reset)) = List.replicate 6 (some true) := by decide
theorem test_idle_step : next? (fun t => (t.fresh, t.begun)) (step State.reset) = some (true, false) := by decide
theorem test_unsupported_kind_refused : refusal? (bus (.read 0) { State.reset with kind := .unsupported }) =
    some (.noRow .unsupported) := by decide

/-! ### Assembly (R77, R78) -/

theorem test_parse_read : parseLine ['R', 'D', ' ', '0', 'x', 'A', '0', '0', '0', ' ', '-', '>', ' ', '0', 'x', 'f', '3', ';', 'c'] =
    some ⟨.read 0xA000, some 0xF3⟩ := by decide
theorem test_hexDigits : ['0', '9', 'A', 'F', 'a', 'f', 'g', 'G', ':', '/', '@', '`'].map hexDigit? =
    [some 0, some 9, some 10, some 15, some 10, some 15, none, none, none, none, none, none] := by decide
theorem test_render_write : renderLine (.write 0x2000 0x25) =
    ['W', 'R', ' ', '0', 'x', '2', '0', '0', '0', ',', ' ', '0', 'x', '2', '5'] := by decide
theorem test_parse_refuses : parseLine ['R', 'D', ' ', '0', 'x', '1', '0', '0', '0', '0'] = none ∧
    parseLine ['W', 'R', ' ', '0', 'x', '1'] = none := by decide
theorem test_selrom_mbc5 : Pseudo.expand .mbc5 (.selrom 0x134) = some [.write 0x2000 0x34, .write 0x3000 0x01] := by decide
theorem test_latch_mbc1 : Pseudo.expand .mbc1 .latch = none ∧
    Pseudo.expand .mbc3 .latch = some [.write 0x6000 0x00, .write 0x6000 0x01] := by decide

/-! ### Witnesses: for every statement with hypotheses, a state and operands that meet them, each clause at the ends of its range -/

/-- A block in use keeps the invariant under values its registers can hold. -/
theorem inv_of_regs {s : State} (h : s.Inv) (b : BitVec 9) (rb : BitVec 8) (g f : Bool) (m : BankingMode) (p : List Input)
    (hr : State.RegsOk { s with
      romBankNumber := b, ramBankNumber := rb, ramEnabled := g, fresh := f, bankingMode := m, pending := p }) :
    State.Inv { s with
      romBankNumber := b, ramBankNumber := rb, ramEnabled := g, fresh := f, bankingMode := m, pending := p } :=
  ⟨⟨h.config.1, h.config.2, h.config.3, h.config.4, h.config.5, h.config.6, h.config.7, h.config.8, h.config.9, h.config.10⟩,
    ⟨h.storage.1, h.storage.2, h.storage.3, h.storage.4, h.storage.5⟩, hr⟩

/-- A constructed block with inputs to come. -/
def cartWith (t c r : Byte) (p : List Input) : State := { cart t c r [] with pending := p }

/-- A block of each specified kind meets the invariant: RomOnly without and with RAM, MBC1 of 128 banks, MBC2, MBC3 with a clock, MBC5
with a motor and 512 banks. -/
theorem witness_inv : ∀ p : List Input, (cartWith 0x00 0 0 p).Inv ∧ (cartWith 0x08 0 2 p).Inv ∧ (cartWith 0x03 6 3 p).Inv ∧
    (cartWith 0x06 3 0 p).Inv ∧ (cartWith 0x10 6 3 p).Inv ∧ (cartWith 0x1E 8 4 p).Inv ∧ (cartWith 0x22 0 0 p).Inv := fun _ =>
  ⟨builtState_inv (by decide) (by decide) (by decide) rfl (by decide) (by decide),
    builtState_inv (by decide) (by decide) (by decide) rfl (by decide) (by decide),
    builtState_inv (by decide) (by decide) (by decide) rfl (by decide) (by decide),
    builtState_inv (by decide) (by decide) (by decide) rfl (by decide) (by decide),
    builtState_inv (by decide) (by decide) (by decide) rfl (by decide) (by decide),
    builtState_inv (by decide) (by decide) (by decide) rfl (by decide) (by decide),
    builtState_inv (by decide) (by decide) (by decide) rfl (by decide) (by decide)⟩

/-- O2, O4, O11: well-formed instructions in a mode, and words that decode, at both ends of a range. -/
theorem witness_encoding :
    (∀ x ∈ ([(.mbc1WrBank1 0x2000 0x25, .mbc1), (.mbc1WrBank1 0x3FFF 0xFF, .mbc1), (.mmm01Any false 0xFFFF 0, .mmm01)]
      : List (Instr × MapperKind)), WellFormed x.1 ∧ x.2 ∈ x.1.modes) ∧
    decode .mbc5 0x12FFF01 = .ok (.mbc5WrRomb0 0x2FFF 0x01) ∧ decode .mbc7 0x0000055 = .ok (.mbc7Any false 0 0) ∧
    decodeTableWord 25 0x12FFF01 = some (.mbc5WrRomb0 0x2FFF 0x01) := by decide

/-- O3: every mode of a constructed block. -/
theorem witness_modes : ∀ m ∈ [MapperKind.romOnly, .mbc1, .mbc2, .mbc3, .mbc5, .mbc6, .mbc7, .mmm01], m ≠ .unsupported := by decide

/-- O5: a row of read words, and two read words of one address. -/
theorem witness_read_words : (∃ r ∈ opcodeTable, r.pattern &&& 0x1000000 = 0) ∧
    Word.isWrite 0x0400055 = false ∧ Word.isWrite 0x0400000 = false ∧ Word.addr 0x0400055 = Word.addr 0x0400000 := by
  refine ⟨⟨_, List.mem_cons_self, by decide⟩, by decide, by decide, by decide⟩

/-- O6, O7 and the statements over a range: the two ends of every range, as read and as write words. -/
theorem witness_ranges : ∀ x ∈ ([(0x0000, 0x1FFF), (0x2000, 0x2FFF), (0x2000, 0x3FFF), (0x3000, 0x3FFF), (0x4000, 0x5FFF), (0x6000, 0x7FFF),
      (0x0000, 0x3FFF), (0x4000, 0x7FFF), (0x0000, 0x7FFF), (0x8000, 0x9FFF), (0xA000, 0xBFFF), (0xC000, 0xFFFF)]
      : List (Nat × Nat)), ∀ n ∈ [x.1, x.2],
    Word.isWrite (enc (.read (BitVec.ofNat 16 n))) = false ∧ Word.isWrite (enc (.write (BitVec.ofNat 16 n) 0xFF)) = true ∧
    Addr.within x.1 x.2 (Word.addr (enc (.read (BitVec.ofNat 16 n)))) = true ∧
    Addr.within x.1 x.2 (Word.addr (enc (.write (BitVec.ofNat 16 n) 0xFF))) = true ∧ (BitVec.ofNat 16 n).toNat = n := by decide

/-- O10, O12: a pending bus transaction that decodes, on a specified and on a refused kind, and nothing pending. -/
theorem witness_bus : (cartWith 0x03 6 3 [.bus 0x1200005]).pending = .bus 0x1200005 :: [] ∧
    decode (cartWith 0x03 6 3 []).kind 0x1200005 = .ok (.mbc1WrBank1 0x2000 0x05) ∧
    (cartWith 0x03 6 3 []).kind ∈ [MapperKind.romOnly, .mbc1, .mbc2, .mbc3, .mbc5] ∧
    (cartWith 0x22 0 0 []).kind ∈ [MapperKind.mbc6, .mbc7, .mmm01] ∧ State.reset.pending = [] := by decide

/-- O13, O19, O21, O28: reads at the ends of the ROM windows and the unmapped ranges end in a next state. -/
theorem witness_reads : ∀ n ∈ [0x0000, 0x3FFF, 0x4000, 0x7FFF, 0x8000, 0x9FFF, 0xC000, 0xFFFF],
    ∀ k ∈ [MapperKind.romOnly, .mbc1, .mbc2, .mbc3, .mbc5], Word.isWrite (enc (.read (BitVec.ofNat 16 n))) = false ∧
    (next? (fun t => t.pending) (bus (.read (BitVec.ofNat 16 n)) { State.reset with kind := k })).isSome = true := by decide

/-- O14, O20: writes at the ends of the ROM region, the RAM region and elsewhere end in a next state. -/
theorem witness_writes : ∀ n ∈ [0x0000, 0x4000, 0x6000, 0x7FFF, 0xA000, 0xBFFF, 0x8000, 0x9FFF, 0xC000, 0xFFFF],
    ∀ k ∈ [MapperKind.romOnly, .mbc1, .mbc2, .mbc3, .mbc5], Word.isWrite (enc (.write (BitVec.ofNat 16 n) 0x0A)) = true ∧
    (next? (fun t => t.pending) (bus (.write (BitVec.ofNat 16 n) 0x0A) { State.reset with kind := k })).isSome = true := by decide

/-- O20: the kinds of its four ranges. -/
theorem witness_nop_kinds : (cart 0x00 0 0 []).kind = .romOnly ∧ (cart 0x06 0 0 []).kind = .mbc2 ∧ (cart 0x1E 0 0 []).kind = .mbc5 := by
  decide

/-- The image of 32 KiB of `0` constructs, over every table that gives type `0x00` a kind. -/
theorem witness_construct (p : List Input) (table : Byte → CartType) (hk : (table 0).kind ≠ .unsupported) :
    constructWith table (List.replicate 0x8000 0) { State.reset with pending := p } =
      .next (builtState (table 0) 0x8000 [] p) := by
  have h := constructWith_of_checks (table := table) (img := List.replicate 0x8000 0)
    (s := { State.reset with pending := p }) rfl
  rw [Memory.ofBytes_replicate_zero, List.length_replicate] at h
  exact h (by decide) hk (by decide) (by decide) rfl

/-- O16: from a state that meets the invariant, each kind of input ends in a next state. -/
theorem witness_steps : (∀ i ∈ ([.bus 0x1200005, .restore [] 0, .persist 0, .rtcTick 1, .sampleOutputs, .sensor 1 2]
      : List Input), (next? (fun t => t.pending) (step (cartWith 0x01 0 0 [i]))).isSome = true) ∧
    ∃ t, step { State.reset with pending := [.construct (List.replicate 0x8000 0)] } = .next t :=
  ⟨by decide, _, witness_construct [] cartTypeTable (by decide)⟩

/-- O17, O43: a run of two steps, a clock write and a tick, neither a construction nor a latch. -/
theorem witness_run : ∃ (s t : State) (r : Rtc), s.rtc = some r ∧ Host.Core.run Sys2Proof.core 2 s = .next t ∧
    (∀ i ∈ s.pending.take 2, i.isConstruct = false) ∧ (t.ramEnabled = true ∧ t.ramBankNumber.toNat = 8 + (0 : Fin 5).val) ∧
    ∀ k < 2, ∀ u : State, Host.Core.run Sys2Proof.core k s = .next u → latchesNext u = false ∧ constructsNext u = false := by
  refine ⟨{ cartWith 0x10 0 3 [.bus (enc (.write 0xA000 0x07)), .rtcTick 1] with ramEnabled := true, ramBankNumber := 8 },
    _, Rtc.reset, rfl, rfl, by decide, by decide, ?_⟩
  intro k hk u hu
  match k, hk with
  | 0, _ => cases hu; decide
  | 1, _ => cases hu; decide

/-- O17, O58: a constructed block, whose session has begun, runs a transaction and then refuses a construction; before the session, a
run of two inputs that construct nothing. -/
theorem witness_session : (cartWith 0x01 0 0 [.bus 0x1200005, .construct []]).begun = true ∧
    (∃ t, Host.Core.run Sys2Proof.core 1 (cartWith 0x01 0 0 [.bus 0x1200005, .construct []]) = .next t) ∧
    (∃ t, Host.Core.run Sys2Proof.core 2 { State.reset with pending := [.bus 0, .persist 0] } = .next t) ∧
    (∀ i ∈ ([.bus 0, .persist 0] : List Input), i.isConstruct = false) := by
  refine ⟨rfl, ⟨_, rfl⟩, ⟨_, rfl⟩, by decide⟩

/-- O18: an input that is no construction, and the two inputs that are refused with a carried state. -/
theorem witness_refused : constructsNext (cartWith 0x01 0 0 [.bus 0x1200005]) = false ∧
    (∃ t, step (cartWith 0x01 0 0 [.bus 0x1200005]) = .next t) ∧
    (∃ k u, step (cartWith 0x22 0 0 [.bus 0]) = .refused (.unmodelledVariant k u)) ∧
    ∃ k u, step (cartWith 0x22 0 0 [.persist 0]) = .refused (.unmodelledVariant k u) :=
  ⟨by decide, ⟨_, rfl⟩, ⟨_, _, rfl⟩, _, _, rfl⟩

/-- O58: each input of R242 leaves a constructed block not fresh; a session refuses construction and a failed open, and a block that is
not fresh refuses a restore. -/
theorem witness_refusals :
    (∀ i ∈ ([.bus 0x1200005, .rtcTick 0, .restore [] 0] : List Input),
      next? (fun t => (t.begun, t.fresh)) (step (cartWith 0x01 0 0 [i])) = some (true, false)) ∧
    (∀ i ∈ ([.construct [], .openFailed] : List Input),
      refusal? (step (cartWith 0x01 0 0 [i])) = some .alreadyConstructed) ∧
    refusal? (step { cartWith 0x01 0 0 [.restore [] 0] with fresh := false }) = some .restoreNotFresh := by decide

/-- O22, O36, O37, O40: RAM present, absent, enabled and disabled, in canonical form, at the ends of the RAM region. -/
theorem witness_ram : 0 < (cart 0x08 0 2 []).ramLen ∧ (cart 0x00 0 0 []).ramLen = 0 ∧ Memory.wf (cart 0x08 0 2 []).ram = true ∧
    0 < (cart 0x03 0 2 []).ramLen ∧ (cart 0x03 0 2 []).kind = .mbc1 ∧ (cart 0x1E 0 2 []).kind = .mbc5 ∧
    (cart 0x03 0 2 []).ramEnabled = false ∧ Memory.wf [(0, 1)] = true ∧
    (∀ n ∈ [0xA000, 0xBFFF], Addr.within 0xA000 0xBFFF (BitVec.ofNat 16 n) = true) :=
  ⟨by decide, rfl, rfl, by decide, rfl, rfl, rfl, by decide, by decide⟩

/-- A block of type `t` in use, with its bank registers at `b` and `rb`, RAM enabled. -/
def inUse (t c r : Byte) (b : BitVec 9) (rb : BitVec 8) (m : BankingMode) : State :=
  { cartWith t c r [] with
    romBankNumber := b, ramBankNumber := rb, ramEnabled := true, fresh := false, bankingMode := m, pending := [] }

/-- O41, O29, O27: blocks in use with RAM enabled that meet the invariant, each register at the end of its range. -/
theorem witness_in_use :
    ((inUse 0x03 6 3 0x1F 3 .advanced).Inv ∧ (inUse 0x03 6 3 0x1F 3 .advanced).kind = .mbc1 ∧ 0 < (inUse 0x03 6 3 0x1F 3 .advanced).ramLen ∧
      (inUse 0x03 6 3 0x1F 3 .advanced).romBankCount = 128) ∧
    ((inUse 0x06 3 0 0x0F 0 .simple).Inv ∧ (inUse 0x06 3 0 0x0F 0 .simple).kind = .mbc2 ∧ 0 < (inUse 0x06 3 0 0x0F 0 .simple).ramLen) ∧
    ((inUse 0x10 6 3 0x7F 3 .simple).Inv ∧ (inUse 0x10 6 3 0x7F 3 .simple).kind = .mbc3 ∧ 0 < (inUse 0x10 6 3 0x7F 3 .simple).ramLen ∧
      (inUse 0x10 6 3 0x7F 3 .simple).ramBankNumber.toNat ≤ 3) ∧
    ((inUse 0x1E 8 4 0x1FF 7 .simple).Inv ∧ (inUse 0x1E 8 4 0x1FF 7 .simple).kind = .mbc5 ∧ 0 < (inUse 0x1E 8 4 0x1FF 7 .simple).ramLen) :=
  ⟨⟨inv_of_regs (witness_inv []).2.2.1 _ _ _ _ _ _ (by constructor <;> decide), rfl, by decide, rfl⟩,
    ⟨inv_of_regs (witness_inv []).2.2.2.1 _ _ _ _ _ _ (by constructor <;> decide), rfl, by decide⟩,
    ⟨inv_of_regs (witness_inv []).2.2.2.2.1 _ _ _ _ _ _ (by constructor <;> decide), rfl, by decide, by decide⟩,
    ⟨inv_of_regs (witness_inv []).2.2.2.2.2.1 _ _ _ _ _ _ (by constructor <;> decide), rfl, by decide⟩⟩

/-- O41: the data of its disabling and enabling writes. -/
theorem witness_gate_data : (0x00 : Byte).toNat % 16 ≠ 10 ∧ (0xA0 : Byte).toNat % 16 ≠ 10 ∧ (0x0A : Byte).toNat % 16 = 10 ∧
    (0xFA : Byte).toNat % 16 = 10 := by decide

/-- O21, O23 to O27, O29: ROM addresses at the ends of the windows, an image of 32 banks, and data that store `0`. -/
theorem witness_rom : (∀ n ∈ [0x0000, 0x3FFF], (BitVec.ofNat 16 n).toNat ≤ 0x3FFF) ∧
    (∀ n ∈ [0x0000, 0x7FFF], (BitVec.ofNat 16 n).toNat ≤ 0x7FFF) ∧
    (∀ n ∈ [0x4000, 0x7FFF], Addr.within 0x4000 0x7FFF (BitVec.ofNat 16 n) = true) ∧
    0x8000 ≤ State.reset.romLen ∧ State.romLen { State.reset with romLen := 0x80000 } = 0x4000 * 2 ^ 5 ∧
    State.romBankNumber { State.reset with romBankNumber := 0 } = 0 ∧
    (∀ d ∈ ([0x00, 0x20, 0xE0] : List Byte), d.toNat % 0x20 = 0) ∧ (∀ d ∈ ([0x00, 0x80] : List Byte), d.toNat % 0x80 = 0) := by
  decide

/-- O28: the kinds of the blocks of `witness_inv`, each specified one among them. -/
theorem witness_kinds (p : List Input) : (cartWith 0x00 0 0 p).kind = .romOnly ∧ (cartWith 0x03 6 3 p).kind = .mbc1 ∧
    (cartWith 0x06 3 0 p).kind = .mbc2 ∧ (cartWith 0x10 6 3 p).kind = .mbc3 ∧ (cartWith 0x1E 8 4 p).kind = .mbc5 ∧
    (cartWith 0x22 0 0 p).kind = .mbc7 ∧ (cartWith 0x1E 8 4 p).pending = p := ⟨rfl, rfl, rfl, rfl, rfl, rfl, rfl⟩

/-- O34, O35: cartridges with and without a motor, the RAMB write at the ends of its range, and a step that is none. -/
theorem witness_rumble : (cart 0x1E 0 0 []).hasRumble = true ∧ (cart 0x1B 0 0 []).hasRumble = false ∧
    (∀ n ∈ [0x4000, 0x5FFF], writesWithin 0x4000 0x5FFF (enc (.write (BitVec.ofNat 16 n) 0x08)) = true ∧
      next? (fun t => t.rumbleOut) (bus (.write (BitVec.ofNat 16 n) 0x08) { State.reset with kind := .mbc5, hasRumble := true }) = some true) ∧
    (∀ n ∈ [0x3FFF, 0x6000], writesWithin 0x4000 0x5FFF (enc (.write (BitVec.ofNat 16 n) 0x08)) = false ∧
      next? (fun t => t.rumbleOut) (bus (.write (BitVec.ofNat 16 n) 0x08) { State.reset with kind := .mbc5, hasRumble := true }) = some false) ∧
    constructsNext { State.reset with pending := [.bus 0x1400008] } = false :=
  ⟨rfl, rfl, by decide, by decide, by decide⟩

/-- O38: an enabled and a disabled MBC2 block, a cell of 4 bits and canonical memory. -/
theorem witness_mbc2 : State.ramEnabled { cart 0x06 0 0 [] with ramEnabled := true, ram := [(511, 15)] } = true ∧
    (cart 0x06 0 0 []).ramEnabled = false ∧ (Memory.read [(511, 15)] ((0xBFFF : Addr).toNat % 0x200)).toNat < 16 ∧
    Memory.wf [(511, 15)] = true := by decide

/-- O39, O40: select values at the ends of every range, with and without a clock. -/
theorem witness_select : (∀ v ∈ ([0, 3] : List Byte), v.toNat ≤ 3) ∧ (0x08 : Byte).toNat = 8 + (0 : Fin 5).val ∧
    (0x0C : Byte).toNat = 8 + (4 : Fin 5).val ∧ (∀ v ∈ ([0x0D, 0xFF] : List Byte), 0x0D ≤ v.toNat) ∧ 8 ≤ (0x08 : Byte).toNat ∧
    (cart 0x10 0 3 []).rtc = some Rtc.reset ∧ (cart 0x13 0 3 []).rtc = none ∧
    State.ramEnabled { cart 0x10 0 3 [] with ramEnabled := true } = true := by decide

/-- O42: steps that are no LATCH write, next to the LATCH range. -/
theorem witness_latch : ∀ n ∈ [0x5FFF, 0x8000], writesWithin 0x6000 0x7FFF (enc (.write (BitVec.ofNat 16 n) 0x00)) = false ∧
    constructsNext { State.reset with pending := [.bus (enc (.write (BitVec.ofNat 16 n) 0x00))] } = false ∧
    (next? (fun t => t.rtc) (bus (.write (BitVec.ofNat 16 n) 0x00) { State.reset with kind := .mbc3, rtc := some Rtc.reset })).isSome = true := by
  decide

/-- O45 to O47: a running clock at the end of its range, clocks with the halt bit clear for each case of O46 at its bounds (a field at
60, 63, 24 or 31, and the last second of day 511), and a halted one. -/
theorem witness_clock : RtcRegs.Running ⟨59, 59, 23, 0xFF, 0x01⟩ ∧ RtcRegs.Running ⟨0, 0, 0, 0, 0x81⟩ ∧
    ((0x00 : Byte).getLsbD 6 = false ∧ (0x81 : Byte).getLsbD 6 = false) ∧
    (∀ s ∈ ([0, 58, 60, 63] : List Byte), s.toNat % 64 ≠ 59) ∧
    ((59 : Byte).toNat % 64 = 59 ∧ ∀ m ∈ ([0, 58, 60, 63] : List Byte), m.toNat % 64 ≠ 59) ∧
    (∀ h ∈ ([0, 22, 24, 31] : List Byte), h.toNat % 32 ≠ 23) ∧ (23 : Byte).toNat % 32 = 23 ∧
    (0xFF : Byte).toNat + 256 * ((0x81 : Byte).toNat % 2) = 511 ∧ (0x40 : Byte).getLsbD 6 = true := by
  refine ⟨?_, ?_, by decide, by decide, by decide, by decide, by decide, by decide, by decide⟩ <;> constructor <;> decide

/-- O44, O48: a tick of one second pending on a block with a clock and on one without, and before the session has begun. -/
theorem witness_tick : State.begun { State.reset with pending := [.rtcTick 1] } = false ∧
    next? (fun t => t.begun) (step { State.reset with pending := [.rtcTick 1] }) = some true ∧
    (cartWith 0x10 0 3 [.rtcTick 1]).pending = .rtcTick 1 :: [] ∧ (cartWith 0x10 0 3 []).rtc = some Rtc.reset ∧
    (cartWith 0x13 0 3 []).rtc = none ∧ 0 < (cartWith 0x10 0 3 []).ramLen := by decide

/-- O49, O52: persist, sampling and the sensor pending, on kinds of both sides. -/
theorem witness_host : (cartWith 0x01 0 0 [.persist 0]).pending = .persist 0 :: [] ∧
    (cartWith 0x01 0 0 []).kind ∉ [MapperKind.mbc6, .mbc7, .mmm01] ∧ (cartWith 0x22 0 0 []).kind ∈ [MapperKind.mbc6, .mbc7, .mmm01] ∧
    (cartWith 0x01 0 0 [.sampleOutputs]).pending = .sampleOutputs :: [] ∧ (cartWith 0x22 0 0 []).kind = .mbc7 ∧
    (cartWith 0x01 0 0 []).kind ≠ .mbc7 ∧ (cartWith 0x22 0 0 [.sensor 1 2]).pending = .sensor 1 2 :: [] := by decide

/-- O50, O54, O55: a restore, a construction and a failed open pending before the session has begun, and a restore after. -/
theorem witness_pending_host : State.begun { State.reset with pending := [.restore [] 0] } = false ∧
    next? (fun t => (t.begun, t.fresh)) (step { State.reset with pending := [.restore [] 0] }) = some (true, false) ∧
    (cartWith 0x0F 0 0 [.restore [] 0]).begun = true ∧ (cartWith 0x0F 0 0 [.restore [] 0]).pending = .restore [] 0 :: [] ∧
    fault? (step { State.reset with pending := [.construct [1, 2]] }) = some (.tooShort 2) ∧
    fault? (step { State.reset with pending := [.openFailed] }) = some .notFound := by decide

/-- O50, O51: a block in use, a fresh one with a buffer of another and of the expected length, and two blocks of one cartridge. -/
theorem witness_restore : State.fresh { cart 0x0F 0 0 [] with fresh := false } = false ∧ (cart 0x0F 0 0 []).fresh = true ∧
    ([] : List Byte).length ≠ expectedLen (cart 0x0F 0 0 []) ∧ (List.replicate 16 (0 : Byte)).length = expectedLen (cart 0x0F 0 0 []) ∧
    (cart 0x0F 0 0 []).rtc = some Rtc.reset ∧ (cart 0x08 0 0 []).rtc = none ∧
    (cart 0x10 0 3 [(0, 1)]).ramLen = (cart 0x10 6 3 []).ramLen ∧ (cart 0x10 0 3 [(0, 1)]).hasRtc = (cart 0x10 6 3 []).hasRtc ∧
    (cart 0x10 0 3 [(0, 1)]).kind = (cart 0x10 6 3 []).kind ∧ (cart 0x10 6 3 []).kind ∉ [MapperKind.mbc6, .mbc7, .mmm01] := by decide

/-- O53: a pending input that is no construction, sampling or sensor input, and a step that answers. -/
theorem witness_unread : (∀ i ∈ (cartWith 0x01 0 0 [.bus 0x1200005]).pending.head?,
      i.isConstruct = false ∧ i ≠ .sampleOutputs ∧ ∀ sx sy, i ≠ .sensor sx sy) ∧
    ∃ t, step (cartWith 0x01 0 0 [.bus 0x1200005]) = .next t := by
  refine ⟨?_, _, rfl⟩
  intro i hi
  cases hi
  exact ⟨rfl, by decide, fun _ _ h => by cases h⟩

/-- O54, O56: an image that constructs under the spec's table. -/
theorem witness_constructs : ∃ t, constructWith cartTypeTable (List.replicate 0x8000 0) State.reset = .next t :=
  ⟨_, witness_construct [] cartTypeTable (by decide)⟩

/-- The bytes of a constant image with one byte of another value. -/
theorem getD_replicate_set {n k j : Nat} {b c : Byte} (h : k < n) (hk : k ≠ j) :
    ((List.replicate n b).set j c).getD k 0 = (List.replicate n b).getD k 0 := by
  simp [List.getD_eq_getElem?_getD, hk.symm, h]

/-- O56: an image and another of its length and its type and size bytes, with another checksum byte. -/
theorem witness_other_image : ((List.replicate 0x8000 (0 : Byte)).set 0x14D 0xE7).length = (List.replicate 0x8000 (0 : Byte)).length ∧
    ∀ a ∈ [0x147, 0x148, 0x149],
      ((List.replicate 0x8000 (0 : Byte)).set 0x14D 0xE7).getD a 0 = (List.replicate 0x8000 (0 : Byte)).getD a 0 := by
  refine ⟨List.length_set, fun a ha => getD_replicate_set ?_ ?_⟩ <;>
    (simp only [List.mem_cons, List.not_mem_nil, or_false] at ha; omega)

/-- A byte of a constant image. -/
theorem replicate_getD {n k : Nat} (b : Byte) (h : k < n) : (List.replicate n b).getD k 0 = b := by
  simp [List.getD_eq_getElem?_getD, h]

/-- O55: for every check a block before its session, a table and an image it fails at, next to the bound, and an image that passes them all. -/
theorem witness_checks : State.reset.begun = false ∧ (List.replicate 0x14F (0 : Byte)).length < 0x150 ∧
    0x150 ≤ (List.replicate 0x150 (0xFF : Byte)).length ∧
    (cartTypeTable ((List.replicate 0x150 (0xFF : Byte)).getD 0x147 0)).kind = .unsupported ∧
    (cartTypeTable ((List.replicate 0x150 (0x09 : Byte)).getD 0x147 0)).kind ≠ .unsupported ∧
    8 < ((List.replicate 0x150 (0x09 : Byte)).getD 0x148 0).toNat ∧
    (cartTypeTable ((List.replicate 0x150 (0x06 : Byte)).getD 0x147 0)).kind ≠ .unsupported ∧
    5 < ((List.replicate 0x150 (0x06 : Byte)).getD 0x149 0).toNat ∧
    (cartTypeTable ((List.replicate 0x150 (0x05 : Byte)).getD 0x147 0)).kind ≠ .unsupported ∧
    ((List.replicate 0x150 (0x05 : Byte)).getD 0x148 0).toNat ≤ 8 ∧ ((List.replicate 0x150 (0x05 : Byte)).getD 0x149 0).toNat ≤ 5 ∧
    (List.replicate 0x150 (0x05 : Byte)).length ≠ 0x8000 * 2 ^ ((List.replicate 0x150 (0x05 : Byte)).getD 0x148 0).toNat ∧
    (List.replicate 0x8000 (0 : Byte)).length = 0x8000 * 2 ^ ((List.replicate 0x8000 (0 : Byte)).getD 0x148 0).toNat := by
  simp (disch := decide) only [List.length_replicate, replicate_getD]
  decide

/-- O60: every pseudo-instruction in a mode that has it, its words pending. -/
theorem witness_pseudo : (∀ x ∈ ([(0x03, .enram), (0x06, .disram), (0x03, .selrom 0x60), (0x06, .selrom 0), (0x10, .selrom 0xFF),
      (0x1E, .selrom 0x1FF), (0x10, .selram 0x0C), (0x03, .selram 0xFF), (0x1B, .selram 0xFF), (0x1E, .selram 0xFF), (0x03, .mode .simple), (0x03, .mode .advanced), (0x10, .latch)]
      : List (Byte × Pseudo)), (Pseudo.expand (cart x.1 0 0 []).kind x.2).isSome = true) ∧
    Pseudo.expand (cart 0x10 0 3 []).kind .latch = some [.write 0x6000 0x00, .write 0x6000 0x01] ∧
    (cartWith 0x10 0 3 [.bus 0x1600000, .bus 0x1600001]).pending =
      ([.write 0x6000 0x00, .write 0x6000 0x01].map fun t => Input.bus (enc t)) ++ [] := by decide


end Sys2Proof.Tests
end

section
/-! What a step computes, by the first pending input (00_scope.md R6, R73, R74, R100, R102), and the obligation about it. -/

namespace Sys2Proof.Machine

/-- With nothing pending a step changes nothing (log entry 2). -/
theorem step_of_pending_nil {s : State} (hp : s.pending = []) : step s = .next s := by
  rw [step, hp]

/-- A step runs the first pending input on the state with that input consumed. -/
theorem step_of_pending_cons {s : State} {i : Input} {rest : List Input} (hp : s.pending = i :: rest) :
    step s = runInput i { s with pending := rest } := by
  rw [step, hp]

/-- A transaction whose word decodes in the mode of the block is the meaning of the decoded instruction. -/
theorem busTransaction_of_decode {s : State} {T : Word} {i : Instr} (hd : decode s.kind T = .ok i) :
    busTransaction T s = exec i { s with fresh := false } := by
  rw [busTransaction, hd]

/-- A step with a bus transaction whose word decodes runs the decoded instruction. -/
theorem step_of_bus_decode {s : State} {T : Word} {rest : List Input} {i : Instr} (hp : s.pending = .bus T :: rest)
    (hd : decode s.kind T = .ok i) : step s = exec i { s with pending := rest, begun := true, fresh := false } :=
  calc step s
    _ = busTransaction T (State.begin { s with pending := rest }) := step_of_pending_cons hp
    _ = exec i { s with pending := rest, begun := true, fresh := false } := busTransaction_of_decode hd

/-- Settles O10, by the first pending input: a transaction that decodes, or none. -/
theorem stepRunsTheDecodedTransaction : Obligations.StepRunsTheDecodedTransaction :=
  ⟨fun _ _ _ _ hp hd => step_of_bus_decode hp hd, fun _ hp => step_of_pending_nil hp⟩

end Sys2Proof.Machine
end
section
/-! The row a decoded instruction comes from (30_encoding.md R73 to R75): its mode, its mnemonic, and the row found from the direction
and the top nibble of the address. -/

namespace Sys2Proof

/-- A row's instruction has the row's modes and mnemonic, whatever the fields of the word (R75). -/
theorem build_modes_mnemonic : ∀ r ∈ opcodeTable, ∀ (w : Bool) (a : Addr) (d : Byte),
    (r.build w a d).modes = r.modes ∧ (r.build w a d).mnemonic = r.mnemonic := by
  simp [opcodeTable, commonRows, romOnlyRows, mbc1Rows, mbc2Rows, mbc3Rows, mbc5Rows, refusedRows, Instr.modes,
    Instr.mnemonic]

/-- An instruction is decoded only in a mode in which its row exists (R73). -/
theorem mode_mem_of_decode {m : MapperKind} {T : Word} {i : Instr} (h : decode m T = .ok i) : m ∈ i.modes := by
  obtain ⟨r, hr, rfl⟩ := find_of_decode h
  have hfits := List.find?_some hr
  rw [Row.fits, Bool.and_eq_true] at hfits
  rw [(build_modes_mnemonic r (List.mem_of_find?_eq_some hr) _ _ _).1]
  exact of_decide_eq_true hfits.1

/-- The mnemonic of a decoded instruction is that of the row found at the word's top bits. -/
theorem mnemonic_of_decode {m : MapperKind} {T : Word} {i : Instr} (h : decode m T = .ok i) :
    (opcodeTable.find? (Row.fits m (Word.ofTop (Word.top T)))).map Row.mnemonic = some i.mnemonic := by
  obtain ⟨r, hr, rfl⟩ := find_of_decode h
  rw [hr, (build_modes_mnemonic r (List.mem_of_find?_eq_some hr) _ _ _).2]
  rfl

/-- The top bits of a word as a number: the direction and the top nibble of the address. -/
theorem top_toNat (T : Word) :
    (Word.top T).toNat = (if Word.isWrite T then 16 else 0) + (Word.addr T).toNat / 0x1000 := by
  have hlt := (Word.top T).isLt
  have hw := isWrite_eq_top T
  rw [BitVec.getLsbD, Nat.testBit_eq_decide_div_mod_eq] at hw
  rw [addr_div_eq_top, hw]
  split
  · next h => have := of_decide_eq_true h; omega
  · next h => have := of_decide_eq_false (Bool.eq_false_iff.2 h); omega

/-- A word whose top bits stand in a range in which the decode map's row number `row` is found decodes to that row's instruction. -/
theorem decode_of_topRange {m : MapperKind} {T : Word} {lo hi row : Nat} {r : Row}
    (htab : ∀ h : BitVec 5, lo ≤ h.toNat → h.toNat ≤ hi →
      opcodeTable.findIdx? (Row.fits m (Word.ofTop h)) = some row)
    (hr : opcodeTable[row]? = some r) (hlo : lo ≤ (Word.top T).toNat) (hhi : (Word.top T).toNat ≤ hi) :
    decode m T = .ok (r.build (Word.isWrite T) (Word.addr T) (Word.data T)) := by
  apply decode_of_find
  obtain ⟨hk, hfit, hbefore⟩ := List.findIdx?_eq_some_iff_getElem.1 (htab _ hlo hhi)
  rw [List.find?_eq_some_iff_getElem]
  obtain ⟨_, hrk⟩ := List.getElem?_eq_some_iff.1 hr
  exact ⟨hrk ▸ hfit, row, hk, hrk, fun j hj => by simpa using hbefore j hj⟩

end Sys2Proof
end

section
/-! What the meaning of an instruction can do in a mode that has its row, with the bounds of what it writes (10_state.md R24 to R30).
`Effect` says which fields change; this says by how much, and which instruction may drive the motor. -/

namespace Sys2Proof.Machine

/-- What instruction `i` can make of a block in one of its modes. -/
inductive ModeEffect (i : Instr) (s : State) : State → Prop where
  | byte (b : Byte) : ModeEffect i s { s with output := .byte b }
  | nothing : ModeEffect i s { s with output := .nothing }
  | cell {k : Nat} (b : Byte) (hk : s.kind ≠ .mbc2) (hlt : k < s.ramLen) :
      ModeEffect i s { s with ram := Memory.write s.ram k b, output := .nothing }
  | nibble {k : Nat} {b : Byte} (hk : s.kind = .mbc2) (hlt : k < Config.mbc2RamLen) (hb : b.toNat < 16) :
      ModeEffect i s { s with ram := Memory.write s.ram k b, output := .nothing }
  | gate (b : Bool) (hg : hasRamGate s.kind = true) : ModeEffect i s { s with ramEnabled := b, output := .nothing }
  | romBank {b : BitVec 9} (hg : hasRamGate s.kind = true) (hb : b.toNat < romBankBound s.kind) :
      ModeEffect i s { s with romBankNumber := b, output := .nothing }
  | ramBank {b : BitVec 8} (hb : b.toNat < ramBankBound s.kind s.hasRumble) :
      ModeEffect i s { s with ramBankNumber := b, output := .nothing }
  | mode (m : BankingMode) (hk : s.kind = .mbc1) : ModeEffect i s { s with bankingMode := m, output := .nothing }
  | ramb {a : Addr} {d : Byte} (hi : i = .mbc5WrRamb a d) (hk : s.kind = .mbc5) :
      ModeEffect i s { s with
        ramBankNumber := mbc5RambValue s.hasRumble d
        rumbleOut := if s.hasRumble then rumbleOfData d else s.rumbleOut
        output := .nothing }
  | rtc (f : Rtc → Rtc) : ModeEffect i s { s with rtc := s.rtc.map f, output := .nothing }

namespace ModeEffect

variable {i : Instr} {s t : State} {a : Addr} {d : Byte} {b : Nat}

theorem of_answer {v : Byte} (h : answer v s = .next t) : ModeEffect i s t := answer_eq_next.1 h ▸ .byte v

theorem of_done (h : done s = .next t) : ModeEffect i s t := done_eq_next.1 h ▸ .nothing

theorem of_readRamBank (h : readRamBank b a s = .next t) : ModeEffect i s t := by
  unfold readRamBank at h
  split at h <;> exact of_answer h

/-- Behind an open gate of a RAM that exists, the offset stands in the buffer (R55). -/
theorem of_writeRamBank (hk : s.kind ≠ .mbc2) (h : writeRamBank b a d s = .next t) : ModeEffect i s t := by
  unfold writeRamBank at h
  split at h
  · next hok =>
    rw [ramAccessOk, Bool.and_eq_true, decide_eq_true_eq] at hok
    exact done_eq_next.1 h ▸ .cell d hk (ramOff_lt hok.2 b a)
  · exact of_done h

theorem of_writeRamGate (hg : hasRamGate s.kind = true) (h : writeRamGate d s = .next t) : ModeEffect i s t :=
  done_eq_next.1 h ▸ .gate _ hg

theorem of_readRtc {j : Fin 5} (h : readRtc j s = .next t) : ModeEffect i s t := by
  unfold readRtc at h
  split at h <;> exact of_answer h

theorem of_writeRtc {j : Fin 5} (h : writeRtc j d s = .next t) : ModeEffect i s t := by
  unfold writeRtc at h
  split at h
  · next r hr =>
    have hmap : some { r with live := r.live.set j d } = s.rtc.map fun r => { r with live := r.live.set j d } := by
      rw [hr, Option.map_some]
    rw [done_eq_next, hmap] at h
    exact h ▸ .rtc _
  · exact of_done h

/-- A RAM write of a variant that is not MBC2, without a gate or behind one that is open (R112, R181). -/
theorem of_ramWrite (hk : s.kind ≠ .mbc2)
    (h : (if 0 < s.ramLen then done { s with ram := Memory.write s.ram (ramOff s.ramLen b a) d } else done s) =
      .next t) : ModeEffect i s t := by
  split at h
  · next hlen => exact done_eq_next.1 h ▸ .cell d hk (ramOff_lt hlen b a)
  · exact of_done h

end ModeEffect

theorem kind_eq_of_mem {k m : MapperKind} (h : k ∈ [m]) : k = m := List.mem_singleton.1 h

/-- A register write of a mode whose RAM gate exists, within the bits in use there (R24). -/
theorem ModeEffect.of_romBank {i : Instr} {s t : State} {m : MapperKind} {v : BitVec 9} (hk : s.kind = m)
    (hg : hasRamGate m = true) (hb : v.toNat < romBankBound m) (h : done { s with romBankNumber := v } = .next t) :
    ModeEffect i s t := by
  subst hk
  exact done_eq_next.1 h ▸ .romBank hg hb

/-- A write of the RAM bank register, within the bits in use in the mode (R25). -/
theorem ModeEffect.of_ramBank {i : Instr} {s t : State} {m : MapperKind} {v : BitVec 8} (hk : s.kind = m)
    (hb : ∀ r, v.toNat < ramBankBound m r) (h : done { s with ramBankNumber := v } = .next t) : ModeEffect i s t := by
  subst hk
  exact done_eq_next.1 h ▸ .ramBank (hb _)

/-- What MBC2 stores in a cell: the low nibble (R158). -/
theorem and_0x0F_toNat (d : Byte) : (d &&& 0x0F).toNat = d.toNat % 16 := by
  revert d; decide

/-- In a mode that has its row, the meaning of any instruction stays within the bounds. -/
theorem exec_modeEffect {i : Instr} {s t : State} (hm : s.kind ∈ i.modes) (h : exec i s = .next t) :
    ModeEffect i s t := by
  cases i with
  | rdUnmappedLo a | rdUnmappedHi a | roRdRom a | mbc1RdRom0 a | mbc1RdRomx a | mbc2RdRom0 a | mbc2RdRomx a
  | mbc3RdRom0 a | mbc3RdRomx a | mbc5RdRom0 a | mbc5RdRomx a => exact .of_answer h
  | wrUnmappedLo a d | wrUnmappedHi a d | roWrRom a d | mbc2WrNop a d | mbc5WrNop a d => exact .of_done h
  | mbc1RdRam a | mbc5RdRam a => exact .of_readRamBank h
  | mbc1WrRamg a d | mbc2WrRamg a d | mbc3WrRamg a d | mbc5WrRamg a d =>
    exact .of_writeRamGate (kind_eq_of_mem hm ▸ rfl) h
  | mbc1WrRam a d | mbc5WrRam a d => exact .of_writeRamBank (kind_eq_of_mem hm ▸ by decide) h
  | mbc1WrBank1 a d =>
    exact .of_romBank (kind_eq_of_mem hm) rfl (mbc1Bank1Value_toNat d ▸ Nat.mod_lt _ (by decide)) h
  | mbc2WrRomb a d =>
    exact .of_romBank (kind_eq_of_mem hm) rfl (mbc2RombValue_toNat d ▸ Nat.mod_lt _ (by decide)) h
  | mbc3WrRomb a d =>
    exact .of_romBank (kind_eq_of_mem hm) rfl (mbc3RombValue_toNat d ▸ Nat.mod_lt _ (by decide)) h
  | mbc5WrRomb0 a d | mbc5WrRomb1 a d => exact .of_romBank (kind_eq_of_mem hm) rfl (BitVec.isLt _) h
  | mbc1WrBank2 a d =>
    exact .of_ramBank (kind_eq_of_mem hm) (fun _ => mbc1Bank2Value_toNat d ▸ Nat.mod_lt _ (by decide)) h
  | mbc3WrSel a d => exact .of_ramBank (kind_eq_of_mem hm) (fun _ => d.isLt) h
  | mbc1WrMode a d => exact done_eq_next.1 h ▸ .mode _ (kind_eq_of_mem hm)
  | mbc3WrLatch a d => exact done_eq_next.1 h ▸ .rtc _
  | mbc5WrRamb a d => exact done_eq_next.1 h ▸ .ramb rfl (kind_eq_of_mem hm)
  | roRdRam a =>
    simp only [exec, execRoRdRam] at h
    split at h <;> exact .of_answer h
  | roWrRam a d => exact .of_ramWrite (kind_eq_of_mem hm ▸ by decide) h
  | mbc2RdRam a =>
    simp only [exec, execMbc2RdRam] at h
    split at h <;> exact .of_answer h
  | mbc2WrRam a d =>
    simp only [exec, execMbc2WrRam] at h
    split at h
    · exact done_eq_next.1 h ▸ .nibble (kind_eq_of_mem hm) (mbc2Cell_lt a)
        (and_0x0F_toNat d ▸ Nat.mod_lt _ (by decide))
    · exact .of_done h
  | mbc3RdRam a =>
    simp only [exec, execMbc3RdRam] at h
    split at h
    · split at h
      · split at h <;> exact .of_answer h
      · exact .of_readRtc h
      · exact .of_answer h
    · exact .of_answer h
  | mbc3WrRam a d =>
    simp only [exec, execMbc3WrRam] at h
    split at h
    · split at h
      · exact .of_ramWrite (kind_eq_of_mem hm ▸ by decide) h
      · exact .of_writeRtc h
      · exact .of_done h
    · exact .of_done h
  | mbc6Any w a d | mbc7Any w a d | mmm01Any w a d => exact absurd h refuseVariant_ne_next

/-- A bus transaction that ends in a next state does what an instruction of the block's mode can do. -/
theorem modeEffect_of_decode {T : Word} {i : Instr} {s t : State} (he : exec i s = .next t)
    (hd : decode s.kind T = .ok i) : ModeEffect i s t := exec_modeEffect (mode_mem_of_decode hd) he

end Sys2Proof.Machine
end

section
/-! The invariant under each change a step makes (10_state.md R23 to R30), and the obligation that every step keeps it. -/

namespace Sys2Proof.Machine

namespace State.Inv

variable {s : State}

/-- What a step gave back is in no clause of the invariant. -/
theorem setOutput (h : s.Inv) (o : Output) : State.Inv { s with output := o } :=
  ⟨{ h.config with }, { h.storage with }, { h.regs with }⟩

/-- Taking an input begins the session (R285). -/
theorem beginWith (h : s.Inv) (rest : List Input) : State.Inv { s with pending := rest, begun := true } :=
  ⟨{ h.config with }, { h.storage with }, { h.regs with session := fun _ => rfl }⟩

/-- A block whose session has begun may stop being fresh. -/
theorem setNotFresh (h : s.Inv) (hb : s.begun = true) : State.Inv { s with fresh := false } :=
  ⟨{ h.config with }, { h.storage with }, { h.regs with session := fun _ => hb }⟩

/-- RAM content in canonical form inside the buffer, of 4 bits a cell on MBC2 (R28). -/
theorem setRam (h : s.Inv) {m : Memory} (hw : Memory.wf m = true) (hb : Memory.below s.ramLen m = true)
    (hn : s.kind = .mbc2 → ∀ i, (Memory.read m i).toNat < 16) : State.Inv { s with ram := m } :=
  ⟨{ h.config with }, { h.storage with ramWf := hw, ramBelow := hb, nibbles := hn }, { h.regs with }⟩

/-- A cell written inside the buffer, with 4 bits on MBC2. -/
theorem writeRam (h : s.Inv) {k : Nat} {b : Byte} (hk : k < s.ramLen) (hn : s.kind = .mbc2 → b.toNat < 16) :
    State.Inv { s with ram := Memory.write s.ram k b } := by
  refine h.setRam (Memory.wf_write k b h.storage.ramWf) (Memory.below_write hk h.storage.ramBelow) fun hm i => ?_
  rw [Memory.read_write h.storage.ramWf]
  split
  · exact hn hm
  · exact h.storage.nibbles hm i

theorem setGate (h : s.Inv) (hg : hasRamGate s.kind = true) (b : Bool) : State.Inv { s with ramEnabled := b } :=
  ⟨{ h.config with }, { h.storage with }, { h.regs with gate := fun _ => hg }⟩

theorem setRomBank (h : s.Inv) (hg : hasRamGate s.kind = true) {b : BitVec 9} (hb : b.toNat < romBankBound s.kind) :
    State.Inv { s with romBankNumber := b } :=
  ⟨{ h.config with }, { h.storage with },
    { h.regs with romBank := hb, romKept := fun hn => absurd hg (Bool.eq_false_iff.1 hn) }⟩

theorem setRamBank (h : s.Inv) {b : BitVec 8} (hb : b.toNat < ramBankBound s.kind s.hasRumble) :
    State.Inv { s with ramBankNumber := b } :=
  ⟨{ h.config with }, { h.storage with }, { h.regs with ramBank := hb }⟩

theorem setMode (h : s.Inv) (hk : s.kind = .mbc1) (m : BankingMode) : State.Inv { s with bankingMode := m } :=
  ⟨{ h.config with }, { h.storage with }, { h.regs with mode := fun _ => hk }⟩

/-- A RAM bank within its bits and a motor that runs on a rumble cartridge only (R25, R30). -/
theorem setRamb (h : s.Inv) {b : BitVec 8} {r : Bool} (hb : b.toNat < ramBankBound s.kind s.hasRumble)
    (hr : r = true → s.kind = .mbc5 ∧ s.hasRumble = true) :
    State.Inv { s with ramBankNumber := b, rumbleOut := r } :=
  ⟨{ h.config with }, { h.storage with }, { h.regs with ramBank := hb, rumble := hr }⟩

theorem setSensor (h : s.Inv) (hk : s.kind = .mbc7) (p : Option (BitVec 16 × BitVec 16)) :
    State.Inv { s with sensor := p } :=
  ⟨{ h.config with }, { h.storage with }, { h.regs with port := fun _ => hk }⟩

/-- The clock's registers hold any values; its presence is configuration (R23, R29). -/
theorem mapRtc (h : s.Inv) (f : Rtc → Rtc) : State.Inv { s with rtc := s.rtc.map f } := by
  have hc : State.hasRtc { s with rtc := s.rtc.map f } = s.hasRtc := hasRtc_setRtc s f s.output
  exact ⟨{ h.config with table := hc ▸ h.config.table }, { h.storage with },
    { h.regs with clock := fun hr => h.regs.clock (hc ▸ hr) }⟩

/-- MBC2 has its 512 cells (R284). -/
theorem ramLen_of_mbc2 (h : s.Inv) (hk : s.kind = .mbc2) : s.ramLen = Config.mbc2RamLen := by
  rw [h.config.ramLen, ramLenOf, if_pos hk]

end State.Inv

/-- What MBC5's RAMB stores stays in the bits in use (R25, R217). -/
theorem mbc5RambValue_lt (r : Bool) (d : Byte) : (mbc5RambValue r d).toNat < ramBankBound .mbc5 r := by
  rw [mbc5RambValue_toNat]
  cases r
  · exact Nat.mod_lt _ (by decide)
  · exact Nat.mod_lt _ (by decide)

/-- Every instruction of the block's mode keeps the invariant. -/
theorem ModeEffect.inv {i : Instr} {s t : State} (hs : s.Inv) (h : ModeEffect i s t) : t.Inv := by
  cases h with
  | byte b | nothing => exact hs.setOutput _
  | cell b hk hlt => exact (hs.writeRam hlt fun h2 => absurd h2 hk).setOutput _
  | nibble hk hlt hb => exact (hs.writeRam (hs.ramLen_of_mbc2 hk ▸ hlt) fun _ => hb).setOutput _
  | gate b hg => exact (hs.setGate hg b).setOutput _
  | romBank hg hb => exact (hs.setRomBank hg hb).setOutput _
  | ramBank hb => exact (hs.setRamBank hb).setOutput _
  | mode m hk => exact (hs.setMode hk m).setOutput _
  | @ramb a d hi hk =>
    have hmotor (hr : (if s.hasRumble then rumbleOfData d else s.rumbleOut) = true) :
        s.kind = .mbc5 ∧ s.hasRumble = true := by
      split at hr
      · next hm => exact ⟨hk, hm⟩
      · exact hs.regs.rumble hr
    exact (hs.setRamb (hk ▸ mbc5RambValue_lt s.hasRumble d) hmotor).setOutput _
  | rtc f => exact (hs.mapRtc f).setOutput _

/-- What restore puts in a cell of MBC2 holds 4 bits (R242). -/
theorem restoreCell_mbc2_lt (b : Byte) : (restoreCell .mbc2 b).toNat < 16 := by
  rw [restoreCell, if_pos rfl, and_0x0F_toNat]
  exact Nat.mod_lt _ (by decide)

/-- Restored RAM content keeps the invariant (R242). -/
theorem State.Inv.restoreRam {s : State} (h : s.Inv) {bs : List Byte} (hl : bs.length = s.ramLen) :
    State.Inv { s with ram := Memory.ofBytes (bs.map (restoreCell s.kind)) } := by
  refine h.setRam (Memory.wf_ofBytes _) ?_ fun hk i => ?_
  · have hb := Memory.below_ofBytes (bs.map (restoreCell s.kind))
    rwa [List.length_map, hl] at hb
  · have hz : (0 : Byte) = restoreCell .mbc2 0 := by decide
    rw [Memory.read_ofBytes, hk, hz, List.getD_map]
    exact restoreCell_mbc2_lt _

/-- Every step that ends in a next state keeps the invariant. -/
theorem StepEffect.inv {s t : State} (hs : s.Inv) (h : StepEffect s t) : t.Inv := by
  cases h with
  | idle => exact hs
  | @bus T rest i _ hp hd he =>
    exact (modeEffect_of_decode he hd).inv ((hs.beginWith rest).setNotFresh rfl)
  | construct hp hb hk hc hr hl =>
    exact builtState_inv hk hc hr hl (Memory.wf_ofBytes _) (Memory.below_ofBytes _)
  | @ignored _ _ rest => exact ((hs.beginWith rest).setNotFresh rfl).setOutput _
  | @restored buf now rest hp hf hl =>
    have hlen : (buf.take s.ramLen).length = s.ramLen := by
      rw [List.length_take, hl, expectedLen]
      omega
    exact ((((hs.beginWith rest).setNotFresh rfl).restoreRam hlen).mapRtc _).setOutput _
  | @persist _ rest | @sample rest | @noSensor _ _ rest => exact (hs.beginWith rest).setOutput _
  | @tick n rest => exact (((hs.beginWith rest).setNotFresh rfl).mapRtc _).setOutput _
  | @sensor sx sy rest hp hk => exact ((hs.beginWith rest).setSensor hk _).setOutput _

/-- Settles O16, by what each kind of step can do: the instruction of the block's mode stays within the bounds of the registers
it writes, construction builds a sound block, and the host's operations write RAM of the buffer's length. -/
theorem everyStepKeepsTheInvariant : Obligations.EveryStepKeepsTheInvariant :=
  fun _ _ hs h => (step_effect h).inv hs

/-- The blank image builds the reset state, its session begun (log entries 1 and 5). -/
theorem builtState_blank : builtState (cartTypeTable 0) 0x8000 [] [] = { State.reset with begun := true } := rfl

/-- A pending construction is `construct(img)` under the default table (R280, R282). -/
theorem step_of_construct {s : State} {img : List Byte} {rest : List Input} (hp : s.pending = .construct img :: rest) :
    step s = constructWith cartTypeTable img { s with pending := rest } := step_of_pending_cons hp

/-- Settles O15: the reset state is what construction builds from the blank image, before its session has begun. -/
theorem invariantHoldsAtReset : Obligations.InvariantHoldsAtReset := by
  have h : (builtState (cartTypeTable 0) 0x8000 [] []).Inv :=
    builtState_inv (rom := []) (by decide) (by decide) (by decide) (by decide) rfl rfl
  rw [builtState_blank] at h
  exact ⟨{ h.config with }, { h.storage with }, { h.regs with session := nofun }⟩

/-- Settles O57: 32 KiB of zeros list nothing, pass every check, and build the reset state. -/
theorem blankImageConstructsTheResetState : Obligations.BlankImageConstructsTheResetState := by
  have h := constructWith_of_checks (table := cartTypeTable) (img := List.replicate 0x8000 0) (s := State.reset) rfl
  rw [Memory.ofBytes_replicate_zero, List.length_replicate] at h
  calc step { State.reset with pending := [.construct (List.replicate 0x8000 0)] }
    _ = constructWith cartTypeTable (List.replicate 0x8000 0) State.reset := step_of_construct rfl
    _ = .next (builtState (cartTypeTable 0) 0x8000 [] []) := h (by decide) (by decide) (by decide) (by decide) rfl
    _ = .next { State.reset with begun := true } := congrArg _ builtState_blank

end Sys2Proof.Machine
end

section
/-! What no step changes: the configuration and the mark `refused` (10_state.md R23, R31, R285). -/

namespace Sys2Proof.Machine

/-- A step that takes no construction keeps every configuration field (R23). -/
theorem StepEffect.sameConfig {s t : State} (h : StepEffect s t) (hc : s.begun = true ∨ constructsNext s = false) :
    s.SameConfig t := by
  cases h with
  | idle => exact SameConfig.refl s
  | bus hp hd he hf =>
    obtain ⟨hsame, -⟩ := hf.frame
    exact { hsame with }
  | construct hp hs =>
    rcases hc with hb | hn
    · rw [hs] at hb
      cases hb
    · rw [constructsNext, hp] at hn
      cases hn
  | restored | tick => exact { SameConfig.refl s with hasRtc := Option.isSome_map }
  | ignored | persist | sample | sensor | noSensor => exact { SameConfig.refl s with }

/-- No step ends a session that has begun (R285). -/
theorem StepEffect.begun {s t : State} (h : StepEffect s t) (hb : s.begun = true) : t.begun = true := by
  cases h with
  | idle => exact hb
  | bus hp hd he hf =>
    obtain ⟨-, -, -, hbegun, -, -⟩ := hf.frame
    exact hbegun
  | construct | ignored | restored | persist | tick | sample | sensor | noSensor => rfl

/-- When none of the next inputs is a construction, the next step constructs nothing. -/
theorem constructsNext_of_take {n : Nat} {s : State} (h : ∀ i ∈ s.pending.take (n + 1), i.isConstruct = false) :
    constructsNext s = false := by
  unfold constructsNext
  split
  · next i rest hp => exact h i (by rw [hp, List.take_succ_cons]; exact List.mem_cons_self)
  · rfl

/-- Settles O17, by induction on the run: each step keeps the configuration, and either leaves the session begun or takes the
first of inputs that are no constructions. -/
theorem configurationIsFixedForTheSession : Obligations.ConfigurationIsFixedForTheSession := by
  intro n
  induction n with
  | zero =>
    intro s t h _
    cases h
    exact SameConfig.refl s
  | succ n ih =>
    intro s t h hc
    obtain ⟨u, hstep, hrun⟩ := run_succ_next h
    have hsu : s.SameConfig u := (step_effect hstep).sameConfig (hc.imp_right constructsNext_of_take)
    refine SameConfig.trans hsu (ih u t hrun ?_)
    rcases hc with hb | hn
    · exact .inl ((step_effect hstep).begun hb)
    · refine .inr fun i hi => hn i ?_
      rw [step_pending hstep] at hi
      cases hp : s.pending with
      | nil => simp [hp] at hi
      | cons j rest =>
        rw [hp] at hi
        exact List.mem_cons_of_mem j hi

/-- A step that ends in a next state and is no construction keeps the mark `refused` (R31). -/
theorem StepEffect.refused {s t : State} (h : StepEffect s t) (hn : constructsNext s = false) :
    t.refused = s.refused := by
  cases h with
  | bus hp hd he hf =>
    obtain ⟨-, -, -, -, hrefused, -⟩ := hf.frame
    exact hrefused
  | construct hp =>
    rw [constructsNext, hp] at hn
    cases hn
  | idle | ignored | restored | persist | tick | sample | sensor | noSensor => rfl

/-- The result is a next state, or the refusal of the variant. -/
def AnswersOrRefuses (s : State) (r : Result) : Prop := (∃ t, r = .next t) ∨ r = refuseVariant s

theorem answersOrRefuses_ite {c : Prop} [Decidable c] {s : State} {x y : Result} (hx : AnswersOrRefuses s x)
    (hy : AnswersOrRefuses s y) : AnswersOrRefuses s (if c then x else y) := by
  split
  · exact hx
  · exact hy

theorem answersOrRefuses_next (s t : State) : AnswersOrRefuses s (.next t) := .inl ⟨t, rfl⟩

/-- Every meaning answers or refuses the variant (R260). -/
theorem exec_answersOrRefuses (i : Instr) (s : State) : AnswersOrRefuses s (exec i s) := by
  cases i with
  | mbc6Any w a d | mbc7Any w a d | mmm01Any w a d => exact .inr rfl
  | roRdRam a | roWrRam a d | mbc1RdRam a | mbc1WrRam a d | mbc2RdRam a | mbc2WrRam a d | mbc5RdRam a
  | mbc5WrRam a d => exact answersOrRefuses_ite (answersOrRefuses_next ..) (answersOrRefuses_next ..)
  | mbc3RdRam a =>
    refine answersOrRefuses_ite ?_ (answersOrRefuses_next ..)
    split
    · exact answersOrRefuses_ite (answersOrRefuses_next ..) (answersOrRefuses_next ..)
    · unfold readRtc
      split <;> exact answersOrRefuses_next ..
    · exact answersOrRefuses_next ..
  | mbc3WrRam a d =>
    refine answersOrRefuses_ite ?_ (answersOrRefuses_next ..)
    split
    · exact answersOrRefuses_ite (answersOrRefuses_next ..) (answersOrRefuses_next ..)
    · unfold writeRtc
      split <;> exact answersOrRefuses_next ..
    · exact answersOrRefuses_next ..
  | _ => exact answersOrRefuses_next ..

/-- What the refusal of a variant carries (R230). -/
theorem refuseVariant_eq {s u : State} {k : MapperKind} (h : refuseVariant s = .refused (.unmodelledVariant k u)) :
    k = s.kind ∧ u = { s with refused := true } := by
  cases h
  exact ⟨rfl, rfl⟩

/-- An outcome that refuses a variant and is a next state or the refusal of `s` is the latter. -/
theorem AnswersOrRefuses.refusal {s u : State} {r : Result} {k : MapperKind} (hr : AnswersOrRefuses s r)
    (h : r = .refused (.unmodelledVariant k u)) : k = s.kind ∧ u = { s with refused := true } := by
  subst h
  rcases hr with ⟨t, ht⟩ | hrefuse
  · cases ht
  · exact refuseVariant_eq hrefuse.symm

/-- A bus transaction refused for its variant carries the state it acted on, no longer fresh, with the mark set. -/
theorem busTransaction_refused {T : Word} {s u : State} {k : MapperKind}
    (h : busTransaction T s = .refused (.unmodelledVariant k u)) :
    k = s.kind ∧ u = { s with fresh := false, refused := true } := by
  unfold busTransaction at h
  split at h
  · next i _ => exact (exec_answersOrRefuses i { s with fresh := false }).refusal h
  · cases h

theorem hostPersist_answersOrRefuses (now : BitVec 64) (s : State) : AnswersOrRefuses s (hostPersist now s) :=
  answersOrRefuses_ite (.inr rfl) (answersOrRefuses_next ..)

/-- Construction refuses no variant (R280). -/
theorem constructWith_not_refusedVariant {table : Byte → CartType} {img : List Byte} {s u : State} {k : MapperKind} :
    constructWith table img s ≠ .refused (.unmodelledVariant k u) := by
  intro h
  unfold constructWith constructFrom at h
  split_ifs at h
  cases h

/-- Settles O18, by the first pending input: of all inputs only a bus transaction and a persist refuse a variant. -/
theorem refusedMarkIsNeverCleared : Obligations.RefusedMarkIsNeverCleared := by
  refine ⟨fun s t hn h => (step_effect h).refused hn, fun s u k h => ?_⟩
  cases hp : s.pending with
  | nil =>
    rw [step_of_pending_nil hp] at h
    cases h
  | cons i rest =>
    rw [step_of_pending_cons hp] at h
    cases i with
    | bus T =>
      obtain ⟨rfl, rfl⟩ := busTransaction_refused h
      exact ⟨rfl, rfl, .inl ⟨T, rfl, rfl⟩⟩
    | persist now =>
      obtain ⟨rfl, rfl⟩ := (hostPersist_answersOrRefuses now _).refusal h
      exact ⟨rfl, rfl, .inr ⟨now, rfl, rfl⟩⟩
    | construct img => exact absurd h constructWith_not_refusedVariant
    | openFailed =>
      simp only [runInput, hostOpenFailed] at h
      split_ifs at h
      cases h
    | restore buf now =>
      simp only [runInput, hostRestore, restoreWith, done] at h
      split_ifs at h
      cases h
    | sensor sx sy =>
      simp only [runInput, hostSensor, done] at h
      split_ifs at h
    | rtcTick n | sampleOutputs => cases h

end Sys2Proof.Machine
end

section
/-! The motor signal (10_state.md R30, 44_mbc5.md R221) and the block construction leaves (R29, R36, R280, R284). -/

namespace Sys2Proof.Machine

/-- A write word of the range 0x4000-0x5FFF is one with the top bits 0x14 or 0x15. -/
theorem writesWithin_ramb_iff (T : Word) :
    writesWithin 0x4000 0x5FFF T = true ↔ 0x14 ≤ (Word.top T).toNat ∧ (Word.top T).toNat ≤ 0x15 := by
  have ha := (Word.addr T).isLt
  rw [top_toNat, writesWithin, Addr.within]
  cases Word.isWrite T
  · simp only [Bool.false_and, Bool.false_eq_true, if_false, false_iff]
    omega
  · simp only [Bool.true_and, Bool.and_eq_true, decide_eq_true_eq, if_true]
    omega

/-- In MBC5 mode a write word of 0x4000-0x5FFF is a RAMB write (R75). -/
theorem decode_ramb {T : Word} (hT : writesWithin 0x4000 0x5FFF T = true) :
    decode .mbc5 T = .ok (.mbc5WrRamb (Word.addr T) (Word.data T)) := by
  obtain ⟨hlo, hhi⟩ := (writesWithin_ramb_iff T).1 hT
  exact decode_of_topRange (row := 37) (by decide) rfl hlo hhi

/-- In MBC5 mode only a write word of 0x4000-0x5FFF is a RAMB write. -/
theorem writesWithin_of_decode_ramb {T : Word} {a : Addr} {d : Byte} (hd : decode .mbc5 T = .ok (.mbc5WrRamb a d)) :
    writesWithin 0x4000 0x5FFF T = true := by
  have htab : ∀ h : BitVec 5,
      (opcodeTable.find? (Row.fits .mbc5 (Word.ofTop h))).map Row.mnemonic = some "MBC5_WR_RAMB" →
        0x14 ≤ h.toNat ∧ h.toNat ≤ 0x15 := by decide
  exact (writesWithin_ramb_iff T).2 (htab _ (mnemonic_of_decode hd))

/-- Whatever is no RAMB write on a rumble cartridge leaves the motor signal (R221). -/
theorem ModeEffect.rumbleOut {i : Instr} {s t : State} (h : ModeEffect i s t)
    (hi : ∀ a d, i = .mbc5WrRamb a d → s.kind = .mbc5 → s.hasRumble = false) : t.rumbleOut = s.rumbleOut := by
  cases h with
  | ramb hr hk => exact if_neg (by rw [hi _ _ hr hk]; decide)
  | byte | nothing | cell | nibble | gate | romBank | ramBank | mode | rtc => rfl

/-- A step that is no construction and no RAMB write on a rumble cartridge leaves the motor signal (R221). -/
theorem StepEffect.rumbleOut {s t : State} (h : StepEffect s t) (hn : constructsNext s = false)
    (hb : ∀ (T : Word) (rest : List Input), s.pending = .bus T :: rest →
      ¬ (s.kind = .mbc5 ∧ s.hasRumble = true ∧ writesWithin 0x4000 0x5FFF T = true)) : t.rumbleOut = s.rumbleOut := by
  cases h with
  | @bus T rest i _ hp hd he =>
    refine (modeEffect_of_decode he hd).rumbleOut fun a d hi hk => ?_
    replace hk : s.kind = .mbc5 := hk
    rw [hk, hi] at hd
    exact Bool.eq_false_iff.2 fun hr => hb T rest hp ⟨hk, hr, writesWithin_of_decode_ramb hd⟩
  | construct hp =>
    rw [constructsNext, hp] at hn
    cases hn
  | idle | ignored | restored | persist | tick | sample | sensor | noSensor => rfl

/-- Settles O35: the RAMB write computes bit 3 of its data, and no other step that constructs nothing drives the motor. -/
theorem rumbleIsTheLastRambWritesBitThree : Obligations.RumbleIsTheLastRambWritesBitThree := by
  refine fun s t hn h => ⟨fun T rest hp hk hr hT => ?_, (step_effect h).rumbleOut hn⟩
  rw [step_of_bus_decode hp (hk ▸ decode_ramb hT)] at h
  rw [done_eq_next.1 h]
  calc (if s.hasRumble then rumbleOfData (Word.data T) else s.rumbleOut)
    _ = rumbleOfData (Word.data T) := if_pos hr
    _ = decide ((Word.data T).toNat / 8 % 2 = 1) := by rw [Bool.eq_iff_iff, rumbleOfData_iff, decide_eq_true_eq]

/-- `RAM_SIZE` as the list of its sizes (R284). -/
theorem ramSize_eq_getD : ∀ c : Byte, ramSize c = [0, 0x800, 0x2000, 0x8000, 0x20000, 0x10000].getD c.toNat 0 := by
  decide

/-- The clock of a built block: at its reset value, and present on MBC3 when the table gives one (R29, R36). -/
theorem builtState_rtc (ct : CartType) (len : Nat) (rom : Memory) (p : List Input) :
    (∀ r, (builtState ct len rom p).rtc = some r → r = Rtc.reset) ∧
      (builtState ct len rom p).hasRtc = (decide (ct.kind = .mbc3) && ct.hasRtc) := by
  unfold State.hasRtc builtState
  by_cases hc : ct.kind = .mbc3 ∧ ct.hasRtc = true
  · simp [hc, eq_comm]
  · simpa [hc] using not_and.1 hc

/-- The RAM buffer of a built block: MBC2's 512 cells, else the size of the code (R284). -/
theorem ramLenOf_eq (k : MapperKind) (c : Byte) : (k = .mbc2 → ramLenOf k c = 512) ∧
    (k ≠ .mbc2 → ramLenOf k c = [0, 0x800, 0x2000, 0x8000, 0x20000, 0x10000].getD c.toNat 0) :=
  ⟨fun hk => if_pos hk, fun hk => (if_neg hk).trans (ramSize_eq_getD c)⟩

/-- A declared length is a whole number of ROM banks (R9, R284). -/
theorem romSize_div (c : Byte) : romSize c / Config.romBankSize = 2 * 2 ^ c.toNat := by
  rw [romSize_eq, Config.romBankSize]
  omega

/-- Settles O54: a construction that answers gives the state it builds, whose fields are read off one by one. -/
theorem constructionLeavesTheResetValues : Obligations.ConstructionLeavesTheResetValues := by
  intro table img s t h
  obtain ⟨-, -, -, -, -, hl, rfl⟩ := constructWith_next h
  simp only [Memory.read_ofBytes] at hl ⊢
  obtain ⟨hreset, hclock⟩ := builtState_rtc (table (img.getD 0x147 0)) img.length (Memory.ofBytes img) s.pending
  obtain ⟨hmbc2, hother⟩ := ramLenOf_eq (table (img.getD 0x147 0)).kind (img.getD 0x149 0)
  have hread : ∀ i, Memory.read (Memory.ofBytes img) i = img.getD i 0 := Memory.read_ofBytes img
  have hbanks : img.length / Config.romBankSize = 2 * 2 ^ (img.getD 0x148 0).toNat := hl ▸ romSize_div _
  have htype : (builtState (table (img.getD 0x147 0)) img.length (Memory.ofBytes img) s.pending).cartridgeType =
    img.getD 0x147 0 := hread 0x147
  rw [htype]
  refine ⟨rfl, rfl, rfl, rfl, fun _ => rfl, hreset, rfl, rfl, hread, rfl, hl.trans (romSize_eq _), hbanks, rfl,
    hread 0x148, hread 0x149, rfl, rfl, hclock, ?_, ?_, rfl, rfl, rfl⟩
  · simpa only [builtState, hread] using hmbc2
  · simpa only [builtState, hread] using hother

end Sys2Proof.Machine
end

section
/-! Reads of the ROM region (20_memory.md R54, R56, 40_decoder_common.md R101): the table of effective banks, the image byte it
names, and the instruction each window's read words decode to. -/

namespace Sys2Proof.Machine

/-- The effective bank of the window an address of the ROM region stands in, as R56 tables it. -/
def effectiveRomBank (s : State) (a : Addr) : Nat :=
  if a.toNat ≤ 0x3FFF then (if s.kind = .mbc1 ∧ s.bankingMode = .advanced then 32 * s.ramBankNumber.toNat else 0)
  else if s.kind ≠ .mbc5 ∧ s.romBankNumber.toNat = 0 then 1 else s.romBankNumber.toNat

/-- The image byte an address of the ROM region reaches: its own on RomOnly, else that of the effective bank (R54, R56). -/
def romIndex (s : State) (a : Addr) : Nat :=
  if s.kind = .romOnly then a.toNat
  else effectiveRomBank s a % (s.romLen / 0x4000) * 0x4000 + a.toNat % 0x4000

/-- A block that meets the invariant has two or more whole banks (R9, R284). -/
theorem State.Inv.romLen_eq {s : State} (h : s.Inv) : 2 ≤ s.romBankCount ∧ s.romLen = s.romBankCount * 0x4000 := by
  have hpos : 0 < 2 ^ s.romSizeCode.toNat := Nat.pow_pos (by decide)
  rw [State.romBankCount, Config.romBankSize, h.config.romLen]
  omega

/-- The image byte exists (R33, R54). -/
theorem romIndex_lt {s : State} {a : Addr} (h : s.Inv) (ha : a.toNat ≤ 0x7FFF) : romIndex s a < s.romLen := by
  obtain ⟨hcount, hlen⟩ := h.romLen_eq
  unfold romIndex
  split
  · omega
  · have hphys := romPhys_lt (n := s.romBankCount) (by omega) (effectiveRomBank s a) a
    rw [romPhys, romOffset_eq] at hphys
    exact hphys.trans_eq hlen.symm

/-- A window that shows the effective bank answers the image byte. -/
theorem readRomBank_effective {s : State} {a : Addr} {b : Nat} (hk : s.kind ≠ .romOnly) (hb : b = effectiveRomBank s a) :
    readRomBank b a s = answer (Memory.read s.rom (romIndex s a)) s := by
  rw [readRomBank, romPhys, romOffset_eq, romIndex, if_neg hk, hb]
  rfl

/-- ROM0 shows bank 0 but on MBC1 (R152, R172, R212). -/
theorem effectiveRomBank_rom0 {s : State} {a : Addr} (ha : a.toNat ≤ 0x3FFF) (hk : s.kind ≠ .mbc1) :
    0 = effectiveRomBank s a := by
  rw [effectiveRomBank, if_pos ha, if_neg fun h => hk h.1]

/-- MBC1's ROM0 shows a bank of the secondary register in Advanced mode (R132). -/
theorem mbc1Rom0Bank_eq {s : State} {a : Addr} (ha : a.toNat ≤ 0x3FFF) (hk : s.kind = .mbc1) :
    mbc1Rom0Bank s = effectiveRomBank s a := by
  rw [effectiveRomBank, if_pos ha, mbc1Rom0Bank]
  cases hm : s.bankingMode with
  | simple => rw [if_neg (by simp)]
  | advanced => rw [if_pos ⟨hk, rfl⟩, Nat.shiftLeft_eq, Nat.mul_comm]

/-- ROMX shows the ROM bank register with zero-bank aliasing but on MBC5 (R131, R151, R171). -/
theorem aliasZeroBank_effective {s : State} {a : Addr} (ha : ¬ a.toNat ≤ 0x3FFF) (hk : s.kind ≠ .mbc5) :
    aliasZeroBank s.romBankNumber = effectiveRomBank s a := by
  rw [effectiveRomBank, if_neg ha, aliasZeroBank_eq]
  by_cases hz : s.romBankNumber.toNat = 0
  · rw [if_pos ⟨hk, hz⟩, hz]
    rfl
  · rw [if_neg fun h => hz h.2]
    omega

/-- MBC5's ROMX shows the register as stored (R211). -/
theorem mbc5RomxBank_eq {s : State} {a : Addr} (ha : ¬ a.toNat ≤ 0x3FFF) (hk : s.kind = .mbc5) :
    mbc5RomxBank s = effectiveRomBank s a := by
  rw [effectiveRomBank, if_neg ha, if_neg fun h => h.1 hk, mbc5RomxBank]

/-- In every specified mode a read word of the ROM region decodes to an instruction that answers the image byte (R56, R75). -/
theorem decode_romRead {k : MapperKind} {T : Word} (hk : k ∈ [MapperKind.romOnly, .mbc1, .mbc2, .mbc3, .mbc5])
    (hw : Word.isWrite T = false) (ha : (Word.addr T).toNat ≤ 0x7FFF) :
    ∃ i, decode k T = .ok i ∧
      ∀ s : State, s.kind = k → exec i s = answer (Memory.read s.rom (romIndex s (Word.addr T))) s := by
  have htop : (Word.top T).toNat = (Word.addr T).toNat / 0x1000 := by simp [top_toNat, hw]
  have hne {s : State} {m n : MapperKind} (hs : s.kind = m) (hmn : m ≠ n) : s.kind ≠ n := hs ▸ hmn
  by_cases hrom0 : (Word.addr T).toNat ≤ 0x3FFF
  · have hlo : 0 ≤ (Word.top T).toNat := Nat.zero_le _
    have hhi : (Word.top T).toNat ≤ 3 := by omega
    fin_cases hk
    · refine ⟨_, decode_of_topRange (row := 4) (by decide) rfl hlo hhi, fun s hs => ?_⟩
      rw [romIndex, if_pos hs]
      rfl
    · exact ⟨_, decode_of_topRange (row := 8) (by decide) rfl hlo hhi, fun s hs =>
        readRomBank_effective (hne hs (by decide)) (mbc1Rom0Bank_eq hrom0 hs)⟩
    · exact ⟨_, decode_of_topRange (row := 16) (by decide) rfl hlo hhi, fun s hs =>
        readRomBank_effective (hne hs (by decide)) (effectiveRomBank_rom0 hrom0 (hne hs (by decide)))⟩
    · exact ⟨_, decode_of_topRange (row := 23) (by decide) rfl hlo hhi, fun s hs =>
        readRomBank_effective (hne hs (by decide)) (effectiveRomBank_rom0 hrom0 (hne hs (by decide)))⟩
    · exact ⟨_, decode_of_topRange (row := 31) (by decide) rfl hlo hhi, fun s hs =>
        readRomBank_effective (hne hs (by decide)) (effectiveRomBank_rom0 hrom0 (hne hs (by decide)))⟩
  · have hlo : 4 ≤ (Word.top T).toNat := by omega
    have hhi : (Word.top T).toNat ≤ 7 := by omega
    fin_cases hk
    · refine ⟨_, decode_of_topRange (row := 4) (by decide) rfl hlo hhi, fun s hs => ?_⟩
      rw [romIndex, if_pos hs]
      rfl
    · exact ⟨_, decode_of_topRange (row := 9) (by decide) rfl hlo hhi, fun s hs =>
        readRomBank_effective (hne hs (by decide)) (aliasZeroBank_effective hrom0 (hne hs (by decide)))⟩
    · exact ⟨_, decode_of_topRange (row := 17) (by decide) rfl hlo hhi, fun s hs =>
        readRomBank_effective (hne hs (by decide)) (aliasZeroBank_effective hrom0 (hne hs (by decide)))⟩
    · exact ⟨_, decode_of_topRange (row := 24) (by decide) rfl hlo hhi, fun s hs =>
        readRomBank_effective (hne hs (by decide)) (aliasZeroBank_effective hrom0 (hne hs (by decide)))⟩
    · exact ⟨_, decode_of_topRange (row := 32) (by decide) rfl hlo hhi, fun s hs =>
        readRomBank_effective (hne hs (by decide)) (mbc5RomxBank_eq hrom0 hs)⟩

/-- Settles O28: the read word decodes to the window's read, which answers the image byte, and the byte exists. -/
theorem romRegionReadReturnsAnImageByte : Obligations.RomRegionReadReturnsAnImageByte := by
  intro s T rest hs hp hw hk ha
  obtain ⟨i, hd, hexec⟩ := decode_romRead hk hw ha
  exact ⟨romIndex_lt hs ha, (step_of_bus_decode hp hd).trans (hexec _ rfl)⟩

end Sys2Proof.Machine
end

section
/-! The two fields no rule reads, the sensor port and the checksum flag (10_state.md R23, R231, R266): every operation but
constructing, sampling and driving the sensor acts alike whatever they hold. -/

namespace Sys2Proof.Machine

/-- The state with other values in the two fields no rule reads. -/
def State.withUnread (s : State) (p : Option (BitVec 16 × BitVec 16)) (c : Bool) : State :=
  { s with sensor := p, checksumOk := c }

/-- An outcome with other values in the two fields, in a next state and in the state a refusal carries. -/
def withUnreadResult (p : Option (BitVec 16 × BitVec 16)) (c : Bool) : Result → Result
  | .next t => .next (t.withUnread p c)
  | .refused (.unmodelledVariant k u) => .refused (.unmodelledVariant k (u.withUnread p c))
  | .refused r => .refused r
  | .fault e => .fault e

section
variable (p : Option (BitVec 16 × BitVec 16)) (c : Bool) (s : State)

/-- An operation that reads neither field where it decides: alike in each branch, alike as a whole. -/
theorem withUnreadResult_ite {b : Prop} [Decidable b] {x y x' y' : Result} (hx : x' = withUnreadResult p c x)
    (hy : y' = withUnreadResult p c y) : (if b then x' else y') = withUnreadResult p c (if b then x else y) := by
  rw [hx, hy, apply_ite (withUnreadResult p c)]

@[simp] theorem kind_withUnread : (s.withUnread p c).kind = s.kind := rfl
@[simp] theorem ramBankNumber_withUnread : (s.withUnread p c).ramBankNumber = s.ramBankNumber := rfl
@[simp] theorem rtc_withUnread : (s.withUnread p c).rtc = s.rtc := rfl
@[simp] theorem hasRtc_withUnread : (s.withUnread p c).hasRtc = s.hasRtc := rfl
@[simp] theorem pending_withUnread : (s.withUnread p c).pending = s.pending := rfl

theorem readRtc_withUnread (i : Fin 5) : readRtc i (s.withUnread p c) = withUnreadResult p c (readRtc i s) := by
  rw [readRtc, readRtc, rtc_withUnread]
  cases s.rtc <;> rfl

theorem writeRtc_withUnread (i : Fin 5) (d : Byte) :
    writeRtc i d (s.withUnread p c) = withUnreadResult p c (writeRtc i d s) := by
  rw [writeRtc, writeRtc, rtc_withUnread]
  cases s.rtc <;> rfl

/-- No meaning reads the two fields (R231, R266). -/
theorem exec_withUnread (i : Instr) : exec i (s.withUnread p c) = withUnreadResult p c (exec i s) := by
  cases i with
  | roRdRam a | roWrRam a d | mbc1RdRam a | mbc1WrRam a d | mbc2RdRam a | mbc2WrRam a d | mbc5RdRam a
  | mbc5WrRam a d => exact withUnreadResult_ite p c rfl rfl
  | mbc3RdRam a =>
    refine withUnreadResult_ite p c ?_ rfl
    rw [ramBankNumber_withUnread, hasRtc_withUnread]
    cases selTarget s.ramBankNumber s.hasRtc with
    | ramBank b => exact withUnreadResult_ite p c rfl rfl
    | rtc i => exact readRtc_withUnread p c s i
    | none => rfl
  | mbc3WrRam a d =>
    refine withUnreadResult_ite p c ?_ rfl
    rw [ramBankNumber_withUnread, hasRtc_withUnread]
    cases selTarget s.ramBankNumber s.hasRtc with
    | ramBank b => exact withUnreadResult_ite p c rfl rfl
    | rtc i => exact writeRtc_withUnread p c s i d
    | none => rfl
  | _ => rfl

/-- No bus transaction reads the two fields: decoding reads the kind only (R73). -/
theorem busTransaction_withUnread (T : Word) :
    busTransaction T (s.withUnread p c) = withUnreadResult p c (busTransaction T s) := by
  rw [busTransaction, busTransaction, kind_withUnread]
  cases decode s.kind T with
  | ok i => exact exec_withUnread p c { s with fresh := false } i
  | error e => cases e; rfl

/-- No input but a construction, sampling and the sensor's reads the two fields or sets them (R231, R266). -/
theorem runInput_withUnread {i : Input} (hc : i.isConstruct = false) (hs : i ≠ .sampleOutputs)
    (hp : ∀ sx sy, i ≠ .sensor sx sy) :
    runInput i (s.withUnread p c) = withUnreadResult p c (runInput i s) := by
  cases i with
  | construct img => cases hc
  | sampleOutputs => exact absurd rfl hs
  | sensor sx sy => exact absurd rfl (hp sx sy)
  | openFailed => exact withUnreadResult_ite p c rfl rfl
  | bus T => exact busTransaction_withUnread p c s.begin T
  | restore buf now => exact withUnreadResult_ite p c rfl (withUnreadResult_ite p c rfl rfl)
  | persist now => exact withUnreadResult_ite p c rfl rfl
  | rtcTick n => rfl

/-- A step whose first pending input is none of these three acts alike whatever the two fields hold. -/
theorem step_withUnread
    (hi : ∀ i ∈ s.pending.head?, i.isConstruct = false ∧ i ≠ .sampleOutputs ∧ ∀ sx sy, i ≠ .sensor sx sy) :
    step (s.withUnread p c) = withUnreadResult p c (step s) := by
  rw [step, step, pending_withUnread]
  cases hp : s.pending with
  | nil => rfl
  | cons i rest =>
    obtain ⟨hconstruct, hsample, hsensor⟩ := hi i (by rw [hp]; rfl)
    exact runInput_withUnread p c { s with pending := rest } hconstruct hsample hsensor

end

/-- Settles O53: the step with other values in the two fields ends in the same state, with these values in them. -/
theorem unreadInputsHaveNoInfluence : Obligations.UnreadInputsHaveNoInfluence := by
  intro s t p c hi h
  calc step (s.withUnread p c)
    _ = withUnreadResult p c (step s) := step_withUnread p c s hi
    _ = .next (t.withUnread p c) := congrArg (withUnreadResult p c) h

end Sys2Proof.Machine
end

section
/-! What a word is read as (30_encoding.md R70, R74, R75): a well-formed instruction of the word's own transaction. -/

namespace Sys2Proof

/-- The bus transaction a word stands for, by its three fields (R70). -/
def Word.transaction (T : Word) : Transaction :=
  if Word.isWrite T then .write (Word.addr T) (Word.data T) else .read (Word.addr T)

theorem Addr.within_iff {lo hi : Nat} {a : Addr} : Addr.within lo hi a = true ↔ lo ≤ a.toNat ∧ a.toNat ≤ hi := by
  simp [Addr.within]

/-- `i` is what word `T` may be read as: well-formed, and of the word's own transaction. -/
def ReadsWord (T : Word) (i : Instr) : Prop := WellFormed i ∧ i.transaction = Word.transaction T

/-- The words of a row whose instruction checks a range of whole top nibbles. Bit 24 of the pattern is the direction; what is left to
check is a finite table of the five top bits. -/
theorem readsWord_of_range {T pattern mask : Word} {lo hi : Nat} {i : Instr} (hT : T &&& mask = pattern)
    (hwf : i.wf = Addr.within lo hi (Word.addr T))
    (htr : i.transaction = if pattern.getLsbD 24 then .write (Word.addr T) (Word.data T) else .read (Word.addr T))
    (hmask : mask &&& 0x1F00000 = mask)
    (htab : ∀ h : BitVec 5, Word.ofTop h &&& mask = pattern →
      h.getLsbD 4 = pattern.getLsbD 24 ∧ lo ≤ h.toNat % 16 * 0x1000 ∧ h.toNat % 16 * 0x1000 + 0xFFF ≤ hi) :
    ReadsWord T i := by
  obtain ⟨hdir, hlo, hhi⟩ := htab (Word.top T) (and_mask_eq_ofTop T mask hmask ▸ hT)
  have haddr := addr_div_eq_top T
  refine ⟨hwf.trans (Addr.within_iff.2 (by omega)), ?_⟩
  rw [htr, Word.transaction, isWrite_eq_top, hdir]

/-- The words of a refused row, which takes any direction and address and drops a read word's data (R71). -/
theorem readsWord_of_any {T : Word} {i : Instr}
    (hwf : i.wf = readCarriesNoData (Word.isWrite T) (if Word.isWrite T then Word.data T else 0))
    (htr : i.transaction =
      if Word.isWrite T then .write (Word.addr T) (if Word.isWrite T then Word.data T else 0) else .read (Word.addr T)) :
    ReadsWord T i := by
  rw [ReadsWord, WellFormed, hwf, htr, Word.transaction]
  cases Word.isWrite T
  · exact ⟨rfl, rfl⟩
  · exact ⟨rfl, rfl⟩

/-- Every row makes of a word that fits it an instruction the word may be read as. -/
theorem readsWord_build : ∀ r ∈ opcodeTable, ∀ T : Word, T &&& r.mask = r.pattern →
    ReadsWord T (r.build (Word.isWrite T) (Word.addr T) (Word.data T)) := by
  intro r hr T hT
  rcases List.mem_append.1 hr with hr | hr
  · fin_cases hr <;> exact readsWord_of_range hT rfl rfl (by decide) (by decide)
  · fin_cases hr <;> exact readsWord_of_any rfl rfl

/-- A decoded instruction is well-formed and of the word's own transaction. -/
theorem readsWord_of_decode {m : MapperKind} {T : Word} {i : Instr} (h : decode m T = .ok i) : ReadsWord T i := by
  rw [decode] at h
  split at h
  · next r hr =>
    have hfits := List.find?_some hr
    rw [Row.fits, Bool.and_eq_true, decide_eq_true_eq, decide_eq_true_eq] at hfits
    exact Except.ok.inj h ▸ readsWord_build r (List.mem_of_find?_eq_some hr) T hfits.2
  · cases h

end Sys2Proof
end
section
/-! What a bus transaction reaches, by its direction and the region of its address (20_memory.md R52, R57), and the obligations about
it. -/

namespace Sys2Proof.Machine

/-- What a bus transaction can make of a block: a read gives a byte; a write changes nothing, or from the ROM region registers and
the clock's latch, or from the RAM region storage and the live clock. -/
inductive RegionEffect (s : State) : Transaction → State → Prop where
  | byte (a : Addr) (b : Byte) : RegionEffect s (.read a) { s with output := .byte b }
  | nothing (a : Addr) (d : Byte) : RegionEffect s (.write a d) { s with output := .nothing }
  | registers {a : Addr} {d : Byte} (ha : a.toNat ≤ 0x7FFF) (b : BitVec 9) (rb : BitVec 8) (g : Bool) (m : BankingMode)
      (r : Bool) : RegionEffect s (.write a d) { s with
        romBankNumber := b, ramBankNumber := rb, ramEnabled := g, bankingMode := m, rumbleOut := r, output := .nothing }
  | latch {a : Addr} {d : Byte} (ha : a.toNat ≤ 0x7FFF) :
      RegionEffect s (.write a d) { s with rtc := s.rtc.map (latchWrite d), output := .nothing }
  | storage {a : Addr} {d : Byte} (ha : Addr.within 0xA000 0xBFFF a = true) (m : Memory) :
      RegionEffect s (.write a d) { s with ram := m, output := .nothing }
  | clock {a : Addr} {d : Byte} (ha : Addr.within 0xA000 0xBFFF a = true) (j : Fin 5) :
      RegionEffect s (.write a d) { s with
        rtc := s.rtc.map fun r => { r with live := r.live.set j d }, output := .nothing }

namespace RegionEffect

variable {s t : State} {a : Addr} {d : Byte}

theorem of_answer {b : Byte} (h : answer b s = .next t) : RegionEffect s (.read a) t := answer_eq_next.1 h ▸ .byte a b

/-- A read behind a condition. -/
theorem of_answer_ite {c : Prop} [Decidable c] {b b' : Byte} (h : (if c then answer b s else answer b' s) = .next t) :
    RegionEffect s (.read a) t := by
  split at h
  · exact of_answer h
  · exact of_answer h

theorem of_readRtc {j : Fin 5} (h : readRtc j s = .next t) : RegionEffect s (.read a) t := by
  unfold readRtc at h
  split at h
  · exact of_answer h
  · exact of_answer h

theorem of_done (h : done s = .next t) : RegionEffect s (.write a d) t := done_eq_next.1 h ▸ .nothing a d

/-- A write of the RAM buffer behind a condition. -/
theorem of_storage_ite {c : Prop} [Decidable c] {m : Memory} (ha : Addr.within 0xA000 0xBFFF a = true)
    (h : (if c then done { s with ram := m } else done s) = .next t) : RegionEffect s (.write a d) t := by
  split at h
  · exact done_eq_next.1 h ▸ .storage ha m
  · exact of_done h

theorem of_writeRtc {j : Fin 5} (ha : Addr.within 0xA000 0xBFFF a = true) (h : writeRtc j d s = .next t) :
    RegionEffect s (.write a d) t := by
  unfold writeRtc at h
  split at h
  · next r hr =>
    have hmap : some { r with live := r.live.set j d } = s.rtc.map fun r => { r with live := r.live.set j d } := by
      rw [hr, Option.map_some]
    rw [done_eq_next, hmap] at h
    exact h ▸ .clock ha j
  · exact of_done h

end RegionEffect

/-- An address in a range below 0x8000 stands in the ROM region. -/
theorem romRegion_of_within {lo hi : Nat} {a : Addr} (h : Addr.within lo hi a = true) (hhi : hi ≤ 0x7FFF := by decide) :
    a.toNat ≤ 0x7FFF := (Addr.within_iff.1 h).2.trans hhi

/-- The meaning of every well-formed instruction stays within what its transaction reaches. -/
theorem exec_regionEffect {i : Instr} {s t : State} (hi : WellFormed i) (h : exec i s = .next t) :
    RegionEffect s i.transaction t := by
  cases i with
  | rdUnmappedLo a | rdUnmappedHi a | roRdRom a | mbc1RdRom0 a | mbc1RdRomx a | mbc2RdRom0 a | mbc2RdRomx a
  | mbc3RdRom0 a | mbc3RdRomx a | mbc5RdRom0 a | mbc5RdRomx a => exact .of_answer h
  | roRdRam a | mbc1RdRam a | mbc2RdRam a | mbc5RdRam a => exact .of_answer_ite h
  | wrUnmappedLo a d | wrUnmappedHi a d | roWrRom a d | mbc2WrNop a d | mbc5WrNop a d => exact .of_done h
  | mbc1WrRamg a d | mbc2WrRamg a d | mbc3WrRamg a d | mbc5WrRamg a d | mbc1WrBank1 a d | mbc1WrBank2 a d
  | mbc1WrMode a d | mbc2WrRomb a d | mbc3WrRomb a d | mbc3WrSel a d | mbc5WrRomb0 a d | mbc5WrRomb1 a d
  | mbc5WrRamb a d => exact done_eq_next.1 h ▸ .registers (romRegion_of_within hi) _ _ _ _ _
  | mbc3WrLatch a d => exact done_eq_next.1 h ▸ .latch (romRegion_of_within hi)
  | roWrRam a d | mbc1WrRam a d | mbc2WrRam a d | mbc5WrRam a d => exact .of_storage_ite hi h
  | mbc3RdRam a =>
    simp only [exec, execMbc3RdRam] at h
    split at h
    · split at h
      · exact .of_answer_ite h
      · exact .of_readRtc h
      · exact .of_answer h
    · exact .of_answer h
  | mbc3WrRam a d =>
    simp only [exec, execMbc3WrRam] at h
    split at h
    · split at h
      · exact .of_storage_ite hi h
      · exact .of_writeRtc hi h
      · exact .of_done h
    · exact .of_done h
  | mbc6Any w a d | mbc7Any w a d | mmm01Any w a d => exact absurd h refuseVariant_ne_next

/-- A step with a pending bus transaction that ends in a next state stays within what the transaction reaches. -/
theorem step_regionEffect {s t : State} {T : Word} {rest : List Input} (hp : s.pending = .bus T :: rest)
    (h : step s = .next t) :
    RegionEffect { s with pending := rest, begun := true, fresh := false } (Word.transaction T) t := by
  rw [step_of_pending_cons hp] at h
  obtain ⟨i, hd, he⟩ := busTransaction_next h
  obtain ⟨hi, htr⟩ := readsWord_of_decode hd
  exact htr ▸ exec_regionEffect hi he

/-- Settles O13: a read word's transaction is a read, and of that kind the one effect is the byte. -/
theorem readTransactionChangesNothing : Obligations.ReadTransactionChangesNothing := by
  intro s t T rest hp hw h
  have heffect := step_regionEffect hp h
  rw [Word.transaction, hw] at heffect
  cases heffect with
  | byte a b => exact ⟨b, rfl⟩

/-- A LATCH write leaves the live registers (R177). -/
theorem latchWrite_live (d : Byte) (r : Rtc) : (latchWrite d r).live = r.live := by
  unfold latchWrite
  split
  · rfl
  · split
    · rfl
    · rfl

namespace RegionEffect

variable {s t : State} {a : Addr} {d : Byte}

/-- A write to the ROM region changes no storage (R52). -/
theorem storage_of_romRegion (h : RegionEffect s (.write a d) t) (ha : a.toNat ≤ 0x7FFF) :
    t.ram = s.ram ∧ t.rtc.map (fun r => r.live) = s.rtc.map (fun r => r.live) := by
  cases h with
  | nothing | registers => exact ⟨rfl, rfl⟩
  | latch => exact ⟨rfl, by simp [Function.comp_def, latchWrite_live]⟩
  | storage hr | clock hr =>
    have := (Addr.within_iff.1 hr).1
    omega

/-- A write to the RAM region changes no register, no signal and no latch (R52). -/
theorem registers_of_ramRegion (h : RegionEffect s (.write a d) t) (ha : Addr.within 0xA000 0xBFFF a = true) :
    t.romBankNumber = s.romBankNumber ∧ t.ramBankNumber = s.ramBankNumber ∧ t.ramEnabled = s.ramEnabled ∧
      t.bankingMode = s.bankingMode ∧ t.rumbleOut = s.rumbleOut ∧
      t.rtc.map (fun r => (r.latched, r.latchArmed)) = s.rtc.map (fun r => (r.latched, r.latchArmed)) := by
  cases h with
  | nothing | storage => exact ⟨rfl, rfl, rfl, rfl, rfl, rfl⟩
  | clock => exact ⟨rfl, rfl, rfl, rfl, rfl, by rw [Option.map_map]; rfl⟩
  | registers hr | latch hr =>
    have := (Addr.within_iff.1 ha).1
    omega

/-- A write to neither region changes nothing (R105, R107). -/
theorem eq_of_unmapped (h : RegionEffect s (.write a d) t)
    (ha : Addr.within 0x8000 0x9FFF a = true ∨ 0xC000 ≤ a.toNat) : t = { s with output := .nothing } := by
  rw [Addr.within_iff] at ha
  cases h with
  | nothing => rfl
  | registers hr | latch hr => omega
  | storage hr | clock hr =>
    have := Addr.within_iff.1 hr
    omega

end RegionEffect

/-- Settles O14, region by region: a bus transaction constructs nothing, so the configuration stays, and each region's writes reach
what `RegionEffect` lists for it. -/
theorem writeTransactionReachesItsRegionOnly : Obligations.WriteTransactionReachesItsRegionOnly := by
  intro s t T rest hp hw h
  have hconstruct : constructsNext s = false := by simp [constructsNext, hp, Input.isConstruct]
  have heffect := step_regionEffect hp h
  rw [Word.transaction, hw] at heffect
  exact ⟨(step_effect h).sameConfig (.inr hconstruct), heffect.storage_of_romRegion, heffect.registers_of_ramRegion,
    heffect.eq_of_unmapped⟩

/-- Settles O27: the primitives with their offsets as remainders, the bounds of the two reductions, and 0xA000 a multiple of the
RAM region's length. -/
theorem translatedIndexesStayInTheirArrays : Obligations.TranslatedIndexesStayInTheirArrays := by
  refine ⟨fun n b a => ?_, fun s b a hs => ?_, fun n b a => ?_, fun s b a hlen => ramOff_lt hlen b a, fun a ha => ?_⟩
  · rw [romPhys, romOffset_eq, Config.romBankSize]
  · obtain ⟨hcount, hlen⟩ := hs.romLen_eq
    exact (romPhys_lt (by omega) b a).trans_eq hlen.symm
  · rw [ramOff, ramOffset_eq, Config.ramBankSize]
  · have := Addr.within_iff.1 ha
    omega

end Sys2Proof.Machine
end

section
/-! The decode map as a relation (30_encoding.md R70 to R75): a word decodes to an instruction in a mode exactly when the
instruction is well-formed, of the word's own transaction, and has the mode. The obligations about encoding follow from it. -/

namespace Sys2Proof

/-! ### Words and transactions (R70) -/

theorem Word.transaction_eq_read {T : Word} {a : Addr} :
    Word.transaction T = .read a ↔ Word.isWrite T = false ∧ Word.addr T = a := by
  cases hw : Word.isWrite T <;> simp [Word.transaction, hw]

theorem Word.transaction_eq_write {T : Word} {a : Addr} {d : Byte} :
    Word.transaction T = .write a d ↔ Word.isWrite T = true ∧ Word.addr T = a ∧ Word.data T = d := by
  cases hw : Word.isWrite T <;> simp [Word.transaction, hw]

/-- The word of a transaction stands for that transaction. -/
@[simp] theorem transaction_enc (t : Transaction) : Word.transaction (enc t) = t := by
  cases t with
  | read a => exact Word.transaction_eq_read.2 ⟨isWrite_enc _, addr_enc _⟩
  | write a d => exact Word.transaction_eq_write.2 ⟨isWrite_enc _, addr_enc _, data_enc _⟩

/-- Words with the same three fields are the same. -/
theorem word_ext {T T' : Word} (hw : Word.isWrite T = Word.isWrite T') (ha : Word.addr T = Word.addr T')
    (hd : Word.data T = Word.data T') : T = T' := by
  rw [word_eq_fields T, word_eq_fields T', hw, ha, hd]

/-- The mask that clears the data field keeps the direction. -/
theorem isWrite_and_clear (T : Word) : Word.isWrite (T &&& 0x1FFFF00) = Word.isWrite T := by
  rw [Word.isWrite, BitVec.getLsbD_and, show (0x1FFFF00 : Word).getLsbD 24 = true by decide, Bool.and_true, Word.isWrite]

/-- The mask that clears the data field keeps the address. -/
theorem addr_and_clear (T : Word) : Word.addr (T &&& 0x1FFFF00) = Word.addr T := by
  rw [Word.addr, BitVec.extractLsb'_and, show (0x1FFFF00 : Word).extractLsb' 8 16 = BitVec.allOnes 16 by decide,
    BitVec.and_allOnes, Word.addr]

/-- The mask that clears the data field leaves `0` there. -/
theorem data_and_clear (T : Word) : Word.data (T &&& 0x1FFFF00) = 0 := by
  rw [Word.data, BitVec.extractLsb'_and, show (0x1FFFF00 : Word).extractLsb' 0 8 = 0#8 by decide, BitVec.and_zero]
  rfl

/-- The word of a word's own transaction: the word itself, its data field cleared when it is a read word (R71). -/
theorem enc_transaction (T : Word) : enc (Word.transaction T) = if Word.isWrite T then T else T &&& 0x1FFFF00 := by
  cases hw : Word.isWrite T with
  | true =>
    rw [Word.transaction_eq_write.2 ⟨hw, rfl, rfl⟩, if_pos rfl]
    exact word_ext (by rw [isWrite_enc, hw]; rfl) (addr_enc _) (data_enc _)
  | false =>
    rw [Word.transaction_eq_read.2 ⟨hw, rfl⟩, if_neg Bool.false_ne_true]
    refine word_ext ?_ ?_ ?_
    · rw [isWrite_enc, isWrite_and_clear, hw]; rfl
    · rw [addr_enc, addr_and_clear]; rfl
    · rw [data_enc, data_and_clear]; rfl

/-- The direction of a word as arithmetic. -/
theorem isWrite_eq_div (T : Word) : Word.isWrite T = decide (T.toNat / 2 ^ 24 % 2 = 1) := by
  rw [Word.isWrite, BitVec.getLsbD, Nat.testBit_eq_decide_div_mod_eq]

theorem addr_toNat (T : Word) : (Word.addr T).toNat = T.toNat / 2 ^ 8 % 2 ^ 16 := by
  rw [Word.addr, BitVec.extractLsb'_toNat, Nat.shiftRight_eq_div_pow]

theorem data_toNat (T : Word) : (Word.data T).toNat = T.toNat % 2 ^ 8 := by
  rw [Word.data, BitVec.extractLsb'_toNat, Nat.shiftRight_zero]

/-- A word as the number its fields spell. -/
theorem toNat_eq_fields (T : Word) :
    T.toNat = (if Word.isWrite T then 2 ^ 24 else 0) + (Word.addr T).toNat * 2 ^ 8 + (Word.data T).toNat := by
  have ha := (Word.addr T).isLt
  have hd := (Word.data T).isLt
  have hlt : (if Word.isWrite T then 2 ^ 24 else 0) + (Word.addr T).toNat * 2 ^ 8 + (Word.data T).toNat < 2 ^ 25 := by
    split <;> omega
  exact (congrArg BitVec.toNat (word_eq_fields T)).trans (Nat.mod_eq_of_lt hlt)

/-- Settles O1: a word is the number its three fields spell, and the encoder sets these fields. -/
theorem transactionWordPlacesItsFields : Obligations.TransactionWordPlacesItsFields := by
  refine ⟨fun a => ⟨?_, isWrite_enc _, addr_enc _, data_enc _⟩, fun a d => ⟨?_, isWrite_enc _, addr_enc _, data_enc _⟩,
    fun T => ⟨isWrite_eq_div T, addr_toNat T, data_toNat T⟩⟩
  · rw [toNat_eq_fields, isWrite_enc, addr_enc, data_enc]
    exact Nat.zero_add _
  · rw [toNat_eq_fields, isWrite_enc, addr_enc, data_enc]
    rfl

/-! ### Which words a row takes (R74, R75) -/

/-- Words of the direction and the range of a row fit it. As in `readsWord_of_range`, what is left to check is a finite table. -/
theorem fits_of_range {T pattern mask : Word} {lo hi : Nat} {i : Instr} (h : ReadsWord T i)
    (hwf : i.wf = Addr.within lo hi (Word.addr T))
    (htr : i.transaction = if pattern.getLsbD 24 then .write (Word.addr T) (Word.data T) else .read (Word.addr T))
    (hmask : mask &&& 0x1F00000 = mask)
    (htab : ∀ h : BitVec 5, h.getLsbD 4 = pattern.getLsbD 24 →
      lo / 0x1000 ≤ h.toNat % 16 → h.toNat % 16 ≤ hi / 0x1000 → Word.ofTop h &&& mask = pattern) : T &&& mask = pattern := by
  obtain ⟨hwf', htr'⟩ := h
  obtain ⟨hlo, hhi⟩ := Addr.within_iff.1 (hwf.symm.trans hwf')
  have hdir : Word.isWrite T = pattern.getLsbD 24 := by
    rw [htr'] at htr
    split at htr
    · next hp => rw [(Word.transaction_eq_write.1 htr).1, hp]
    · next hp => rw [(Word.transaction_eq_read.1 htr).1, Bool.eq_false_iff.2 hp]
  have haddr := addr_div_eq_top T
  rw [and_mask_eq_ofTop T mask hmask]
  exact htab _ (isWrite_eq_top T ▸ hdir) (by omega) (by omega)

/-- A word fits a row exactly when it may be read as the instruction the row makes of it. -/
theorem readsWord_build_iff : ∀ r ∈ opcodeTable, ∀ T : Word,
    ReadsWord T (r.build (Word.isWrite T) (Word.addr T) (Word.data T)) ↔ T &&& r.mask = r.pattern := by
  refine fun r hr T => ⟨fun h => ?_, readsWord_build r hr T⟩
  rcases List.mem_append.1 hr with hr | hr
  · fin_cases hr <;> exact fits_of_range h rfl rfl (by decide) (by decide)
  · fin_cases hr <;> exact BitVec.and_zero

/-- To find a row of the decode map is to find it in one of the map's parts. -/
theorem exists_mem_opcodeTable {p : Row → Prop} : (∃ r ∈ opcodeTable, p r) ↔
    (∃ r ∈ commonRows, p r) ∨ (∃ r ∈ romOnlyRows, p r) ∨ (∃ r ∈ mbc1Rows, p r) ∨ (∃ r ∈ mbc2Rows, p r) ∨
      (∃ r ∈ mbc3Rows, p r) ∨ (∃ r ∈ mbc5Rows, p r) ∨ ∃ r ∈ refusedRows, p r := by
  simp only [opcodeTable, List.mem_append, or_and_right, exists_or, or_assoc]

/-- What a word may be read as, a row of the decode map makes of it. -/
theorem exists_row_build {T : Word} {i : Instr} (h : ReadsWord T i) :
    ∃ r ∈ opcodeTable, r.build (Word.isWrite T) (Word.addr T) (Word.data T) = i := by
  obtain ⟨hwf, htr⟩ := h
  rw [exists_mem_opcodeTable]
  cases i with
  | rdUnmappedLo a | rdUnmappedHi a => simp [commonRows, Word.transaction_eq_read.1 htr.symm]
  | roRdRom a | roRdRam a => simp [romOnlyRows, Word.transaction_eq_read.1 htr.symm]
  | mbc1RdRom0 a | mbc1RdRomx a | mbc1RdRam a => simp [mbc1Rows, Word.transaction_eq_read.1 htr.symm]
  | mbc2RdRom0 a | mbc2RdRomx a | mbc2RdRam a => simp [mbc2Rows, Word.transaction_eq_read.1 htr.symm]
  | mbc3RdRom0 a | mbc3RdRomx a | mbc3RdRam a => simp [mbc3Rows, Word.transaction_eq_read.1 htr.symm]
  | mbc5RdRom0 a | mbc5RdRomx a | mbc5RdRam a => simp [mbc5Rows, Word.transaction_eq_read.1 htr.symm]
  | wrUnmappedLo a d | wrUnmappedHi a d => simp [commonRows, Word.transaction_eq_write.1 htr.symm]
  | roWrRom a d | roWrRam a d => simp [romOnlyRows, Word.transaction_eq_write.1 htr.symm]
  | mbc1WrRamg a d | mbc1WrBank1 a d | mbc1WrBank2 a d | mbc1WrMode a d | mbc1WrRam a d =>
    simp [mbc1Rows, Word.transaction_eq_write.1 htr.symm]
  | mbc2WrRamg a d | mbc2WrRomb a d | mbc2WrNop a d | mbc2WrRam a d => simp [mbc2Rows, Word.transaction_eq_write.1 htr.symm]
  | mbc3WrRamg a d | mbc3WrRomb a d | mbc3WrSel a d | mbc3WrLatch a d | mbc3WrRam a d =>
    simp [mbc3Rows, Word.transaction_eq_write.1 htr.symm]
  | mbc5WrRamg a d | mbc5WrRomb0 a d | mbc5WrRomb1 a d | mbc5WrRamb a d | mbc5WrNop a d | mbc5WrRam a d =>
    simp [mbc5Rows, Word.transaction_eq_write.1 htr.symm]
  | mbc6Any w a d | mbc7Any w a d | mmm01Any w a d =>
    cases w with
    | false =>
      have hd : d = 0 := of_decide_eq_true hwf
      simp [refusedRows, Word.transaction_eq_read.1 htr.symm, hd]
    | true => simp [refusedRows, Word.transaction_eq_write.1 htr.symm]

/-! ### The decoder (R74) -/

/-- In every mode of a constructed block exactly one row fits a word. -/
theorem exists_filter_fits_eq {m : MapperKind} (hm : m ≠ .unsupported) (T : Word) :
    ∃ r, opcodeTable.filter (Row.fits m T) = [r] := by
  rw [← List.length_eq_one_iff, List.filter_congr fun r hr => fits_ofTop hr m T]
  have htab : ∀ h : BitVec 5, (opcodeTable.filter (Row.fits m (Word.ofTop h))).length = 1 := by
    cases m with
    | unsupported => exact absurd rfl hm
    | _ => decide
  exact htab _

/-- No row exists in mode `unsupported` (R2). -/
theorem mode_ne_unsupported : ∀ r ∈ opcodeTable, ∀ m ∈ r.modes, m ≠ .unsupported := by decide

/-- The decoder answers with a row that fits. -/
theorem decode_of_fits {m : MapperKind} {T : Word} {r : Row} (hr : r ∈ opcodeTable) (hm : m ∈ r.modes)
    (hT : T &&& r.mask = r.pattern) : decode m T = .ok (r.build (Word.isWrite T) (Word.addr T) (Word.data T)) := by
  obtain ⟨q, hq⟩ := exists_filter_fits_eq (mode_ne_unsupported r hr m hm) T
  have hmem : r ∈ opcodeTable.filter (Row.fits m T) := List.mem_filter.2 ⟨hr, by simp [Row.fits, hm, hT]⟩
  rw [hq, List.mem_singleton] at hmem
  rw [decode, ← List.head?_filter, hq, hmem]
  rfl

/-- What the decoder answers: the one instruction of the mode that the word may be read as. -/
theorem decode_eq_ok_iff {m : MapperKind} {T : Word} {i : Instr} :
    decode m T = .ok i ↔ ReadsWord T i ∧ m ∈ i.modes := by
  refine ⟨fun h => ⟨readsWord_of_decode h, mode_mem_of_decode h⟩, fun ⟨h, hm⟩ => ?_⟩
  obtain ⟨r, hr, rfl⟩ := exists_row_build h
  rw [(build_modes_mnemonic r hr _ _ _).1] at hm
  exact decode_of_fits hr hm ((readsWord_build_iff r hr T).1 h)

/-- Decoding the word of a well-formed instruction in a mode of its row. -/
theorem decode_encode {m : MapperKind} {i : Instr} (hwf : WellFormed i) (hm : m ∈ i.modes) :
    decode m (encode i) = .ok i :=
  decode_eq_ok_iff.2 ⟨⟨hwf, (transaction_enc _).symm⟩, hm⟩

/-- Settles O2: an instruction's word is of the instruction's transaction, so the decoder answers the instruction. -/
theorem decodeOfEncodeIsTheInstruction : Obligations.DecodeOfEncodeIsTheInstruction :=
  fun _ _ hwf hm => decode_encode hwf hm

/-- Settles O3: the row that fits alone is the decoder's, and its instruction has its mnemonic. -/
theorem exactlyOneRowFitsEveryWord : Obligations.ExactlyOneRowFitsEveryWord := by
  intro m T hm
  obtain ⟨r, hone⟩ := exists_filter_fits_eq hm T
  have hmem : r ∈ opcodeTable.filter (Row.fits m T) := hone ▸ List.mem_singleton_self r
  obtain ⟨hr, hfits⟩ := List.mem_filter.1 hmem
  rw [Row.fits, Bool.and_eq_true, decide_eq_true_eq, decide_eq_true_eq] at hfits
  obtain ⟨hmode, hT⟩ := hfits
  exact ⟨r, hr, hmode, hT, congrArg List.length hone, _, decode_of_fits hr hmode hT,
    (build_modes_mnemonic r hr _ _ _).2, rfl⟩

/-- Settles O4: a decoded instruction is of the word's own transaction, whose word is the word with no read data. -/
theorem decodedInstructionIsWellFormedAndReencodes : Obligations.DecodedInstructionIsWellFormedAndReencodes := by
  intro m T i h
  obtain ⟨⟨hwf, htr⟩, hm⟩ := decode_eq_ok_iff.1 h
  exact ⟨hwf, hm, by rw [encode, htr, enc_transaction]⟩

/-- Words of one transaction decode alike. -/
theorem decode_congr {m : MapperKind} {T T' : Word} (h : Word.transaction T = Word.transaction T') :
    decode m T = decode m T' := by
  have hok : ∀ i, decode m T = .ok i ↔ decode m T' = .ok i := fun i => by
    rw [decode_eq_ok_iff, decode_eq_ok_iff, ReadsWord, ReadsWord, h]
  cases hT : decode m T with
  | ok i => exact ((hok i).1 hT).symm
  | error e =>
    cases hT' : decode m T' with
    | ok i => rw [(hok i).2 hT'] at hT; cases hT
    | error e' => rw [decode_error hT, decode_error hT']

/-- Settles O5: the encoder's field, the masks of the read rows, and that two read words of one address are of one transaction. -/
theorem readWordDataFieldIsIgnored : Obligations.ReadWordDataFieldIsIgnored := by
  refine ⟨fun a => data_enc (.read a), fun r hr _ => ?_, fun m T T' hw hw' ha => decode_congr ?_⟩
  · rw [← mask_in_top r hr, BitVec.and_assoc, show (0x1F00000 &&& 0xFF : Word) = 0 by decide]
    exact BitVec.and_zero
  · rw [Word.transaction_eq_read.2 ⟨hw, ha⟩, Word.transaction_eq_read.2 ⟨hw', rfl⟩]

/-! ### The rows by address range (R75) -/

/-- A read word decodes to any read instruction of its address that is well-formed and has the mode. -/
theorem decode_of_read {m : MapperKind} {T : Word} {i : Instr} (hw : Word.isWrite T = false)
    (hi : i.transaction = .read (Word.addr T)) (hm : m ∈ i.modes) (hwf : WellFormed i) : decode m T = .ok i :=
  decode_eq_ok_iff.2 ⟨⟨hwf, hi.trans (Word.transaction_eq_read.2 ⟨hw, rfl⟩).symm⟩, hm⟩

/-- A write word decodes to any write instruction of its address and data that is well-formed and has the mode. -/
theorem decode_of_write {m : MapperKind} {T : Word} {i : Instr} (hw : Word.isWrite T = true)
    (hi : i.transaction = .write (Word.addr T) (Word.data T)) (hm : m ∈ i.modes) (hwf : WellFormed i) :
    decode m T = .ok i :=
  decode_eq_ok_iff.2 ⟨⟨hwf, hi.trans (Word.transaction_eq_write.2 ⟨hw, rfl, rfl⟩).symm⟩, hm⟩

/-- Settles O6: the range of a read row is the check of its instruction. -/
theorem readWordsDecodeByAddressRange : Obligations.ReadWordsDecodeByAddressRange := by
  intro m T hw
  refine ⟨fun hm ha => decode_of_read hw rfl hm ha, fun hm ha => decode_of_read hw rfl hm ha, ?_⟩
  and_intros <;> exact fun hm ha => decode_of_read hw rfl (List.mem_singleton.2 hm) ha

/-- Settles O7: the range of a write row is the check of its instruction. -/
theorem writeWordsDecodeByAddressRange : Obligations.WriteWordsDecodeByAddressRange := by
  intro m T hw
  refine ⟨fun hm ha => decode_of_write hw rfl hm ha, fun hm ha => decode_of_write hw rfl hm ha, ?_⟩
  and_intros <;> exact fun hm ha => decode_of_write hw rfl (List.mem_singleton.2 hm) ha

/-- Settles O8: each named instruction is one of the mode, well-formed and of the word's transaction. -/
theorem specVectorWordsDecode : Obligations.SpecVectorWordsDecode := by
  and_intros <;> exact decode_eq_ok_iff.2 ⟨⟨by decide, by decide⟩, by decide⟩

end Sys2Proof
end

section
/-! The obligation about a step prepared with the bits of a table row (log entry 3). -/

namespace Sys2Proof.Machine

/-- What `decodeTableWord` reads: bits that are a transaction word, and the instruction of that word in the one mode chosen. -/
theorem decodeTableWord_eq_some {nbits w : Nat} {i : Instr} (h : decodeTableWord nbits w = some i) :
    ∃ T, tableWord nbits w = some T ∧ decode Config.tableMode T = .ok i := by
  unfold decodeTableWord at h
  split at h
  · cases h
  · next T hT =>
    refine ⟨T, hT, ?_⟩
    cases hd : decode Config.tableMode T with
    | ok j => rw [hd] at h; exact congrArg _ (Option.some.inj h)
    | error e => rw [hd] at h; cases h

/-- Settles O11: the prepared state's first pending input is the word that `decodeTableWord` decodes. -/
theorem fetchWordStepRunsTheTableInstruction : Obligations.FetchWordStepRunsTheTableInstruction := by
  intro s nbits w i h
  obtain ⟨T, hT, hd⟩ := decodeTableWord_eq_some h
  rw [State.withFetchWord, hT]
  exact step_of_bus_decode rfl hd

end Sys2Proof.Machine
end

section
/-! The lines of R77 (30_encoding.md): digits, numbers and tokens are read back as they were written. -/

namespace Sys2Proof.Machine

/-! ### Numbers -/

/-- A written digit is read as its value. -/
theorem hexDigit?_digitChar {v : Nat} (hv : v < 16) : hexDigit? (digitChar 0x41 v) = some v := by
  have htab : ∀ v : Fin 16, hexDigit? (digitChar 0x41 v.1) = some v.1 := by decide
  exact htab ⟨v, hv⟩

/-- The `k` low hexadecimal digits of `n`, the most significant first. -/
def hexDigits (k n : Nat) : List Char := (List.range k).reverse.map fun i => digitChar 0x41 (n / 16 ^ i % 16)

theorem hexDigits_succ (k n : Nat) : hexDigits (k + 1) n = digitChar 0x41 (n / 16 ^ k % 16) :: hexDigits k n := by
  simp [hexDigits, List.range_succ]

theorem hexNumber_eq (k n : Nat) : hexNumber k n = '0' :: 'x' :: hexDigits k n := rfl

/-- Digits are read back after `acc`, from the most significant on. -/
theorem hexDigits?_hexDigits (acc k n : Nat) : hexDigits? acc (hexDigits k n) = some (acc * 16 ^ k + n % 16 ^ k) := by
  induction k generalizing acc with
  | zero => simp [hexDigits, hexDigits?, Nat.mod_one]
  | succ k ih =>
    rw [hexDigits_succ, hexDigits?, hexDigit?_digitChar (Nat.mod_lt _ (by decide))]
    simp only [ih, pow_succ, Nat.mod_mul]
    congr 1
    ring

/-- A written number of one digit or more is read as its digits' value. -/
theorem number?_hexNumber (k n : Nat) : number? (hexNumber (k + 1) n) = some (n % 16 ^ (k + 1)) := by
  rw [hexNumber_eq, hexDigits_succ, number?, ← hexDigits_succ, hexDigits?_hexDigits, Nat.zero_mul, Nat.zero_add]

/-- Bits written with as many digits as they fill are read back. -/
theorem bits?_hexNumber {w k : Nat} (hw : 16 ^ (k + 1) = 2 ^ w) (x : BitVec w) :
    bits? w (hexNumber (k + 1) x.toNat) = some x := by
  rw [bits?, number?_hexNumber, hw, Nat.mod_eq_of_lt x.isLt]
  simp [x.isLt]

/-! ### Words between separators -/

/-- The characters that end a word or begin a comment. -/
def separators : List Char := [' ', '\t', ',', ';']

/-- The characters of a word that is written without a blank, comma or comment. -/
def PlainWord (cs : List Char) : Prop := ∀ c ∈ cs, c ∉ separators

/-- A written number is a plain word. -/
theorem plainWord_hexNumber (k n : Nat) : PlainWord (hexNumber k n) := by
  have hdigit : ∀ v : Fin 16, digitChar 0x41 v.1 ∉ separators := by decide
  intro c hc
  rw [hexNumber_eq, List.mem_cons, List.mem_cons] at hc
  rcases hc with rfl | rfl | hc
  · decide
  · decide
  · obtain ⟨i, -, rfl⟩ := List.mem_map.1 hc
    exact hdigit ⟨_, Nat.mod_lt _ (by decide)⟩

/-- The characters of a plain word are added to the word read so far. -/
theorem tokens_plainWord_append {cs : List Char} (h : PlainWord cs) (word rest : List Char) :
    tokens word (cs ++ rest) = tokens (cs.reverse ++ word) rest := by
  induction cs generalizing word with
  | nil => rfl
  | cons c cs ih =>
    obtain ⟨hc, hcs⟩ := List.forall_mem_cons.1 h
    simp only [separators, List.mem_cons, not_or] at hc
    obtain ⟨hblank, htab, hcomma, -⟩ := hc
    rw [List.cons_append, tokens, if_neg (by simp [hblank, htab]), if_neg hcomma, ih hcs]
    simp

theorem flushWord_reverse {cs : List Char} (hne : cs ≠ []) (toks : List (List Char)) :
    flushWord (cs.reverse ++ []) toks = cs :: toks := by
  simp [flushWord, hne]

/-- A plain word that ends the line. -/
theorem tokens_plainWord {cs : List Char} (h : PlainWord cs) (hne : cs ≠ []) : tokens [] cs = [cs] := by
  rw [← List.append_nil cs, tokens_plainWord_append h, tokens, flushWord_reverse hne, List.append_nil]

/-- A plain word before a blank. -/
theorem tokens_plainWord_blank {cs : List Char} (h : PlainWord cs) (hne : cs ≠ []) (rest : List Char) :
    tokens [] (cs ++ ' ' :: rest) = cs :: tokens [] rest := by
  rw [tokens_plainWord_append h, tokens, if_pos (.inl rfl), flushWord_reverse hne]

/-- A plain word before a comma, which is a word of its own. -/
theorem tokens_plainWord_comma {cs : List Char} (h : PlainWord cs) (hne : cs ≠ []) (rest : List Char) :
    tokens [] (cs ++ ',' :: rest) = cs :: [','] :: tokens [] rest := by
  rw [tokens_plainWord_append h, tokens, if_neg (by decide), if_pos rfl, flushWord_reverse hne]

/-- A blank between words. -/
theorem tokens_blank (rest : List Char) : tokens [] (' ' :: rest) = tokens [] rest := if_pos (.inl rfl)

/-- A line without a semicolon has no comment. -/
theorem dropComment_eq_self {cs : List Char} (h : ';' ∉ cs) : dropComment cs = cs := by
  rw [dropComment, List.takeWhile_eq_self_iff]
  intro c hc
  exact bne_iff_ne.2 fun he => h (he ▸ hc)

/-- A written number has no semicolon. -/
theorem semicolon_notMem_hexNumber (k n : Nat) : ';' ∉ hexNumber k n :=
  fun h => plainWord_hexNumber k n _ h (by decide)

/-! ### Lines -/

/-- The words of a written read. -/
theorem tokens_renderLine_read (a : Addr) :
    tokens [] (dropComment (renderLine (.read a))) = [['R', 'D'], hexNumber 4 a.toNat] := by
  rw [dropComment_eq_self (by simp [renderLine, semicolon_notMem_hexNumber])]
  calc tokens [] (['R', 'D'] ++ ' ' :: hexNumber 4 a.toNat)
    _ = ['R', 'D'] :: tokens [] (hexNumber 4 a.toNat) := tokens_plainWord_blank (by simp [PlainWord, separators]) (by decide) _
    _ = [['R', 'D'], hexNumber 4 a.toNat] := by rw [tokens_plainWord (plainWord_hexNumber _ _) (List.cons_ne_nil _ _)]

/-- The words of a written write. -/
theorem tokens_renderLine_write (a : Addr) (d : Byte) :
    tokens [] (dropComment (renderLine (.write a d))) =
      [['W', 'R'], hexNumber 4 a.toNat, [','], hexNumber 2 d.toNat] := by
  rw [dropComment_eq_self (by simp [renderLine, semicolon_notMem_hexNumber])]
  calc tokens [] (renderLine (.write a d))
    _ = tokens [] (['W', 'R'] ++ ' ' :: (hexNumber 4 a.toNat ++ ',' :: ' ' :: hexNumber 2 d.toNat)) := by
      simp [renderLine]
    _ = [['W', 'R'], hexNumber 4 a.toNat, [','], hexNumber 2 d.toNat] := by
      rw [tokens_plainWord_blank (by simp [PlainWord, separators]) (by decide),
        tokens_plainWord_comma (plainWord_hexNumber _ _) (List.cons_ne_nil _ _), tokens_blank,
        tokens_plainWord (plainWord_hexNumber _ _) (List.cons_ne_nil _ _)]

/-- Settles O9: the written line has the words of its form, and each number among them is read back. -/
theorem assemblyLineReadsBack : Obligations.AssemblyLineReadsBack := by
  intro t
  cases t with
  | read a =>
    have ha : bits? 16 (hexNumber 4 a.toNat) = some a := bits?_hexNumber (by decide) a
    simp [parseLine, tokens_renderLine_read, ha]
  | write a d =>
    have ha : bits? 16 (hexNumber 4 a.toNat) = some a := bits?_hexNumber (by decide) a
    have hd : bits? 8 (hexNumber 2 d.toNat) = some d := bits?_hexNumber (by decide) d
    simp [parseLine, tokens_renderLine_write, ha, hd]

end Sys2Proof.Machine
end

section
/-! The pseudo-instructions (30_encoding.md R78): their expansions run as words, and the registers they leave. -/

namespace Sys2Proof.Machine

/-! ### Values of the control writes -/

/-- A number masked for MBC1's BANK1 stores its 5 low bits (R136). -/
theorem mbc1Bank1Value_ofNat (n : Nat) : (mbc1Bank1Value (BitVec.ofNat 8 n &&& 0x1F)).toNat = n % 2 ^ 5 := by
  rw [mbc1Bank1Value, BitVec.and_assoc, BitVec.and_self, ← mbc1Bank1Value, mbc1Bank1Value_toNat, BitVec.toNat_ofNat]
  omega

/-- A number masked for MBC2's ROMB stores its 4 low bits (R156). -/
theorem mbc2RombValue_ofNat (n : Nat) : (mbc2RombValue (BitVec.ofNat 8 n &&& 0x0F)).toNat = n % 2 ^ 4 := by
  rw [mbc2RombValue, BitVec.and_assoc, BitVec.and_self, ← mbc2RombValue, mbc2RombValue_toNat, BitVec.toNat_ofNat]
  omega

/-- A number masked for MBC3's ROMB stores its 7 low bits (R175). -/
theorem mbc3RombValue_ofNat (n : Nat) : (mbc3RombValue (BitVec.ofNat 8 n &&& 0x7F)).toNat = n % 2 ^ 7 := by
  rw [mbc3RombValue, BitVec.and_assoc, BitVec.and_self, ← mbc3RombValue, mbc3RombValue_toNat, BitVec.toNat_ofNat]
  omega

/-- MBC5's ROMB0 write keeps bit 8 and takes the data below it (R215). -/
theorem mbc5Romb0Value_toNat (old : BitVec 9) (d : Byte) :
    (mbc5Romb0Value old d).toNat = 2 ^ 8 * (old.toNat / 2 ^ 8) + d.toNat := by
  have hold : (old &&& 0x100).toNat = 2 ^ 8 * (old.toNat / 2 ^ 8) := by revert old; decide
  rw [mbc5Romb0Value, BitVec.toNat_or, hold, BitVec.toNat_setWidth_of_le (by decide), Nat.two_pow_add_eq_or_of_lt d.isLt]

/-- MBC5's ROMB1 write keeps the low byte and takes bit 0 of the data above it (R216). -/
theorem mbc5Romb1Value_toNat (old : BitVec 9) (d : Byte) :
    (mbc5Romb1Value old d).toNat = 2 ^ 8 * (d.toNat % 2) + old.toNat % 2 ^ 8 := by
  have hold : (old &&& (0xFF : Nat)).toNat = old.toNat % 2 ^ 8 := by revert old; decide
  have hbit : ((d.extractLsb' 0 1).setWidth 9 <<< 8).toNat = 2 ^ 8 * (d.toNat % 2) := by revert d; decide
  rw [mbc5Romb1Value, BitVec.toNat_or, hold, hbit, Nat.or_comm,
    Nat.two_pow_add_eq_or_of_lt (Nat.mod_lt _ (by decide))]

/-- MBC5's two ROM bank writes together take the 9 low bits of a number. -/
theorem mbc5Romb_toNat (old : BitVec 9) (n : Nat) :
    (mbc5Romb1Value (mbc5Romb0Value old (BitVec.ofNat 8 n)) (BitVec.ofNat 8 (n >>> 8) &&& 1)).toNat = n % 2 ^ 9 := by
  have hbit : (BitVec.ofNat 8 (n >>> 8) &&& 1).toNat = n / 2 ^ 8 % 2 := by
    rw [BitVec.toNat_and, BitVec.toNat_ofNat, Nat.shiftRight_eq_div_pow]
    simp
  rw [mbc5Romb1Value_toNat, mbc5Romb0Value_toNat, hbit, BitVec.toNat_ofNat]
  omega

/-- Writing `0x00` and then `0x01` to the LATCH range latches the live registers (R177). -/
theorem map_latchWrite_latchWrite (o : Option Rtc) : (o.map (latchWrite 0x00)).map (latchWrite 0x01) =
    o.map fun r => { r with latched := r.live, latchArmed := false } := Option.map_map ..

/-! ### Runs of the expansions -/

/-- What a pseudo-instruction's name says of the state `t` it leaves, from the state `s`. -/
def Pseudo.Leaves (s t : State) : Pseudo → Prop
  | .enram    => t.ramEnabled = true
  | .disram   => t.ramEnabled = false
  | .selrom n => t.romBankNumber.toNat = n % romBankBound s.kind
  | .selram n => t.ramBankNumber.toNat = n.toNat % ramBankBound s.kind s.hasRumble
  | .mode m   => t.bankingMode = m
  | .latch    => t.rtc.map (fun r => r.latched) = s.rtc.map (fun r => r.live) ∧
      t.rtc.map (fun r => r.live) = s.rtc.map (fun r => r.live)

/-- `n` steps from `s` consume the inputs before `rest` and leave what the pseudo-instruction's name says. -/
def Pseudo.Runs (p : Pseudo) (n : Nat) (s : State) (rest : List Input) : Prop :=
  ∃ t, Host.Core.run Sys2Proof.core n s = .next t ∧ t.pending = rest ∧ p.Leaves s t

/-- An expansion of one word. -/
theorem Pseudo.runs_one {p : Pseudo} {s t : State} {rest : List Input} {i : Instr}
    (hp : s.pending = .bus (encode i) :: rest) (hwf : WellFormed i) (hm : s.kind ∈ i.modes)
    (ht : exec i { s with pending := rest, begun := true, fresh := false } = .next t) (hleaves : p.Leaves s t) :
    p.Runs 1 s rest := by
  obtain ⟨-, hpending, -⟩ := exec_frame ht
  exact ⟨t, run_of_step ((step_of_bus_decode hp (decode_encode hwf hm)).trans ht), hpending, hleaves⟩

/-- An expansion of two words. -/
theorem Pseudo.runs_two {p : Pseudo} {s u t : State} {rest : List Input} {i j : Instr}
    (hp : s.pending = .bus (encode i) :: .bus (encode j) :: rest) (hwf : WellFormed i ∧ WellFormed j)
    (hm : s.kind ∈ i.modes ∧ s.kind ∈ j.modes)
    (hu : exec i { s with pending := .bus (encode j) :: rest, begun := true, fresh := false } = .next u)
    (ht : exec j { u with pending := rest, begun := true, fresh := false } = .next t) (hleaves : p.Leaves s t) :
    p.Runs 2 s rest := by
  obtain ⟨hsame, hpending, -⟩ := exec_frame hu
  obtain ⟨-, hpending', -⟩ := exec_frame ht
  refine ⟨t, ?_, hpending', hleaves⟩
  calc Host.Core.run Sys2Proof.core 2 s
    _ = Host.Core.run Sys2Proof.core 1 u :=
      run_of_step ((step_of_bus_decode hp (decode_encode hwf.1 hm.1)).trans hu)
    _ = .next t :=
      run_of_step ((step_of_bus_decode hpending (decode_encode hwf.2 (hsame.kind ▸ hm.2))).trans ht)

/-- In every mode with a RAM gate the write of `d` at address 0 is the RAM-enable write (R135, R155, R174, R214). -/
theorem exists_ramGateWrite {k : MapperKind} (hk : k ∈ [MapperKind.mbc1, .mbc2, .mbc3, .mbc5]) (d : Byte) :
    ∃ i : Instr, i.transaction = .write 0x0000 d ∧ WellFormed i ∧ k ∈ i.modes ∧ ∀ s, exec i s = writeRamGate d s := by
  fin_cases hk
  · exact ⟨.mbc1WrRamg 0x0000 d, rfl, rfl, List.mem_singleton_self _, fun _ => rfl⟩
  · exact ⟨.mbc2WrRamg 0x0000 d, rfl, rfl, List.mem_singleton_self _, fun _ => rfl⟩
  · exact ⟨.mbc3WrRamg 0x0000 d, rfl, rfl, List.mem_singleton_self _, fun _ => rfl⟩
  · exact ⟨.mbc5WrRamg 0x0000 d, rfl, rfl, List.mem_singleton_self _, fun _ => rfl⟩

/-- ENRAM and DISRAM. -/
theorem Pseudo.runs_ramGate {p : Pseudo} {s : State} {rest : List Input} {d : Byte}
    (hk : s.kind ∈ [MapperKind.mbc1, .mbc2, .mbc3, .mbc5]) (hp : s.pending = .bus (enc (.write 0x0000 d)) :: rest)
    (hleaves : ∀ t : State, t.ramEnabled = enablesRam d → p.Leaves s t) : p.Runs 1 s rest := by
  obtain ⟨i, htr, hwf, hm, hexec⟩ := exists_ramGateWrite hk d
  exact Pseudo.runs_one (by rw [hp, encode, htr]) hwf hm (hexec _) (hleaves _ rfl)

/-- SELROM: MBC5 takes two words, the other variants one, masked to the register's width. -/
theorem Pseudo.runs_selrom {n : Nat} {ts : List Transaction} {s : State} {rest : List Input}
    (hx : (Pseudo.selrom n).expand s.kind = some ts)
    (hp : s.pending = (ts.map fun t => Input.bus (enc t)) ++ rest) : (Pseudo.selrom n).Runs ts.length s rest := by
  cases hk : s.kind with
  | mbc1 =>
    obtain rfl := Option.some.inj (hk ▸ hx)
    refine Pseudo.runs_one (i := .mbc1WrBank1 0x2000 _) hp rfl (List.mem_singleton.2 hk) rfl ?_
    rw [Pseudo.Leaves, hk]
    exact mbc1Bank1Value_ofNat n
  | mbc2 =>
    obtain rfl := Option.some.inj (hk ▸ hx)
    refine Pseudo.runs_one (i := .mbc2WrRomb 0x2000 _) hp rfl (List.mem_singleton.2 hk) rfl ?_
    rw [Pseudo.Leaves, hk]
    exact mbc2RombValue_ofNat n
  | mbc3 =>
    obtain rfl := Option.some.inj (hk ▸ hx)
    refine Pseudo.runs_one (i := .mbc3WrRomb 0x2000 _) hp rfl (List.mem_singleton.2 hk) rfl ?_
    rw [Pseudo.Leaves, hk]
    exact mbc3RombValue_ofNat n
  | mbc5 =>
    obtain rfl := Option.some.inj (hk ▸ hx)
    have hvalue := mbc5Romb_toNat s.romBankNumber n
    rw [show 2 ^ 9 = romBankBound s.kind by rw [hk]; rfl] at hvalue
    exact Pseudo.runs_two (i := .mbc5WrRomb0 0x2000 _) (j := .mbc5WrRomb1 0x3000 _) hp ⟨rfl, rfl⟩
      ⟨List.mem_singleton.2 hk, List.mem_singleton.2 hk⟩ rfl rfl hvalue
  | romOnly | mbc6 | mbc7 | mmm01 | unsupported =>
    rw [hk] at hx
    cases hx

/-- SELRAM: one word, of which each variant stores its bits in use (R137, R176, R217). -/
theorem Pseudo.runs_selram {n : Byte} {s : State} {rest : List Input} (hk : s.kind ∈ [MapperKind.mbc1, .mbc3, .mbc5])
    (hp : s.pending = .bus (enc (.write 0x4000 n)) :: rest) : (Pseudo.selram n).Runs 1 s rest := by
  simp only [List.mem_cons, List.not_mem_nil, or_false] at hk
  rcases hk with hk | hk | hk
  · refine Pseudo.runs_one (i := .mbc1WrBank2 0x4000 n) hp rfl (List.mem_singleton.2 hk) rfl ?_
    rw [Pseudo.Leaves, hk]
    exact mbc1Bank2Value_toNat n
  · refine Pseudo.runs_one (i := .mbc3WrSel 0x4000 n) hp rfl (List.mem_singleton.2 hk) rfl ?_
    rw [Pseudo.Leaves, hk]
    exact (Nat.mod_eq_of_lt n.isLt).symm
  · refine Pseudo.runs_one (i := .mbc5WrRamb 0x4000 n) hp rfl (List.mem_singleton.2 hk) rfl ?_
    rw [Pseudo.Leaves, hk]
    refine (mbc5RambValue_toNat s.hasRumble n).trans ?_
    cases s.hasRumble <;> rfl

/-- MODE: one word, whose bit 0 is the mode (R138). -/
theorem Pseudo.runs_mode {m : BankingMode} {d : Byte} {s : State} {rest : List Input} (hk : s.kind = .mbc1)
    (hp : s.pending = .bus (enc (.write 0x6000 d)) :: rest) (hd : modeOfData d = m) : (Pseudo.mode m).Runs 1 s rest :=
  Pseudo.runs_one (i := .mbc1WrMode 0x6000 d) hp rfl (List.mem_singleton.2 hk) rfl hd

/-- LATCH: two words, the first of which arms the latch (R177). -/
theorem Pseudo.runs_latch {s : State} {rest : List Input} (hk : s.kind = .mbc3)
    (hp : s.pending = .bus (enc (.write 0x6000 0x00)) :: .bus (enc (.write 0x6000 0x01)) :: rest) :
    Pseudo.latch.Runs 2 s rest := by
  have hlatch := map_latchWrite_latchWrite s.rtc
  exact Pseudo.runs_two (i := .mbc3WrLatch 0x6000 0x00) (j := .mbc3WrLatch 0x6000 0x01) hp ⟨rfl, rfl⟩
    ⟨List.mem_singleton.2 hk, List.mem_singleton.2 hk⟩ rfl rfl
    ⟨(congrArg (Option.map fun r => r.latched) hlatch).trans (Option.map_map ..),
      (congrArg (Option.map fun r => r.live) hlatch).trans (Option.map_map ..)⟩

/-- Every expansion in its mode leaves what the name says. -/
theorem Pseudo.runs_expand {p : Pseudo} {ts : List Transaction} {s : State} {rest : List Input}
    (hx : p.expand s.kind = some ts) (hp : s.pending = (ts.map fun t => Input.bus (enc t)) ++ rest) :
    p.Runs ts.length s rest := by
  cases p with
  | enram =>
    obtain ⟨hk, ⟨⟩⟩ := Option.ite_none_right_eq_some.1 hx
    exact Pseudo.runs_ramGate hk hp fun t ht => ht
  | disram =>
    obtain ⟨hk, ⟨⟩⟩ := Option.ite_none_right_eq_some.1 hx
    exact Pseudo.runs_ramGate hk hp fun t ht => ht
  | selrom n => exact Pseudo.runs_selrom hx hp
  | selram n =>
    obtain ⟨hk, ⟨⟩⟩ := Option.ite_none_right_eq_some.1 hx
    exact Pseudo.runs_selram hk hp
  | mode m =>
    obtain ⟨hk, hts⟩ := Option.ite_none_right_eq_some.1 hx
    cases m with
    | simple =>
      obtain rfl := Option.some.inj hts
      exact Pseudo.runs_mode hk hp (by decide)
    | advanced =>
      obtain rfl := Option.some.inj hts
      exact Pseudo.runs_mode hk hp (by decide)
  | latch =>
    obtain ⟨hk, ⟨⟩⟩ := Option.ite_none_right_eq_some.1 hx
    exact Pseudo.runs_latch hk hp

/-- Settles O60: each clause is what its own pseudo-instruction leaves. -/
theorem pseudoInstructionsDoWhatTheirNamesSay : Obligations.PseudoInstructionsDoWhatTheirNamesSay := by
  intro p ts s rest hx hp
  obtain ⟨t, hrun, hpending, hleaves⟩ := Pseudo.runs_expand hx hp
  exact ⟨t, hrun, hpending, by rintro rfl; exact hleaves, by rintro rfl; exact hleaves,
    by rintro n rfl; exact hleaves, by rintro n rfl; exact hleaves, by rintro m rfl; exact hleaves,
    by rintro rfl; exact hleaves⟩

end Sys2Proof.Machine
end

section
/-! The common decoder (40_decoder_common.md): the unmapped ranges (R104 to R107), the rows that reach no register (R111, R157,
R220), and the ROM-only variant (R110, R112, R113). -/

namespace Sys2Proof.Machine

/-! ### The RAM buffer and its window (R28, R55) -/

/-- The cell just written reads as what was written. -/
theorem Memory.read_write_same {m : Memory} (hw : Memory.wf m = true) (i : Nat) (b : Byte) :
    Memory.read (Memory.write m i b) i = b := by
  rw [Memory.read_write hw, if_pos rfl]

/-- A write leaves every other cell. -/
theorem Memory.read_write_of_ne {m : Memory} (hw : Memory.wf m = true) {i j : Nat} (b : Byte) (hj : j ≠ i) :
    Memory.read (Memory.write m i b) j = Memory.read m j := by
  rw [Memory.read_write hw, if_neg hj.symm]

/-- The cell an address of the RAM region reaches in a bank, counted from the region's start (R55). -/
theorem ramOff_of_within {a : Addr} (ha : Addr.within 0xA000 0xBFFF a = true) (n b : Nat) :
    ramOff n b a = (b * 0x2000 + (a.toNat - 0xA000)) % n := by
  obtain ⟨hlo, hhi⟩ := Addr.within_iff.1 ha
  have hoffset : a.toNat % 0x2000 = a.toNat - 0xA000 := by omega
  rw [ramOff, ramOffset_eq, hoffset, Config.ramBankSize]

/-! ### Steps of a read word and of a write word -/

/-- The step of a read word whose instruction answers `b`. -/
theorem step_of_read_answer {s : State} {T : Word} {rest : List Input} {i : Instr} {b : Byte}
    (hp : s.pending = .bus T :: rest) (hw : Word.isWrite T = false) (hi : i.transaction = .read (Word.addr T))
    (hm : s.kind ∈ i.modes) (hwf : WellFormed i)
    (hexec : exec i { s with pending := rest, begun := true, fresh := false } =
      answer b { s with pending := rest, begun := true, fresh := false }) :
    step s = .next (s.after rest (.byte b)) :=
  (step_of_bus_decode hp (decode_of_read hw hi hm hwf)).trans hexec

/-- The step of a write word whose instruction has no effect. -/
theorem step_of_write_done {s : State} {T : Word} {rest : List Input} {i : Instr} (hp : s.pending = .bus T :: rest)
    (hw : Word.isWrite T = true) (hi : i.transaction = .write (Word.addr T) (Word.data T)) (hm : s.kind ∈ i.modes)
    (hwf : WellFormed i) (hexec : ∀ u, exec i u = done u) : step s = .next (s.after rest .nothing) :=
  (step_of_bus_decode hp (decode_of_write hw hi hm hwf)).trans (hexec _)

/-- The addresses from 0xC000 on are the upper unmapped range (R106, R107). -/
theorem within_unmappedHi {a : Addr} (ha : 0xC000 ≤ a.toNat) : Addr.within 0xC000 0xFFFF a = true :=
  Addr.within_iff.2 ⟨ha, Nat.le_of_lt_succ a.isLt⟩

/-- The addresses up to 0x7FFF are the ROM region (R110, R111). -/
theorem within_romRegion {a : Addr} (ha : a.toNat ≤ 0x7FFF) : Addr.within 0x0000 0x7FFF a = true :=
  Addr.within_iff.2 ⟨Nat.zero_le _, ha⟩

/-- Settles O19: a read word of each unmapped range decodes to that range's read, which answers `OPEN_BUS`. -/
theorem unmappedReadsReturnOpenBus : Obligations.UnmappedReadsReturnOpenBus := by
  refine ⟨fun _ _ => ⟨rfl, rfl⟩, fun s T rest hp hw hk ha => ?_⟩
  rcases ha with hlo | hhi
  · exact step_of_read_answer (i := .rdUnmappedLo _) hp hw rfl hk hlo rfl
  · exact step_of_read_answer (i := .rdUnmappedHi _) hp hw rfl hk (within_unmappedHi hhi) rfl

/-- Settles O20: a write word of each of the five ranges decodes to that range's write, which has no effect. -/
theorem unmappedAndNopWritesChangeNothing : Obligations.UnmappedAndNopWritesChangeNothing := by
  refine ⟨fun _ _ _ => ⟨rfl, rfl, rfl, rfl, rfl⟩, fun s T rest hp hw h => ?_⟩
  rcases h with ⟨hk, hlo | hhi⟩ | ⟨hk, ha⟩ | ⟨hk, ha⟩ | ⟨hk, ha⟩
  · exact step_of_write_done (i := .wrUnmappedLo _ _) hp hw rfl hk hlo fun _ => rfl
  · exact step_of_write_done (i := .wrUnmappedHi _ _) hp hw rfl hk (within_unmappedHi hhi) fun _ => rfl
  · exact step_of_write_done (i := .roWrRom _ _) hp hw rfl (List.mem_singleton.2 hk) (within_romRegion ha) fun _ => rfl
  · exact step_of_write_done (i := .mbc2WrNop _ _) hp hw rfl (List.mem_singleton.2 hk) ha fun _ => rfl
  · exact step_of_write_done (i := .mbc5WrNop _ _) hp hw rfl (List.mem_singleton.2 hk) ha fun _ => rfl

/-! ### The ROM-only variant -/

/-- Settles O21: a read word of the ROM region decodes on RomOnly to the read of the image at the bus address. -/
theorem romOnlyReadsTheImageDirectly : Obligations.RomOnlyReadsTheImageDirectly := by
  refine ⟨fun _ _ => rfl, fun a s hlen ha => by omega, fun s T rest hp hw hk ha => ?_⟩
  exact step_of_read_answer (i := .roRdRom _) hp hw rfl (List.mem_singleton.2 hk) (within_romRegion ha) rfl

/-- RomOnly's RAM read answers one byte, whether RAM is there or not (R112). -/
theorem execRoRdRam_eq_answer (a : Addr) (s : State) : execRoRdRam a s =
    answer (if s.ramLen = 0 then Config.openBus else Memory.read s.ram (ramOff s.ramLen 0 a)) s := by
  unfold execRoRdRam
  split
  · rfl
  · rfl

/-- Settles O22: RomOnly reaches bank 0 without asking the gate, and a write changes the one cell. -/
theorem romOnlyRamIsAlwaysEnabledAndUnbanked : Obligations.RomOnlyRamIsAlwaysEnabledAndUnbanked := by
  intro a d s ha
  have hcell : ramOff s.ramLen 0 a = (a.toNat - 0xA000) % s.ramLen := by rw [ramOff_of_within ha, Nat.zero_mul, Nat.zero_add]
  rw [← hcell]
  refine ⟨execRoRdRam_eq_answer a s, fun hnone => if_neg (Nat.not_lt.2 hnone.le), fun hsome hwf => ?_⟩
  exact ⟨Memory.write s.ram (ramOff s.ramLen 0 a) d, if_pos hsome, Memory.read_write_same hwf _ d,
    fun j hj => Memory.read_write_of_ne hwf d hj⟩

end Sys2Proof.Machine
end

section
/-! RAM behind the gate (40_decoder_common.md R103): the accesses of each gated variant while RAM is enabled, and the round trip of
95_test_vectors.md S6. -/

namespace Sys2Proof.Machine

/-! ### Accesses (R134, R139, R180, R181, R218, R219) -/

/-- Off RomOnly, RAM is reached exactly when it is enabled and present. -/
theorem ramAccessOk_iff {s : State} (hk : s.kind ≠ .romOnly) :
    ramAccessOk s = true ↔ s.ramEnabled = true ∧ 0 < s.ramLen := by
  simp [ramAccessOk, ramGateOpen, hk]

/-- A read behind the gate answers one byte, whether the gate is open or not. -/
theorem readRamBank_eq_answer {s : State} (hk : s.kind ≠ .romOnly) (b : Nat) (a : Addr) : readRamBank b a s =
    answer (if s.ramEnabled = true ∧ 0 < s.ramLen then Memory.read s.ram (ramOff s.ramLen b a) else Config.openBus) s := by
  simp only [readRamBank, ramAccessOk_iff hk]
  split
  · rfl
  · rfl

/-- A write behind the open gate stores one cell. -/
theorem writeRamBank_of_enabled {s : State} (hk : s.kind ≠ .romOnly) (hon : s.ramEnabled = true) (hlen : 0 < s.ramLen)
    (b : Nat) (a : Addr) (d : Byte) :
    writeRamBank b a d s = done { s with ram := Memory.write s.ram (ramOff s.ramLen b a) d } :=
  if_pos ((ramAccessOk_iff hk).2 ⟨hon, hlen⟩)

/-- A select value up to 3 selects a RAM bank (R178). -/
theorem selTarget_ramBank {sel : BitVec 8} (h : sel.toNat ≤ 3) (c : Bool) : selTarget sel c = .ramBank sel.toNat := if_pos h

/-- MBC3's RAM read with a RAM bank selected and RAM enabled and present (R180). -/
theorem execMbc3RdRam_ramBank {s : State} (hon : s.ramEnabled = true) (hsel : s.ramBankNumber.toNat ≤ 3)
    (hlen : 0 < s.ramLen) (a : Addr) :
    execMbc3RdRam a s = answer (Memory.read s.ram (ramOff s.ramLen s.ramBankNumber.toNat a)) s := by
  simp only [execMbc3RdRam, selTarget_ramBank hsel, if_pos hon, if_neg hlen.ne']

/-- MBC3's RAM write with a RAM bank selected and RAM enabled and present (R181). -/
theorem execMbc3WrRam_ramBank {s : State} (hon : s.ramEnabled = true) (hsel : s.ramBankNumber.toNat ≤ 3)
    (hlen : 0 < s.ramLen) (a : Addr) (d : Byte) : execMbc3WrRam a d s =
      done { s with ram := Memory.write s.ram (ramOff s.ramLen s.ramBankNumber.toNat a) d } := by
  simp only [execMbc3WrRam, selTarget_ramBank hsel, if_pos hon, if_pos hlen]

/-- The byte an MBC2 read makes of the nibble an MBC2 write stored (R154, R158). -/
theorem mbc2_readBack_toNat (d : Byte) : (0xF0 ||| (d &&& 0x0F)).toNat = 0xF0 + d.toNat % 16 := by
  revert d; decide

/-! ### The round trip (95_test_vectors.md S6) -/

/-- The block once RAM content `m` has been stored and the gate, open before or not, stands open. -/
def State.reopened (s : State) (m : Memory) : State := { s with ram := m, ramEnabled := true, output := .nothing }

@[simp] theorem reopened_ram (s : State) (m : Memory) : (s.reopened m).ram = m := rfl
@[simp] theorem reopened_ramLen (s : State) (m : Memory) : (s.reopened m).ramLen = s.ramLen := rfl
@[simp] theorem reopened_ramEnabled (s : State) (m : Memory) : (s.reopened m).ramEnabled = true := rfl
@[simp] theorem reopened_ramBankNumber (s : State) (m : Memory) : (s.reopened m).ramBankNumber = s.ramBankNumber := rfl
@[simp] theorem reopened_mbc1RamBank (s : State) (m : Memory) : mbc1RamBank (s.reopened m) = mbc1RamBank s := rfl

/-- From `s`: the write `wr`, the RAM-enable write `off`, the read `rd`, which answers `OPEN_BUS`, the RAM-enable write `on`, and
the read again, which answers `b` (95_test_vectors.md S6). -/
def ReadsBack (wr off on rd : Instr) (b : Byte) (s : State) : Prop :=
  ∃ t u v, exec wr s = .next t ∧ exec off t = .next u ∧ exec rd u = .next { u with output := .byte 0xFF } ∧
    exec on u = .next v ∧ exec rd v = .next { v with output := .byte b }

section

variable {wr rd : Instr} {ramg : Byte → Instr} {off on : Byte} {s : State}

/-- A write that leaves the RAM content `m` is read back as the byte `b` that the enabled read makes of `m`. -/
theorem readsBack_of_ram {m : Memory} {b : Byte} (hramg : ∀ d u, exec (ramg d) u = writeRamGate d u)
    (hoff : off.toNat % 16 ≠ 10) (hon : on.toNat % 16 = 10) (hwr : exec wr s = done { s with ram := m })
    (hclosed : ∀ u : State, u.kind = s.kind → u.ramEnabled = false → exec rd u = answer Config.openBus u)
    (hopen : exec rd (s.reopened m) = answer b (s.reopened m)) : ReadsBack wr (ramg off) (ramg on) rd b s := by
  have hdisables : enablesRam off = false := Bool.eq_false_iff.2 fun h => hoff ((enablesRam_iff off).1 h)
  have henables : enablesRam on = true := (enablesRam_iff on).2 hon
  refine ⟨_, _, s.reopened m, hwr, hramg off _, hclosed _ rfl hdisables, (hramg on _).trans ?_, hopen⟩
  rw [writeRamGate, henables]
  rfl

/-- On a variant whose RAM-region rows reach, through the gate, a bank that neither RAM nor the gate decides. -/
theorem readsBack_of_ramBank {bank : State → Nat} {a : Addr} {d : Byte} (hs : s.Inv) (hk : s.kind ≠ .romOnly)
    (henabled : s.ramEnabled = true) (hlen : 0 < s.ramLen) (hramg : ∀ d u, exec (ramg d) u = writeRamGate d u)
    (hoff : off.toNat % 16 ≠ 10) (hon : on.toNat % 16 = 10) (hwr : ∀ u, exec wr u = writeRamBank (bank u) a d u)
    (hrd : ∀ u, exec rd u = readRamBank (bank u) a u) (hbank : ∀ m, bank (s.reopened m) = bank s) :
    ReadsBack wr (ramg off) (ramg on) rd d s := by
  refine readsBack_of_ram hramg hoff hon ((hwr s).trans (writeRamBank_of_enabled hk henabled hlen _ a d))
    (fun u hu hclosed => ?_) ?_
  · rw [hrd, readRamBank_eq_answer (hu ▸ hk), if_neg (by simp [hclosed])]
  · rw [hrd, readRamBank_eq_answer (s := s.reopened _) hk, if_pos ⟨rfl, hlen⟩, hbank, reopened_ram, reopened_ramLen,
      Memory.read_write_same hs.storage.ramWf]

end

/-- Settles O41, variant by variant: the gate writes leave the RAM, so the cell written is the cell read. -/
theorem ramWriteReadsBack : Obligations.RamWriteReadsBack := by
  intro a g d off on s hs _ henabled hlen hoff hon
  have hwf := hs.storage.ramWf
  refine ⟨fun hk => ?_, fun _ => ?_, fun _ hsel => ?_, fun hk => ?_⟩
  · exact readsBack_of_ramBank (ramg := .mbc1WrRamg g) (bank := mbc1RamBank) hs (by simp [hk]) henabled hlen
      (fun _ _ => rfl) hoff hon (fun _ => rfl) (fun _ => rfl) (reopened_mbc1RamBank s)
  · have hback : ReadsBack (.mbc2WrRam a d) (.mbc2WrRamg g off) (.mbc2WrRamg g on) (.mbc2RdRam a)
        (0xF0 ||| (d &&& 0x0F)) s := by
      refine readsBack_of_ram (ramg := .mbc2WrRamg g) (fun _ _ => rfl) hoff hon (if_pos henabled)
        (fun u _ hclosed => if_neg (Bool.eq_false_iff.1 hclosed)) ?_
      rw [exec, execMbc2RdRam, if_pos (reopened_ramEnabled ..), reopened_ram, Memory.read_write_same hwf]
    obtain ⟨t, u, v, hwr, hdisable, hopenBus, henable, hrd⟩ := hback
    exact ⟨t, u, v, _, hwr, hdisable, hopenBus, henable, hrd, mbc2_readBack_toNat d⟩
  · refine readsBack_of_ram (ramg := .mbc3WrRamg g) (fun _ _ => rfl) hoff hon
      (execMbc3WrRam_ramBank henabled hsel hlen a d) (fun u _ hclosed => if_neg (Bool.eq_false_iff.1 hclosed)) ?_
    rw [exec, execMbc3RdRam_ramBank (reopened_ramEnabled ..) hsel hlen, reopened_ram, reopened_ramLen,
      reopened_ramBankNumber, Memory.read_write_same hwf]
  · exact readsBack_of_ramBank (ramg := .mbc5WrRamg g) (bank := fun u => u.ramBankNumber.toNat) hs (by simp [hk])
      henabled hlen (fun _ _ => rfl) hoff hon (fun _ => rfl) (fun _ => rfl)
      fun m => congrArg BitVec.toNat (reopened_ramBankNumber s m)

end Sys2Proof.Machine
end

section
/-! MBC1 (41_mbc1.md R131 to R140), with the rules other variants share with it: the ROM windows, the RAM region behind the gate, and
the control writes. -/

namespace Sys2Proof.Machine

/-! ### Effective banks (R131, R132, R134) -/

theorem mbc1Rom0Bank_eq_ite (s : State) :
    mbc1Rom0Bank s = if s.bankingMode = .advanced then 32 * s.ramBankNumber.toNat else 0 := by
  unfold mbc1Rom0Bank
  cases s.bankingMode with
  | simple => exact (if_neg (by decide)).symm
  | advanced => rw [if_pos rfl, Nat.shiftLeft_eq, Nat.mul_comm]

theorem mbc1RamBank_eq_ite (s : State) :
    mbc1RamBank s = if s.bankingMode = .advanced then s.ramBankNumber.toNat else 0 := by
  unfold mbc1RamBank
  cases s.bankingMode with
  | simple => exact (if_neg (by decide)).symm
  | advanced => exact (if_pos rfl).symm

theorem aliasZeroBank_eq_ite (b : BitVec 9) : aliasZeroBank b = if b.toNat = 0 then 1 else b.toNat := by
  rw [aliasZeroBank_eq]
  split <;> omega

/-- With 5 bits in use MBC1's ROMX bank is one of 1 to 0x1F (R24, R140). -/
theorem mbc1RomxBank_bounds {s : State} (hs : s.Inv) (hk : s.kind = .mbc1) :
    1 ≤ mbc1RomxBank s ∧ mbc1RomxBank s ≤ 0x1F := by
  have hbits : s.romBankNumber.toNat < romBankBound s.kind := hs.regs.romBank
  rw [hk, romBankBound] at hbits
  rw [mbc1RomxBank, aliasZeroBank_eq]
  omega

/-- With 2 bits in use MBC1's ROM0 bank is one of four (R25, R140). -/
theorem mbc1Rom0Bank_mem {s : State} (hs : s.Inv) (hk : s.kind = .mbc1) :
    mbc1Rom0Bank s ∈ [0x00, 0x20, 0x40, 0x60] := by
  have hbits : s.ramBankNumber.toNat < ramBankBound s.kind s.hasRumble := hs.regs.ramBank
  rw [hk, ramBankBound] at hbits
  rw [mbc1Rom0Bank_eq_ite]
  split
  · interval_cases s.ramBankNumber.toNat <;> decide
  · decide

/-! ### The ROM windows (R54) -/

/-- The bank of an image byte that a window shows. -/
theorem romPhys_div (n b : Nat) (a : Addr) : romPhys n b a / 0x4000 = b % n := by
  have hoffset := romOffset_lt a
  rw [romPhys, Config.romBankSize]
  omega

/-- In the ROM0 window the offset is the address. -/
theorem romPhys_of_rom0 {a : Addr} (ha : a.toNat ≤ 0x3FFF) (n b : Nat) : romPhys n b a = b % n * 0x4000 + a.toNat := by
  rw [romPhys, romOffset_eq, Nat.mod_eq_of_lt (Nat.lt_succ_of_le ha), Config.romBankSize]

/-- In the ROMX window the offset counts from the window's start. -/
theorem romPhys_of_romx {a : Addr} (ha : Addr.within 0x4000 0x7FFF a = true) (n b : Nat) :
    romPhys n b a = b % n * 0x4000 + (a.toNat - 0x4000) := by
  obtain ⟨hlo, hhi⟩ := Addr.within_iff.1 ha
  have hoffset : a.toNat % 0x4000 = a.toNat - 0x4000 := by omega
  rw [romPhys, romOffset_eq, hoffset, Config.romBankSize]

theorem readRomBank_rom0 {a : Addr} (ha : a.toNat ≤ 0x3FFF) (b : Nat) (s : State) :
    readRomBank b a s = answer (Memory.read s.rom (b % (s.romLen / 0x4000) * 0x4000 + a.toNat)) s := by
  rw [readRomBank, romPhys_of_rom0 ha, State.romBankCount, Config.romBankSize]

theorem readRomBank_romx {a : Addr} (ha : Addr.within 0x4000 0x7FFF a = true) (b : Nat) (s : State) :
    readRomBank b a s = answer (Memory.read s.rom (b % (s.romLen / 0x4000) * 0x4000 + (a.toNat - 0x4000))) s := by
  rw [readRomBank, romPhys_of_romx ha, State.romBankCount, Config.romBankSize]

/-- On 2 to the power of 5 banks or fewer every multiple of 32 is bank 0. -/
theorem mbc1Rom0Bank_mod {s : State} {k : Nat} (hk : k ≤ 5) (hlen : s.romLen = 0x4000 * 2 ^ k) :
    mbc1Rom0Bank s % (s.romLen / 0x4000) = 0 := by
  rw [hlen, Nat.mul_div_cancel_left _ (by decide), mbc1Rom0Bank_eq_ite]
  split
  · exact Nat.mod_eq_zero_of_dvd (Dvd.dvd.mul_right (pow_dvd_pow 2 hk) _)
  · exact Nat.zero_mod _

/-- Settles O24: the window shows the mode's bank, and up to 32 banks that bank reduces to 0. -/
theorem mbc1RomZeroWindowFollowsTheMode : Obligations.Mbc1RomZeroWindowFollowsTheMode := by
  refine ⟨fun a s ha => ?_, fun a s k ha hk hlen => ?_⟩
  · rw [← mbc1Rom0Bank_eq_ite]
    exact readRomBank_rom0 ha _ s
  · calc exec (.mbc1RdRom0 a) s
      _ = answer (Memory.read s.rom (mbc1Rom0Bank s % (s.romLen / 0x4000) * 0x4000 + a.toNat)) s := readRomBank_rom0 ha _ s
      _ = answer (Memory.read s.rom a.toNat) s := by rw [mbc1Rom0Bank_mod hk hlen, Nat.zero_mul, Nat.zero_add]

/-- A ROMX window with zero-bank aliasing (R131, R151, R171). -/
theorem readRomBank_aliased {a : Addr} (ha : Addr.within 0x4000 0x7FFF a = true) (s : State) :
    readRomBank (aliasZeroBank s.romBankNumber) a s = answer (Memory.read s.rom
      ((if s.romBankNumber.toNat = 0 then 1 else s.romBankNumber.toNat) % (s.romLen / 0x4000) * 0x4000
        + (a.toNat - 0x4000))) s := by
  rw [readRomBank_romx ha, aliasZeroBank_eq_ite]

/-- Such a window shows bank 1 where the register holds 0. -/
theorem readRomBank_aliased_zero {a : Addr} (ha : Addr.within 0x4000 0x7FFF a = true) {s : State}
    (hb : s.romBankNumber.toNat = 0) : readRomBank (aliasZeroBank s.romBankNumber) a s =
      answer (Memory.read s.rom (1 % (s.romLen / 0x4000) * 0x4000 + (a.toNat - 0x4000))) s := by
  rw [readRomBank_aliased ha, if_pos hb]

/-- Settles O25: the three variants show the aliased bank of the stored value, which masking the data makes 0 in the writes named. -/
theorem romxWindowAliasesBankZeroToOne : Obligations.RomxWindowAliasesBankZeroToOne := by
  refine ⟨fun a s ha => ?_, fun a w d s ha hd => ?_, fun a w d s ha hd => ?_⟩
  · have hread := readRomBank_aliased ha s
    exact ⟨hread, hread, hread⟩
  · exact ⟨_, rfl, readRomBank_aliased_zero ha ((mbc1Bank1Value_toNat d).trans hd)⟩
  · exact ⟨_, rfl, readRomBank_aliased_zero ha ((mbc3RombValue_toNat d).trans hd)⟩

/-- Settles O29: the bits in use bound both banks, and on 128 banks an index stands in the bank that is shown. -/
theorem mbc1ReachesOnlyTheStatedBanks : Obligations.Mbc1ReachesOnlyTheStatedBanks := by
  intro s hs hk
  obtain ⟨hlo, hhi⟩ := mbc1RomxBank_bounds hs hk
  have hmem := mbc1Rom0Bank_mem hs hk
  refine ⟨fun a ha => ⟨mbc1RomxBank s, hlo, hhi, romPhys_of_romx ha _ _, readRomBank_romx ha _ s⟩,
    fun a ha => ⟨mbc1Rom0Bank s, hmem, romPhys_of_rom0 ha _ _, readRomBank_rom0 ha _ s⟩, fun hcount a i hi => ?_⟩
  simp only [List.mem_cons, List.not_mem_nil, or_false] at hi hmem
  rcases hi with rfl | rfl
  · rw [romPhys_div, hcount]
    omega
  · rw [romPhys_div, hcount]
    omega

/-! ### The RAM region (R103, R134, R139, R218, R219) -/

/-- A read of the RAM region, with the cell counted from the region's start. -/
theorem readRamBank_of_within {a : Addr} (ha : Addr.within 0xA000 0xBFFF a = true) {s : State} (hk : s.kind ≠ .romOnly)
    (b : Nat) : readRamBank b a s = answer (if s.ramEnabled = true ∧ 0 < s.ramLen then
      Memory.read s.ram ((b * 0x2000 + (a.toNat - 0xA000)) % s.ramLen) else 0xFF) s := by
  rw [readRamBank_eq_answer hk, ramOff_of_within ha, Config.openBus]

/-- Settles O36: both variants read the effective bank behind the gate. -/
theorem bankedRamReadIsGatedAndTranslated : Obligations.BankedRamReadIsGatedAndTranslated := by
  refine fun a s ha => ⟨fun hk => ?_, fun hk => readRamBank_of_within ha (by simp [hk]) _⟩
  rw [← mbc1RamBank_eq_ite]
  exact readRamBank_of_within ha (by simp [hk]) _

/-- A write behind the closed gate, or without RAM, is dropped. -/
theorem writeRamBank_of_closed {s : State} (hk : s.kind ≠ .romOnly) (hclosed : s.ramEnabled = false ∨ s.ramLen = 0)
    (b : Nat) (a : Addr) (d : Byte) : writeRamBank b a d s = done s := by
  refine if_neg fun hok => ?_
  obtain ⟨hon, hlen⟩ := (ramAccessOk_iff hk).1 hok
  rcases hclosed with hoff | hnone
  · exact Bool.eq_false_iff.1 hoff hon
  · exact hlen.ne' hnone

/-- A write behind the open gate stores the cell counted from the region's start, and no other. -/
theorem writeRamBank_storesOneCell {a : Addr} (ha : Addr.within 0xA000 0xBFFF a = true) {s : State}
    (hk : s.kind ≠ .romOnly) (hon : s.ramEnabled = true) (hlen : 0 < s.ramLen) (hwf : Memory.wf s.ram = true)
    (b : Nat) (d : Byte) : ∃ m : Memory, writeRamBank b a d s = .next { s with ram := m, output := .nothing } ∧
      Memory.read m ((b * 0x2000 + (a.toNat - 0xA000)) % s.ramLen) = d ∧
      ∀ j, j ≠ (b * 0x2000 + (a.toNat - 0xA000)) % s.ramLen → Memory.read m j = Memory.read s.ram j := by
  rw [← ramOff_of_within ha]
  exact ⟨_, writeRamBank_of_enabled hk hon hlen b a d, Memory.read_write_same hwf _ d,
    fun j hj => Memory.read_write_of_ne hwf d hj⟩

/-- Settles O37: both variants write the effective bank behind the gate. -/
theorem bankedRamWriteStoresOneCell : Obligations.BankedRamWriteStoresOneCell := by
  refine fun a d s ha => ⟨fun hclosed => ⟨fun hk => ?_, fun hk => ?_⟩, fun hon hlen hwf => ⟨fun hk => ?_, fun hk => ?_⟩⟩
  · exact writeRamBank_of_closed (by simp [hk]) hclosed _ a d
  · exact writeRamBank_of_closed (by simp [hk]) hclosed _ a d
  · rw [← mbc1RamBank_eq_ite]
    exact writeRamBank_storesOneCell ha (by simp [hk]) hon hlen hwf _ d
  · exact writeRamBank_storesOneCell ha (by simp [hk]) hon hlen hwf _ d

/-! ### The control writes (R135 to R138) -/

theorem enablesRam_eq_decide (d : Byte) : enablesRam d = decide (d.toNat % 16 = 10) := by
  rw [Bool.eq_iff_iff, enablesRam_iff, decide_eq_true_eq]

/-- Settles O30: the four variants share the gate write, which stores whether the low nibble is 0x0A. -/
theorem ramEnableWriteTestsTheLowNibble : Obligations.RamEnableWriteTestsTheLowNibble := by
  intro a d s
  rw [← enablesRam_eq_decide]
  exact ⟨rfl, rfl, rfl, rfl⟩

theorem mbc1Bank1Value_eq_ofNat (d : Byte) : mbc1Bank1Value d = BitVec.ofNat 9 (d.toNat % 32) := by
  rw [← mbc1Bank1Value_toNat, BitVec.ofNat_toNat, BitVec.setWidth_eq]

theorem mbc1Bank2Value_eq_ofNat (d : Byte) : mbc1Bank2Value d = BitVec.ofNat 8 (d.toNat % 4) := by
  rw [← mbc1Bank2Value_toNat, BitVec.ofNat_toNat, BitVec.setWidth_eq]

theorem modeOfData_eq_ite (d : Byte) : modeOfData d = if d.toNat % 2 = 1 then .advanced else .simple := by
  simp only [← modeOfData_eq_advanced]
  cases modeOfData d with
  | simple => rfl
  | advanced => rfl

/-- Settles O31: each write stores its masked field, read as a number. -/
theorem mbc1ControlWritesStoreTheirFields : Obligations.Mbc1ControlWritesStoreTheirFields := by
  intro a d s
  rw [← mbc1Bank1Value_eq_ofNat, ← mbc1Bank2Value_eq_ofNat, ← modeOfData_eq_ite]
  exact ⟨rfl, rfl, rfl⟩

end Sys2Proof.Machine
end

section
/-! MBC2 (42_mbc2.md R150 to R158): the nibble RAM, with the ROM0 window and the bank writes that MBC3 and MBC5 share with it. -/

namespace Sys2Proof.Machine

/-! ### The nibble RAM (R154, R158) -/

/-- The byte an MBC2 read makes of a cell: the high nibble all ones, the low nibble the cell's (R154). -/
theorem mbc2ReadByte_toNat (v : Byte) : (0xF0 ||| v).toNat = 0xF0 + v.toNat % 16 := by
  revert v; decide

/-- What an MBC2 write keeps of the data (R158). -/
theorem mbc2WriteNibble_toNat (d : Byte) : (d &&& 0x0F).toNat = d.toNat % 16 := by
  revert d; decide

section

variable {s : State}

theorem execMbc2RdRam_of_disabled (hoff : s.ramEnabled = false) (a : Addr) :
    execMbc2RdRam a s = answer Config.openBus s := if_neg (Bool.eq_false_iff.1 hoff)

theorem execMbc2WrRam_of_disabled (hoff : s.ramEnabled = false) (a : Addr) (d : Byte) :
    execMbc2WrRam a d s = done s := if_neg (Bool.eq_false_iff.1 hoff)

theorem execMbc2RdRam_of_enabled (hon : s.ramEnabled = true) (a : Addr) :
    execMbc2RdRam a s = answer (0xF0 ||| Memory.read s.ram (a.toNat % 0x200)) s := by
  rw [execMbc2RdRam, if_pos hon, mbc2Cell_eq]

theorem execMbc2WrRam_of_enabled (hon : s.ramEnabled = true) (a : Addr) (d : Byte) :
    execMbc2WrRam a d s = done { s with ram := Memory.write s.ram (a.toNat % 0x200) (d &&& 0x0F) } := by
  rw [execMbc2WrRam, if_pos hon, mbc2Cell_eq]

end

/-- Settles O38: the gate alone decides, the byte read is `0xF0` plus the cell's low nibble, and the write stores the data's. -/
theorem mbc2RamHoldsNibbles : Obligations.Mbc2RamHoldsNibbles := by
  intro a d s
  have hbyte := mbc2ReadByte_toNat (Memory.read s.ram (a.toNat % 0x200))
  refine ⟨fun hoff => ⟨execMbc2RdRam_of_disabled hoff a, execMbc2WrRam_of_disabled hoff a d⟩, fun hon hcell => ?_,
    fun hon => ?_, fun hon hwf => ?_⟩
  · exact ⟨_, execMbc2RdRam_of_enabled hon a, by rw [hbyte, Nat.mod_eq_of_lt hcell]⟩
  · exact ⟨_, execMbc2RdRam_of_enabled hon a, by omega, by omega⟩
  · refine ⟨_, execMbc2WrRam_of_enabled hon a d, ?_, fun j hj => Memory.read_write_of_ne hwf _ hj⟩
    rw [Memory.read_write_same hwf, mbc2WriteNibble_toNat]

/-! ### The ROM0 window (R152, R172, R212) -/

/-- Bank 0 is the start of the image, whatever the number of banks. -/
theorem readRomBank_zero_rom0 {a : Addr} (ha : a.toNat ≤ 0x3FFF) (s : State) :
    readRomBank 0 a s = answer (Memory.read s.rom a.toNat) s := by
  rw [readRomBank_rom0 ha, Nat.zero_mod, Nat.zero_mul, Nat.zero_add]

/-- Settles O23: the three variants share the read of bank 0. -/
theorem romZeroWindowShowsBankZero : Obligations.RomZeroWindowShowsBankZero := by
  intro a s ha
  have hread := readRomBank_zero_rom0 ha s
  exact ⟨hread, hread, hread⟩

/-! ### The bank writes (R156, R175, R176) -/

theorem mbc2RombValue_eq_ofNat (d : Byte) : mbc2RombValue d = BitVec.ofNat 9 (d.toNat % 16) := by
  rw [← mbc2RombValue_toNat, BitVec.ofNat_toNat, BitVec.setWidth_eq]

theorem mbc3RombValue_eq_ofNat (d : Byte) : mbc3RombValue d = BitVec.ofNat 9 (d.toNat % 128) := by
  rw [← mbc3RombValue_toNat, BitVec.ofNat_toNat, BitVec.setWidth_eq]

/-- Settles O32: the two ROMB writes store their masked field, read as a number, and the SEL write stores the data as it is. -/
theorem mbc2AndMbc3BankWritesStoreTheirFields : Obligations.Mbc2AndMbc3BankWritesStoreTheirFields := by
  intro a d s
  rw [← mbc2RombValue_eq_ofNat, ← mbc3RombValue_eq_ofNat, BitVec.ofNat_toNat, BitVec.setWidth_eq]
  exact ⟨rfl, rfl, rfl⟩

end Sys2Proof.Machine
end

section
/-! MBC3's RAM region and its latch (43_mbc3.md R177 to R181, R187): what the select register reaches, what a LATCH write makes of
the clock, and which steps leave the latched registers. -/

namespace Sys2Proof.Machine

/-! ### The select register (R178) -/

/-- With a clock the values 8 to 0x0C select its registers. -/
theorem selTarget_rtc {sel : BitVec 8} {i : Fin 5} (h : sel.toNat = 8 + i.val) : selTarget sel true = .rtc i := by
  rw [selTarget, h]
  fin_cases i <;> rfl

/-- From 4 on a value selects nothing below 8, above 0x0C, and on a block without a clock. -/
theorem selTarget_none {sel : BitVec 8} {c : Bool} (hlo : 4 ≤ sel.toNat)
    (h : sel.toNat ≤ 7 ∨ 0x0D ≤ sel.toNat ∨ c = false) : selTarget sel c = .none := by
  rw [selTarget, if_neg (by omega)]
  cases c with
  | false => rfl
  | true =>
    simp only [Bool.true_eq_false, or_false] at h
    rw [if_pos rfl]
    split
    case h_6 => rfl
    all_goals omega

theorem hasRtc_of_some {s : State} {r : Rtc} (hr : s.rtc = some r) : s.hasRtc = true := (hasRtc_eq_true s).2 ⟨r, hr⟩

/-- What reaches nothing: 4 to 7, every value from 0x0D on, and on a block without a clock every value from 8 on. -/
theorem selTarget_of_unselected {s : State} (h : s.ramBankNumber.toNat = 4 ∨ s.ramBankNumber.toNat = 5 ∨
    s.ramBankNumber.toNat = 6 ∨ s.ramBankNumber.toNat = 7 ∨ 0x0D ≤ s.ramBankNumber.toNat ∨
    (8 ≤ s.ramBankNumber.toNat ∧ s.rtc = none)) : selTarget s.ramBankNumber s.hasRtc = .none := by
  refine selTarget_none (by omega) ?_
  by_cases hnone : s.rtc = none
  · exact .inr (.inr (by rw [State.hasRtc, hnone]; rfl))
  · simp only [hnone, and_false, or_false] at h
    omega

/-! ### Reads and writes of the RAM region (R179 to R181) -/

section

variable {s : State}

theorem execMbc3RdRam_of_disabled (hoff : s.ramEnabled = false) (a : Addr) :
    execMbc3RdRam a s = answer Config.openBus s := if_neg (Bool.eq_false_iff.1 hoff)

theorem execMbc3WrRam_of_disabled (hoff : s.ramEnabled = false) (a : Addr) (d : Byte) :
    execMbc3WrRam a d s = done s := if_neg (Bool.eq_false_iff.1 hoff)

theorem execMbc3RdRam_of_ramLen_zero (hon : s.ramEnabled = true) (hsel : s.ramBankNumber.toNat ≤ 3) (hlen : s.ramLen = 0)
    (a : Addr) : execMbc3RdRam a s = answer Config.openBus s := by
  simp only [execMbc3RdRam, selTarget_ramBank hsel, if_pos hon, if_pos hlen]

theorem execMbc3WrRam_of_ramLen_zero (hsel : s.ramBankNumber.toNat ≤ 3) (hlen : s.ramLen = 0) (a : Addr) (d : Byte) :
    execMbc3WrRam a d s = done s := by
  simp only [execMbc3WrRam, selTarget_ramBank hsel, if_neg (Nat.not_lt.2 hlen.le), ite_self]

/-- A selected clock register is read from the latched set, whatever the address (R180). -/
theorem execMbc3RdRam_rtc {i : Fin 5} {r : Rtc} (hon : s.ramEnabled = true) (hsel : s.ramBankNumber.toNat = 8 + i.val)
    (hr : s.rtc = some r) (a : Addr) : execMbc3RdRam a s = answer (r.latched.get i) s := by
  simp only [execMbc3RdRam, if_pos hon, hasRtc_of_some hr, selTarget_rtc hsel, readRtc, hr]

/-- A selected clock register is written in the live set (R181). -/
theorem execMbc3WrRam_rtc {i : Fin 5} {r : Rtc} (hon : s.ramEnabled = true) (hsel : s.ramBankNumber.toNat = 8 + i.val)
    (hr : s.rtc = some r) (a : Addr) (d : Byte) :
    execMbc3WrRam a d s = done { s with rtc := some { r with live := r.live.set i d } } := by
  simp only [execMbc3WrRam, if_pos hon, hasRtc_of_some hr, selTarget_rtc hsel, writeRtc, hr]

theorem execMbc3RdRam_none (hsel : selTarget s.ramBankNumber s.hasRtc = .none) (a : Addr) :
    execMbc3RdRam a s = answer Config.openBus s := by
  simp only [execMbc3RdRam, hsel, ite_self]

theorem execMbc3WrRam_none (hsel : selTarget s.ramBankNumber s.hasRtc = .none) (a : Addr) (d : Byte) :
    execMbc3WrRam a d s = done s := by
  simp only [execMbc3WrRam, hsel, ite_self]

end

/-- Settles O39, by the gate and then by what the select register selects. -/
theorem mbc3RamRegionReadFollowsTheSelect : Obligations.Mbc3RamRegionReadFollowsTheSelect := by
  refine fun a s ha => ⟨fun hoff => execMbc3RdRam_of_disabled hoff a, fun hon hsel => ?_,
    fun i r hon hsel hr => execMbc3RdRam_rtc hon hsel hr a, fun _ hsel => execMbc3RdRam_none (selTarget_of_unselected hsel) a⟩
  split
  · next hlen => exact execMbc3RdRam_of_ramLen_zero hon hsel hlen a
  · next hlen =>
    rw [← ramOff_of_within ha]
    exact execMbc3RdRam_ramBank hon hsel (Nat.pos_of_ne_zero hlen) a

/-- Settles O40, by the gate and then by what the select register selects. -/
theorem mbc3RamRegionWriteFollowsTheSelect : Obligations.Mbc3RamRegionWriteFollowsTheSelect := by
  refine fun a d s ha => ⟨fun hoff => execMbc3WrRam_of_disabled hoff a d,
    fun hsel hlen => execMbc3WrRam_of_ramLen_zero hsel hlen a d, fun hon hsel hlen hwf => ?_, fun i r hon hsel hr => ?_,
    fun hsel => execMbc3WrRam_none (selTarget_of_unselected hsel) a d⟩
  · rw [← ramOff_of_within ha]
    exact ⟨_, execMbc3WrRam_ramBank hon hsel hlen a d, Memory.read_write_same hwf _ d,
      fun j hj => Memory.read_write_of_ne hwf d hj⟩
  · refine ⟨_, execMbc3WrRam_rtc hon hsel hr a d, ?_, fun j hj => ?_⟩
    · rw [RtcRegs.get_set, if_pos rfl]
    · rw [RtcRegs.get_set, if_neg hj.symm]

/-! ### The latch (R177) -/

/-- A LATCH write with the data as a number. -/
theorem latchWrite_eq_ite (d : Byte) (r : Rtc) : latchWrite d r =
    if d.toNat = 0 then ⟨r.live, r.latched, true⟩
    else if d.toNat = 1 ∧ r.latchArmed = true then ⟨r.live, r.live, false⟩
    else ⟨r.live, r.latched, false⟩ := by
  simp only [latchWrite, ← BitVec.toNat_inj]
  rfl

/-- Only a write of 1 on an armed clock changes the latched registers. -/
theorem latchWrite_latched {d : Byte} {r : Rtc} (h : ¬ (d = 0x01 ∧ r.latchArmed = true)) :
    (latchWrite d r).latched = r.latched := by
  rw [latchWrite, if_neg h]
  split
  · rfl
  · rfl

/-- The latched registers and the armed flag of the clock, where there is one (R29). -/
def State.latch (s : State) : Option (RtcRegs × Bool) := s.rtc.map fun r => (r.latched, r.latchArmed)

theorem latched_eq_latch (s : State) : s.rtc.map (fun r => r.latched) = s.latch.map Prod.fst := by
  rw [State.latch, Option.map_map]
  rfl

theorem latchArmed_eq_latch (s : State) : s.rtc.map (fun r => r.latchArmed) = s.latch.map Prod.snd := by
  rw [State.latch, Option.map_map]
  rfl

/-- Whatever becomes of the live registers, the latch stays. -/
theorem latch_of_live {s t : State} {f : Rtc → RtcRegs} (h : t.rtc = s.rtc.map fun r => { r with live := f r }) :
    t.latch = s.latch := by
  rw [State.latch, h, Option.map_map]
  rfl

/-- If the outcome is a next state, it has the latch of `s`. -/
def KeepsLatch (s : State) (r : Result) : Prop := ∀ t, r = .next t → t.latch = s.latch

theorem keepsLatch_next {s t : State} (h : t.latch = s.latch) : KeepsLatch s (.next t) := by
  rintro _ ⟨⟩
  exact h

theorem keepsLatch_ite {c : Prop} [Decidable c] {s : State} {x y : Result} (hx : KeepsLatch s x) (hy : KeepsLatch s y) :
    KeepsLatch s (if c then x else y) := by
  split
  · exact hx
  · exact hy

theorem keepsLatch_readRtc (i : Fin 5) (s : State) : KeepsLatch s (readRtc i s) := by
  unfold readRtc
  split
  · exact keepsLatch_next rfl
  · exact keepsLatch_next rfl

theorem keepsLatch_writeRtc (i : Fin 5) (d : Byte) (s : State) : KeepsLatch s (writeRtc i d s) := by
  unfold writeRtc
  split
  · next r hr => exact keepsLatch_next (latch_of_live (f := fun r => r.live.set i d) (by rw [hr]; rfl))
  · exact keepsLatch_next rfl

/-- Every meaning but the LATCH write's keeps the latch (R177, R181). -/
theorem exec_keepsLatch {i : Instr} (hi : ∀ a d, i ≠ .mbc3WrLatch a d) (s : State) : KeepsLatch s (exec i s) := by
  cases i with
  | mbc3WrLatch a d => exact absurd rfl (hi a d)
  | mbc6Any w a d | mbc7Any w a d | mmm01Any w a d => exact fun _ h => absurd h refuseVariant_ne_next
  | roRdRam a | roWrRam a d | mbc1RdRam a | mbc1WrRam a d | mbc2RdRam a | mbc2WrRam a d | mbc5RdRam a
  | mbc5WrRam a d => exact keepsLatch_ite (keepsLatch_next rfl) (keepsLatch_next rfl)
  | mbc3RdRam a =>
    refine keepsLatch_ite ?_ (keepsLatch_next rfl)
    split
    · exact keepsLatch_ite (keepsLatch_next rfl) (keepsLatch_next rfl)
    · exact keepsLatch_readRtc _ s
    · exact keepsLatch_next rfl
  | mbc3WrRam a d =>
    refine keepsLatch_ite ?_ (keepsLatch_next rfl)
    split
    · exact keepsLatch_ite (keepsLatch_next rfl) (keepsLatch_next rfl)
    · exact keepsLatch_writeRtc _ d s
    · exact keepsLatch_next rfl
  | _ => exact keepsLatch_next rfl

/-- A word that decodes to a LATCH write is an MBC3 block's write of the LATCH range, with the word's data (R75). -/
theorem decode_latch {m : MapperKind} {T : Word} {a : Addr} {d : Byte} (h : decode m T = .ok (.mbc3WrLatch a d)) :
    m = .mbc3 ∧ writesWithin 0x6000 0x7FFF T = true ∧ Word.data T = d := by
  obtain ⟨⟨hwf, htr⟩, hm⟩ := decode_eq_ok_iff.1 h
  obtain ⟨hwrite, rfl, hdata⟩ := Word.transaction_eq_write.1 htr.symm
  exact ⟨List.mem_singleton.1 hm, (Bool.and_eq_true ..).mpr ⟨hwrite, hwf⟩, hdata⟩

/-- A step that constructs nothing keeps the latch, or takes an MBC3 block's LATCH write. -/
theorem StepEffect.latch {s t : State} (h : StepEffect s t) (hn : constructsNext s = false) :
    t.latch = s.latch ∨ ∃ (T : Word) (rest : List Input), s.pending = .bus T :: rest ∧ s.kind = .mbc3 ∧
      writesWithin 0x6000 0x7FFF T = true ∧ t.rtc = s.rtc.map (latchWrite (Word.data T)) := by
  cases h with
  | @bus T rest i _ hp hd he =>
    by_cases hi : ∃ a d, i = .mbc3WrLatch a d
    · obtain ⟨a, d, rfl⟩ := hi
      obtain ⟨hk, hw, rfl⟩ := decode_latch hd
      exact .inr ⟨T, rest, hp, hk, hw, by rw [done_eq_next.1 he]⟩
    · have hkeep := exec_keepsLatch (fun a d hlatch => hi ⟨a, d, hlatch⟩) _ t he
      exact .inl hkeep
  | construct hp =>
    rw [constructsNext, hp] at hn
    cases hn
  | restored | tick => exact .inl (latch_of_live rfl)
  | idle | ignored | persist | sample | sensor | noSensor => exact .inl rfl

/-- Settles O42: the LATCH write on numbers, and the step that takes another input keeps the latch, its armed flag included. -/
theorem latchWriteFollowsTheProtocol : Obligations.LatchWriteFollowsTheProtocol := by
  refine ⟨fun a d s => ⟨fun hnone => ?_, fun r hr => ?_⟩, fun s t hn h hother => ?_⟩
  · have hkeep : s.rtc.map (latchWrite d) = s.rtc := by rw [hnone]; rfl
    rw [exec, execMbc3WrLatch, hkeep]
    rfl
  · rw [← latchWrite_eq_ite, exec, execMbc3WrLatch, hr]
    rfl
  · rcases (step_effect h).latch hn with hlatch | ⟨T, rest, hp, -, hw, -⟩
    · rw [latchArmed_eq_latch, latchArmed_eq_latch, hlatch]
    · rw [hother T rest hp] at hw
      cases hw

/-! ### Between two latches (R187) -/

/-- What each step from a state with `P` keeps, a run through such states keeps. -/
theorem run_keeps {α : Type} {view : State → α} {P : State → Prop}
    (hstep : ∀ s t, P s → step s = .next t → view t = view s) {n : Nat} {s t : State}
    (hrun : Host.Core.run Sys2Proof.core n s = .next t)
    (hP : ∀ k < n, ∀ u, Host.Core.run Sys2Proof.core k s = .next u → P u) : view t = view s := by
  induction n generalizing s with
  | zero =>
    cases hrun
    rfl
  | succ n ih =>
    obtain ⟨u, hsu, hut⟩ := run_succ_next hrun
    calc view t
      _ = view u := ih hut fun k hk v hv => hP (k + 1) (Nat.succ_lt_succ hk) v ((run_of_step hsu).trans hv)
      _ = view s := hstep s u (hP 0 n.succ_pos s rfl) hsu

/-- An MBC3 block's LATCH write latches exactly when it writes 1 on an armed clock. -/
theorem latchesNext_eq_false_iff {s : State} {T : Word} {rest : List Input} {r : Rtc} (hp : s.pending = .bus T :: rest)
    (hr : s.rtc = some r) (hk : s.kind = .mbc3) (hw : writesWithin 0x6000 0x7FFF T = true) :
    latchesNext s = false ↔ ¬ (Word.data T = 0x01 ∧ r.latchArmed = true) := by
  simp [latchesNext, hp, hr, hk, hw]

/-- A step that latches nothing and constructs nothing keeps the latched registers. -/
theorem step_keeps_latched {s t : State} (hs : latchesNext s = false ∧ constructsNext s = false) (h : step s = .next t) :
    t.rtc.map (fun r => r.latched) = s.rtc.map (fun r => r.latched) := by
  obtain ⟨hlatches, hconstructs⟩ := hs
  rcases (step_effect h).latch hconstructs with hlatch | ⟨T, rest, hp, hk, hw, ht⟩
  · rw [latched_eq_latch, latched_eq_latch, hlatch]
  · rw [ht]
    cases hr : s.rtc with
    | none => rfl
    | some r => exact congrArg some (latchWrite_latched ((latchesNext_eq_false_iff hp hr hk hw).1 hlatches))

/-- Settles O43: the run keeps the latched registers, step by step, and the read returns them. -/
theorem latchedRegistersAreFrozenBetweenLatches : Obligations.LatchedRegistersAreFrozenBetweenLatches := by
  intro n s t r hr hrun hquiet
  have hkept := run_keeps (view := fun u => u.rtc.map fun r => r.latched) (fun _ _ => step_keeps_latched) hrun hquiet
  rw [hr, Option.map_some] at hkept
  obtain ⟨q, hq, hlatched⟩ := Option.map_eq_some_iff.1 hkept
  exact ⟨⟨q, hq, hlatched⟩, fun a i hon hsel => hlatched ▸ execMbc3RdRam_rtc hon hsel hq a⟩

end Sys2Proof.Machine
end

section
/-! The live clock's advance (43_mbc3.md R185, R186): each field of a step as a number, the four cases of its carries, and runs of
steps. -/

namespace Sys2Proof.Machine

/-! ### Fields as numbers (R185) -/

/-- The used bits of seconds and minutes. -/
theorem and_0x3F_toNat (v : Byte) : (v &&& 0x3F).toNat = v.toNat % 64 := by
  revert v; decide

/-- The used bits of hours. -/
theorem and_0x1F_toNat (v : Byte) : (v &&& 0x1F).toNat = v.toNat % 32 := by
  revert v; decide

/-- Seconds and minutes count up within their used bits. -/
theorem succ_and_0x3F_toNat (v : Byte) : (((v &&& 0x3F) + 1) &&& 0x3F).toNat = (v.toNat % 64 + 1) % 64 := by
  revert v; decide

/-- Hours count up within their used bits. -/
theorem succ_and_0x1F_toNat (v : Byte) : (((v &&& 0x1F) + 1) &&& 0x1F).toNat = (v.toNat % 32 + 1) % 32 := by
  revert v; decide

theorem rtcCarry_eq_decide (r : RtcRegs) : rtcCarry r = decide (128 ≤ r.dh.toNat) := by
  have hbit : ∀ v : Byte, v.getLsbD 7 = decide (128 ≤ v.toNat) := by decide
  exact hbit r.dh

/-- The day counter is the fourth register and bit 0 of the fifth. -/
theorem dayCounter_toNat (r : RtcRegs) : (dayCounter r).toNat = r.dl.toNat + 256 * (r.dh.toNat % 2) := by
  have hbit : ((r.dh.extractLsb' 0 1).setWidth 9 <<< 8).toNat = 2 ^ 8 * (r.dh.toNat % 2) := by
    generalize r.dh = v
    revert v; decide
  rw [dayCounter, BitVec.toNat_or, hbit, BitVec.toNat_setWidth_of_le (by decide), Nat.or_comm,
    ← Nat.two_pow_add_eq_or_of_lt r.dl.isLt]
  omega

theorem dhOf_toNat (d : BitVec 9) (c : Bool) : (dhOf d c).toNat = (if c then 128 else 0) + d.toNat / 256 := by
  revert d c; decide

/-- Without a day passed the fourth register stays. -/
theorem setWidth_dayCounter (r : RtcRegs) : (dayCounter r).setWidth 8 = r.dl := by
  apply BitVec.eq_of_toNat_eq
  rw [BitVec.toNat_setWidth, dayCounter_toNat]
  omega

/-- Without a day passed the fifth register keeps bit 0 and bit 7, and no other. -/
theorem dhOf_dayCounter_toNat (r : RtcRegs) :
    (dhOf (dayCounter r) (rtcCarry r)).toNat = r.dh.toNat / 128 * 128 + r.dh.toNat % 2 := by
  rw [dhOf_toNat, dayCounter_toNat, rtcCarry_eq_decide]
  simp only [decide_eq_true_eq]
  split
  · omega
  · omega

/-! ### What counts up and carries (R186) -/

theorem countUp_sixty (v : Byte) : countUp 59 0x3F (v &&& 0x3F) =
    if v.toNat % 64 = 59 then (0, true) else (((v &&& 0x3F) + 1) &&& 0x3F, false) := by
  rw [countUp, ← and_0x3F_toNat]
  exact if_congr BitVec.toNat_inj.symm rfl rfl

theorem countUp_hours (v : Byte) : countUp 23 0x1F (v &&& 0x1F) =
    if v.toNat % 32 = 23 then (0, true) else (((v &&& 0x1F) + 1) &&& 0x1F, false) := by
  rw [countUp, ← and_0x1F_toNat]
  exact if_congr BitVec.toNat_inj.symm rfl rfl

theorem countUpIf_false (top bits v : Byte) : countUpIf false top bits v = (v, false) := rfl

theorem countUpIf_true (top bits v : Byte) : countUpIf true top bits v = countUp top bits v := rfl

theorem countDay_false (d : BitVec 9) (c : Bool) : countDay false d c = (d, c) := rfl

/-- A day passes modulo 512. -/
theorem countDay_fst_toNat (d : BitVec 9) (c : Bool) : (countDay true d c).1.toNat = (d.toNat + 1) % 512 := by
  revert d c; decide

/-- The carry is sticky, and set when the day counter overflows. -/
theorem countDay_snd (d : BitVec 9) (c : Bool) : (countDay true d c).2 = (decide (d.toNat = 511) || c) := by
  revert d c; decide

/-! ### One second of a running clock (R186) -/

section

variable {r : RtcRegs} (hrun : r.dh.getLsbD 6 = false)

include hrun

/-- The fields of a running clock's step, each from the carry of the field below it. -/
theorem rtcStep_of_running : rtcStep r =
    let s := countUp 59 0x3F (r.s &&& 0x3F)
    let m := countUpIf s.2 59 0x3F (r.m &&& 0x3F)
    let h := countUpIf m.2 23 0x1F (r.h &&& 0x1F)
    let d := countDay h.2 (dayCounter r) (rtcCarry r)
    ⟨s.1, m.1, h.1, d.1.setWidth 8, dhOf d.1 d.2⟩ := if_neg (Bool.eq_false_iff.1 hrun)

/-- No carry. -/
theorem rtcStep_of_second (hs : r.s.toNat % 64 ≠ 59) : rtcStep r =
    ⟨((r.s &&& 0x3F) + 1) &&& 0x3F, r.m &&& 0x3F, r.h &&& 0x1F, r.dl, dhOf (dayCounter r) (rtcCarry r)⟩ := by
  simp only [rtcStep_of_running hrun, countUp_sixty, if_neg hs, countUpIf_false, countDay_false, setWidth_dayCounter]

/-- A carry into minutes. -/
theorem rtcStep_of_minute (hs : r.s.toNat % 64 = 59) (hm : r.m.toNat % 64 ≠ 59) : rtcStep r =
    ⟨0, ((r.m &&& 0x3F) + 1) &&& 0x3F, r.h &&& 0x1F, r.dl, dhOf (dayCounter r) (rtcCarry r)⟩ := by
  simp only [rtcStep_of_running hrun, countUp_sixty, if_pos hs, if_neg hm, countUpIf_true, countUpIf_false, countDay_false,
    setWidth_dayCounter]

/-- A carry into hours. -/
theorem rtcStep_of_hour (hs : r.s.toNat % 64 = 59) (hm : r.m.toNat % 64 = 59) (hh : r.h.toNat % 32 ≠ 23) : rtcStep r =
    ⟨0, 0, ((r.h &&& 0x1F) + 1) &&& 0x1F, r.dl, dhOf (dayCounter r) (rtcCarry r)⟩ := by
  simp only [rtcStep_of_running hrun, countUp_sixty, countUp_hours, if_pos hs, if_pos hm, if_neg hh, countUpIf_true,
    countDay_false, setWidth_dayCounter]

/-- A carry into the day counter. -/
theorem rtcStep_of_day (hs : r.s.toNat % 64 = 59) (hm : r.m.toNat % 64 = 59) (hh : r.h.toNat % 32 = 23) : rtcStep r =
    ⟨0, 0, 0, (countDay true (dayCounter r) (rtcCarry r)).1.setWidth 8,
      dhOf (countDay true (dayCounter r) (rtcCarry r)).1 (countDay true (dayCounter r) (rtcCarry r)).2⟩ := by
  simp only [rtcStep_of_running hrun, countUp_sixty, countUp_hours, if_pos hs, if_pos hm, if_pos hh, countUpIf_true]

end

/-- Settles O46, by how far the carry runs. -/
theorem invalidClockFieldsWrapWithoutCarry : Obligations.InvalidClockFieldsWrapWithoutCarry := by
  intro r hrun
  refine ⟨fun hs => ?_, fun hs hm => ?_, fun hs hm hh => ?_, fun hs hm hh => ?_⟩
  · rw [rtcStep_of_second hrun hs]
    exact ⟨succ_and_0x3F_toNat r.s, and_0x3F_toNat r.m, and_0x1F_toNat r.h, rfl, dhOf_dayCounter_toNat r⟩
  · rw [rtcStep_of_minute hrun hs hm]
    exact ⟨rfl, succ_and_0x3F_toNat r.m, and_0x1F_toNat r.h, rfl, dhOf_dayCounter_toNat r⟩
  · rw [rtcStep_of_hour hrun hs hm hh]
    exact ⟨rfl, rfl, succ_and_0x1F_toNat r.h, rfl, dhOf_dayCounter_toNat r⟩
  · rw [rtcStep_of_day hrun hs hm hh]
    have hday := dayCounter_toNat r
    refine ⟨rfl, rfl, rfl, ?_, ?_⟩
    · rw [BitVec.toNat_setWidth, countDay_fst_toNat, hday]
      omega
    · rw [dhOf_toNat, countDay_fst_toNat, countDay_snd, hday, rtcCarry_eq_decide]
      by_cases hlast : r.dl.toNat + 256 * (r.dh.toNat % 2) = 511
      · simp only [hlast, decide_true, Bool.true_or, if_pos]
      · simp only [hlast, decide_false, Bool.false_or, decide_eq_true_eq, if_false]
        split
        · omega
        · omega

/-- The halt bit of a clock in range is clear. -/
theorem RtcRegs.Running.halt_eq_false {r : RtcRegs} (h : r.Running) : r.dh.getLsbD 6 = false := by
  have hbit : ∀ v : Byte, v.toNat % 128 < 2 → v.getLsbD 6 = false := by decide
  exact hbit r.dh h.unused

theorem RtcRegs.running_iff {r : RtcRegs} :
    r.Running ↔ r.s.toNat < 60 ∧ r.m.toNat < 60 ∧ r.h.toNat < 24 ∧ r.dh.toNat % 128 < 2 :=
  ⟨fun ⟨hs, hm, hh, hdh⟩ => ⟨hs, hm, hh, hdh⟩, fun ⟨hs, hm, hh, hdh⟩ => ⟨hs, hm, hh, hdh⟩⟩

/-- Settles O45, by how far the carry runs: O46 gives the fields, which in range are their used bits. -/
theorem runningClockCountsSeconds : Obligations.RunningClockCountsSeconds := by
  intro r hr
  obtain ⟨hsecond, hminute, hhour, hday⟩ := invalidClockFieldsWrapWithoutCarry r hr.halt_eq_false
  obtain ⟨hs, hm, hh, hdh⟩ := hr
  have hdl := r.dl.isLt
  rw [RtcRegs.running_iff, RtcRegs.totalSeconds, RtcRegs.totalSeconds]
  by_cases hs59 : r.s.toNat % 64 = 59
  · by_cases hm59 : r.m.toNat % 64 = 59
    · by_cases hh23 : r.h.toNat % 32 = 23
      · obtain ⟨ts, tm, th, tdl, tdh⟩ := hday hs59 hm59 hh23
        split at tdh
        · omega
        · omega
      · obtain ⟨ts, tm, th, tdl, tdh⟩ := hhour hs59 hm59 hh23
        rw [tdl]
        omega
    · obtain ⟨ts, tm, th, tdl, tdh⟩ := hminute hs59 hm59
      rw [tdl]
      omega
  · obtain ⟨ts, tm, th, tdl, tdh⟩ := hsecond hs59
    rw [tdl]
    omega

/-! ### Runs of seconds (R186, R243) -/

/-- The default advance iterates the step. -/
theorem rtcAdvance_eq_iterate (r : RtcRegs) (n : Nat) : rtcAdvance r n = rtcStep^[n] r := by
  induction n generalizing r with
  | zero => rfl
  | succ n ih => exact ih (rtcStep r)

theorem rtcStep_of_halted {r : RtcRegs} (h : r.dh.getLsbD 6 = true) : rtcStep r = r := if_pos h

/-- Settles O47: a halted clock is a fixed point of the step, and iterating composes. -/
theorem haltedClockStandsStillAndAdvanceComposes : Obligations.HaltedClockStandsStillAndAdvanceComposes := by
  refine ⟨fun r n h => ?_, fun r m n => ?_⟩
  · rw [rtcAdvance_eq_iterate, Function.iterate_fixed (rtcStep_of_halted h)]
  · simp only [rtcAdvance_eq_iterate]
    rw [Nat.add_comm, Function.iterate_add_apply]

end Sys2Proof.Machine
end

section
/-! MBC5 (44_mbc5.md R211 to R217): the ROMX window without aliasing, the two halves of its 9-bit ROM bank register, and the RAMB write
with the motor bit. -/

namespace Sys2Proof.Machine

/-! ### The ROMX window (R211, R213) -/

/-- The ROMX window with bank 0 shows what the ROM0 window shows 0x4000 below. -/
theorem readRomBank_zero_romx {a : Addr} (ha : Addr.within 0x4000 0x7FFF a = true) (s : State) :
    readRomBank 0 a s = readRomBank 0 (a - 0x4000) s := by
  obtain ⟨hlo, hhi⟩ := Addr.within_iff.1 ha
  have hsub : (a - 0x4000).toNat = a.toNat - 0x4000 := BitVec.toNat_sub_of_le hlo
  have hrom0 : (a - 0x4000).toNat ≤ 0x3FFF := by omega
  rw [readRomBank_romx ha, readRomBank_rom0 hrom0, hsub]

/-- Settles O26: the stored bank is the effective one, and with 0 stored both windows show bank 0. -/
theorem mbc5RomxWindowHasNoAliasing : Obligations.Mbc5RomxWindowHasNoAliasing := by
  refine ⟨fun a s ha => readRomBank_romx ha _ s, fun a s ha hb => ?_⟩
  have hbank : mbc5RomxBank s = 0 := congrArg BitVec.toNat hb
  calc exec (.mbc5RdRomx a) s
    _ = readRomBank 0 a s := congrArg (readRomBank · a s) hbank
    _ = exec (.mbc5RdRom0 (a - 0x4000)) s := readRomBank_zero_romx ha s

/-! ### The ROM bank writes (R215, R216) -/

theorem mbc5Romb0Value_eq_ofNat (old : BitVec 9) (d : Byte) :
    mbc5Romb0Value old d = BitVec.ofNat 9 (old.toNat / 256 * 256 + d.toNat) := by
  have hvalue : old.toNat / 256 * 256 + d.toNat = (mbc5Romb0Value old d).toNat := by
    rw [mbc5Romb0Value_toNat]
    omega
  rw [hvalue, BitVec.ofNat_toNat, BitVec.setWidth_eq]

theorem mbc5Romb1Value_eq_ofNat (old : BitVec 9) (d : Byte) :
    mbc5Romb1Value old d = BitVec.ofNat 9 (old.toNat % 256 + 256 * (d.toNat % 2)) := by
  have hvalue : old.toNat % 256 + 256 * (d.toNat % 2) = (mbc5Romb1Value old d).toNat := by
    rw [mbc5Romb1Value_toNat]
    omega
  rw [hvalue, BitVec.ofNat_toNat, BitVec.setWidth_eq]

/-- Settles O33: each write stores its half of the register beside the half it keeps, read as a number. -/
theorem mbc5RomBankHasTwoWriteRanges : Obligations.Mbc5RomBankHasTwoWriteRanges := by
  intro a d s
  rw [← mbc5Romb0Value_eq_ofNat, ← mbc5Romb1Value_eq_ofNat]
  exact ⟨rfl, rfl⟩

/-! ### The RAMB write (R217) -/

theorem mbc5RambValue_eq_ofNat (r : Bool) (d : Byte) :
    mbc5RambValue r d = BitVec.ofNat 8 (if r then d.toNat % 8 else d.toNat % 16) := by
  rw [← mbc5RambValue_toNat, BitVec.ofNat_toNat, BitVec.setWidth_eq]

theorem rumbleOfData_eq_decide (d : Byte) : rumbleOfData d = decide (d.toNat / 8 % 2 = 1) := by
  rw [Bool.eq_iff_iff, rumbleOfData_iff, decide_eq_true_eq]

/-- The RAMB write on numbers. -/
theorem exec_mbc5WrRamb (a : Addr) (d : Byte) (s : State) : exec (.mbc5WrRamb a d) s = .next { s with
    ramBankNumber := BitVec.ofNat 8 (if s.hasRumble then d.toNat % 8 else d.toNat % 16)
    rumbleOut := if s.hasRumble then decide (d.toNat / 8 % 2 = 1) else s.rumbleOut
    output := .nothing } := by
  rw [← mbc5RambValue_eq_ofNat, ← rumbleOfData_eq_decide]
  rfl

/-- Settles O34, by whether there is a motor. -/
theorem mbc5RambWriteDrivesTheMotor : Obligations.Mbc5RambWriteDrivesTheMotor := by
  refine fun a d s => ⟨fun hmotor => ?_, fun hnone => ?_⟩
  · rw [exec_mbc5WrRamb, if_pos hmotor, if_pos hmotor]
  · rw [exec_mbc5WrRamb, if_neg (Bool.eq_false_iff.1 hnone), if_neg (Bool.eq_false_iff.1 hnone)]

end Sys2Proof.Machine
end

section
/-! The variants whose transactions are refused, MBC6, MBC7 and MMM01 (45_refused_variants.md R230), and the host's side of the
signals and of MBC7's sensor input (R231, 46_host_interface.md R246, R247). -/

namespace Sys2Proof.Machine

/-! ### The refused rows (R75, R230) -/

/-- A refused row takes every word of its mode: its mask has no bit. -/
theorem decode_of_refusedRow {m : MapperKind} {r : Row} (hr : r ∈ refusedRows) (hm : m ∈ r.modes) (T : Word) :
    decode m T = .ok (r.build (Word.isWrite T) (Word.addr T) (Word.data T)) := by
  have hzero : ∀ q ∈ refusedRows, q.mask = 0 ∧ q.pattern = 0 := by decide
  obtain ⟨hmask, hpattern⟩ := hzero r hr
  refine decode_of_fits (List.mem_append_right _ hr) hm ?_
  rw [hmask, hpattern]
  exact BitVec.and_zero

section
variable (w : Bool) (a : Addr) (d : Byte) (s : State)

theorem exec_mbc6Any : exec (.mbc6Any w a d) s = refuseVariant s := rfl

theorem exec_mbc7Any : exec (.mbc7Any w a d) s = refuseVariant s := rfl

theorem exec_mmm01Any : exec (.mmm01Any w a d) s = refuseVariant s := rfl

end

/-- Settles O59: each meaning is the one refusal, and each mode has the one row, whose operand is the data field of a write word
and 0 for a read word. -/
theorem unmodelledVariantsRefuse : Obligations.UnmodelledVariantsRefuse := by
  refine ⟨fun w a d s => ⟨exec_mbc6Any w a d s, exec_mbc7Any w a d s, exec_mmm01Any w a d s⟩,
    fun T => ⟨if Word.isWrite T then Word.data T else 0, fun hw => if_pos hw, ?_, ?_, ?_⟩⟩
  · exact decode_of_refusedRow (.head _) (.head _) T
  · exact decode_of_refusedRow (.tail _ (.head _)) (.head _) T
  · exact decode_of_refusedRow (.tail _ (.tail _ (.head _))) (.head _) T

/-! ### Sampling and the sensor input (R231, R246, R247) -/

/-- A step with a pending sampling gives back the signals. -/
theorem step_of_sample {s : State} {rest : List Input} (hp : s.pending = .sampleOutputs :: rest) :
    step s = .next { s with pending := rest, begun := true, output := .signals (hostSignals s) } :=
  step_of_pending_cons hp

/-- The title bytes are the ROM bytes from 0x134 (R281). -/
theorem getD_title (s : State) {k : Nat} (hk : k < 16) :
    (hostSignals s).title.getD k 0 = Memory.read s.rom (0x134 + k) :=
  Memory.getD_slice s.rom 16 0x134 k hk

/-- A step with a pending sensor input sets the port of an MBC7 block; another block has none (R231, log entry 15). -/
theorem step_of_sensor {s : State} {sx sy : BitVec 16} {rest : List Input} (hp : s.pending = .sensor sx sy :: rest) :
    step s = if s.kind = .mbc7
      then .next { s with pending := rest, begun := true, output := .nothing, sensor := some (sx, sy) }
      else .next { s with pending := rest, begun := true, output := .nothing } :=
  step_of_pending_cons hp

/-- Settles O52: the two size codes are header bytes by the invariant, the other bytes are read from the ROM; the sensor by
whether the block is MBC7. -/
theorem hostSeesSignalsAndDrivesTheSensor : Obligations.HostSeesSignalsAndDrivesTheSensor := by
  refine fun s rest => ⟨fun hs hp => ?_, fun sx sy hp => ⟨fun hk => ?_, fun hk => ?_⟩⟩
  · exact ⟨hostSignals s, step_of_sample hp, rfl, rfl, Memory.length_slice s.rom 0x134 16, fun k hk => getD_title s hk, rfl, rfl,
      hs.config.romCodeByte, hs.config.ramCodeByte⟩
  · rw [step_of_sensor hp, if_pos hk]
  · rw [step_of_sensor hp, if_neg hk]

end Sys2Proof.Machine
end

section
/-! The save artifact and its restoring (46_host_interface.md R240 to R243), the clock's ticks (R244), and the block that is
constructed once (R242, R285). -/

namespace Sys2Proof.Machine

/-! ### The artifact (R240, R241) -/

/-- With a clock the artifact ends in the snapshot of the live registers and the reading. -/
theorem artifact_of_rtc {s : State} {r : Rtc} (hr : s.rtc = some r) (now : BitVec 64) :
    artifact s now = Memory.slice s.ram 0 s.ramLen ++ (rtcSnapshot r.live ++ le64 now) := by
  rw [artifact, hr]

/-- Without a clock the artifact is the RAM cells. -/
theorem artifact_of_noRtc {s : State} (hr : s.rtc = none) (now : BitVec 64) :
    artifact s now = Memory.slice s.ram 0 s.ramLen := by
  rw [artifact, hr]
  exact List.append_nil _

theorem expectedLen_of_rtc {s : State} {r : Rtc} (hr : s.rtc = some r) : expectedLen s = s.ramLen + 16 := by
  rw [expectedLen, hasRtc_of_some hr, if_pos rfl]

/-- An artifact has the length that `restore` expects of it. -/
theorem length_artifact (s : State) (now : BitVec 64) : (artifact s now).length = expectedLen s := by
  cases hr : s.rtc with
  | none =>
    rw [artifact_of_noRtc hr, Memory.length_slice, expectedLen, State.hasRtc, hr]
    rfl
  | some r =>
    rw [artifact_of_rtc hr, expectedLen_of_rtc hr, List.length_append, Memory.length_slice, List.length_append,
      length_rtcSnapshot, length_le64]

theorem drop_artifact {s : State} {r : Rtc} (hr : s.rtc = some r) (now : BitVec 64) :
    (artifact s now).drop s.ramLen = rtcSnapshot r.live ++ le64 now := by
  rw [artifact_of_rtc hr, List.drop_left' (Memory.length_slice s.ram 0 s.ramLen)]

theorem getD_artifact_ram {s : State} {j : Nat} (hj : j < s.ramLen) (now : BitVec 64) :
    (artifact s now).getD j 0 = Memory.read s.ram j := by
  rw [artifact, List.getD_append _ _ _ _ ((Memory.length_slice ..).symm ▸ hj), Memory.getD_slice _ _ _ _ hj, Nat.zero_add]

/-- Byte `k` behind the RAM cells is byte `k` of the snapshot and the reading. -/
theorem getD_artifact_rtc {s : State} {r : Rtc} (hr : s.rtc = some r) (now : BitVec 64) (k : Nat) :
    (artifact s now).getD (s.ramLen + k) 0 = (rtcSnapshot r.live ++ le64 now).getD k 0 := by
  rw [← drop_artifact hr, List.getD_eq_getElem?_getD, List.getD_eq_getElem?_getD, List.getElem?_drop]

theorem getD_le64_toNat (t : BitVec 64) : ∀ k < 8, ((le64 t).getD k 0).toNat = t.toNat / 256 ^ k % 256 := by
  intro k hk
  interval_cases k <;> simp [le64, Nat.shiftRight_eq_div_pow]

/-- Settles O48: the cells are the slice in front, the clock's bytes the snapshot and the reading behind it. -/
theorem artifactHasTheStatedLayout : Obligations.ArtifactHasTheStatedLayout := by
  refine fun s now => ⟨length_artifact s now, length_artifact s now, fun j hj => getD_artifact_ram hj now,
    fun r hr => ⟨fun i => ?_, fun k hk => ?_, fun k hk => ?_⟩⟩
  · rw [getD_artifact_rtc hr]
    fin_cases i <;> rfl
  · rw [Nat.add_assoc, getD_artifact_rtc hr]
    interval_cases k <;> rfl
  · rw [Nat.add_assoc, getD_artifact_rtc hr, List.getD_append_right _ _ _ _ (by simp), length_rtcSnapshot,
      Nat.add_sub_cancel_left, getD_le64_toNat now k hk]

theorem isRefusedKind_iff {k : MapperKind} : isRefusedKind k = true ↔ k ∈ [MapperKind.mbc6, .mbc7, .mmm01] :=
  decide_eq_true_iff

theorem hostPersist_of_refusedKind {s : State} (hk : s.kind ∈ [MapperKind.mbc6, .mbc7, .mmm01]) (now : BitVec 64) :
    hostPersist now s = refuseVariant s := if_pos (isRefusedKind_iff.2 hk)

theorem hostPersist_of_notRefusedKind {s : State} (hk : s.kind ∉ [MapperKind.mbc6, .mbc7, .mmm01]) (now : BitVec 64) :
    hostPersist now s = .next { s with output := .artifact (artifact s now) } := if_neg (mt isRefusedKind_iff.1 hk)

/-- A step with a pending persist is `persist(now)` (R241). -/
theorem step_of_persist {s : State} {now : BitVec 64} {rest : List Input} (hp : s.pending = .persist now :: rest) :
    step s = hostPersist now { s with pending := rest, begun := true } := step_of_pending_cons hp

/-- Settles O49, by whether the kind is refused; the artifact reads the RAM and the clock only, which consuming the input leaves. -/
theorem persistSnapshotsWithoutChange : Obligations.PersistSnapshotsWithoutChange := by
  refine fun s now rest hp => ⟨fun hk => ?_, fun hk => ?_⟩
  · exact (step_of_persist hp).trans (hostPersist_of_notRefusedKind (s := { s with pending := rest, begun := true }) hk now)
  · exact (step_of_persist hp).trans (hostPersist_of_refusedKind (s := { s with pending := rest, begun := true }) hk now)

/-! ### Restore (R242, R243) -/

section
variable {advance : Advance} {buf : List Byte} {now : BitVec 64} {s : State}

theorem restoreWith_of_used (hf : s.fresh = false) : restoreWith advance buf now s = .refused .restoreNotFresh := if_pos hf

theorem restoreWith_of_otherLength (hf : s.fresh = true) (hl : buf.length ≠ expectedLen s) :
    restoreWith advance buf now s = .next { s with fresh := false, output := .nothing } := by
  rw [restoreWith, if_neg (by rw [hf]; decide), if_pos hl, done]

theorem restoreWith_of_expectedLen (hf : s.fresh = true) (hl : buf.length = expectedLen s) :
    restoreWith advance buf now s = .next { s with
      fresh := false, output := .nothing
      ram := Memory.ofBytes ((buf.take s.ramLen).map (restoreCell s.kind))
      rtc := s.rtc.map (restoreRtc advance (buf.drop s.ramLen) now) } := by
  rw [restoreWith, if_neg (by rw [hf]; decide), if_neg (not_not.2 hl), done]

end

theorem restoreCell_toNat (k : MapperKind) (b : Byte) :
    (restoreCell k b).toNat = if k = .mbc2 then b.toNat % 16 else b.toNat := by
  rw [restoreCell]
  split
  · exact and_0x0F_toNat b
  · rfl

/-- Cell `j` of the restored RAM is byte `j` of the buffer, as the kind keeps it. -/
theorem read_restored_of_lt {n j : Nat} (hj : j < n) (buf : List Byte) (k : MapperKind) :
    Memory.read (Memory.ofBytes ((buf.take n).map (restoreCell k))) j = restoreCell k (buf.getD j 0) := by
  have hz : (0 : Byte) = restoreCell k 0 := by cases k <;> rfl
  rw [Memory.read_ofBytes, hz, List.getD_map, ← hz, List.getD_eq_getElem?_getD, List.getElem?_take_of_lt hj,
    ← List.getD_eq_getElem?_getD]

/-- Behind the RAM's length nothing is restored. -/
theorem read_restored_of_le {n j : Nat} (hj : n ≤ j) (buf : List Byte) (k : MapperKind) :
    Memory.read (Memory.ofBytes ((buf.take n).map (restoreCell k))) j = 0 := by
  rw [Memory.read_ofBytes, List.getD_eq_default]
  rw [List.length_map, List.length_take]
  omega

theorem regsOfSnapshot_drop (buf : List Byte) (n : Nat) : regsOfSnapshot (buf.drop n) =
    ⟨buf.getD n 0, buf.getD (n + 1) 0, buf.getD (n + 2) 0, buf.getD (n + 3) 0, buf.getD (n + 4) 0⟩ := by
  simp [regsOfSnapshot, List.getD_eq_getElem?_getD, List.getElem?_drop]

/-- The reading in the last eight bytes of a buffer, as the sum of its bytes' places. -/
theorem leValue_reading {buf : List Byte} {n : Nat} (hl : buf.length = n + 16) :
    leValue (((buf.drop n).drop 8).take 8) = ((List.range 8).map fun k => (buf.getD (n + 8 + k) 0).toNat * 256 ^ k).sum := by
  have hlen : (((buf.drop n).drop 8).take 8).length = 8 := by
    rw [List.length_take, List.length_drop, List.length_drop]
    omega
  rw [leValue_eq_sum, hlen]
  congr 1
  refine List.map_congr_left fun k hk => ?_
  have hbyte : (((buf.drop n).drop 8).take 8).getD k 0 = buf.getD (n + 8 + k) 0 := by
    rw [List.getD_eq_getElem?_getD, List.getElem?_take_of_lt (List.mem_range.1 hk), List.getElem?_drop, List.getElem?_drop,
      ← Nat.add_assoc, ← List.getD_eq_getElem?_getD]
  rw [hbyte]

/-- Settles O50, by freshness and the buffer's length; the restored RAM is read cell by cell, the clock from the bytes behind it. -/
theorem restoreLoadsAMatchingSave : Obligations.RestoreLoadsAMatchingSave := by
  refine ⟨fun advance buf now s => ⟨restoreWith_of_used, restoreWith_of_otherLength, fun hf hl => ?_⟩,
    fun buf now s rest hp => step_of_pending_cons hp⟩
  refine ⟨_, _, restoreWith_of_expectedLen hf hl, fun j hj => ?_, fun j hj => read_restored_of_le hj buf s.kind,
    fun hr => ?_, fun r hr => ?_⟩
  · rw [read_restored_of_lt hj, restoreCell_toNat]
  · rw [hr, Option.map_none]
  · rw [expectedLen_of_rtc hr] at hl
    rw [hr, Option.map_some, restoreRtc, regsOfSnapshot_drop, leValue_reading hl, elapsed]

/-- The elapsed time is the difference cut off at 0. -/
theorem elapsed_eq_sub (saved : Nat) (now : BitVec 64) : elapsed saved now = now.toNat - saved := by
  rw [elapsed]
  split
  · rfl
  · next h => exact (Nat.sub_eq_zero_of_le (Nat.le_of_not_le h)).symm

/-- A cell that holds 4 bits where the kind is MBC2 is restored as it is (R28, R242). -/
theorem restoreCell_eq_self {k : MapperKind} {b : Byte} (h : k = .mbc2 → b.toNat < 16) : restoreCell k b = b := by
  apply BitVec.eq_of_toNat_eq
  rw [restoreCell_toNat]
  split
  · next hk => exact Nat.mod_eq_of_lt (h hk)
  · rfl

/-- The RAM cells of an artifact are restored as the RAM they were saved from. -/
theorem restored_artifact {s : State} (hs : s.Inv) (now : BitVec 64) :
    Memory.ofBytes (((artifact s now).take s.ramLen).map (restoreCell s.kind)) = s.ram := by
  refine Memory.ext (Memory.wf_ofBytes _) hs.storage.ramWf fun j => ?_
  rcases Nat.lt_or_ge j s.ramLen with hj | hj
  · rw [read_restored_of_lt hj, getD_artifact_ram hj, restoreCell_eq_self fun hk => hs.storage.nibbles hk j]
  · rw [read_restored_of_le hj, Memory.read_of_below hj hs.storage.ramBelow]

/-- The clock of an artifact is restored as the live registers saved, advanced by the time between the two readings (R243). -/
theorem restoreRtc_artifact {s : State} {r : Rtc} (hr : s.rtc = some r) (advance : Advance) (now0 now1 : BitVec 64) (q : Rtc) :
    restoreRtc advance ((artifact s now0).drop s.ramLen) now1 q =
      ⟨advance r.live (now1.toNat - now0.toNat), q.latched, q.latchArmed⟩ := by
  have hreading : ((rtcSnapshot r.live ++ le64 now0).drop 8).take 8 = le64 now0 := rfl
  rw [restoreRtc, drop_artifact hr, regsOfSnapshot_append, hreading, leValue_le64, elapsed_eq_sub]

/-- Settles O51: the artifact has the length the other block expects, and its RAM cells and its clock are restored as saved. -/
theorem persistThenRestoreKeepsRamAndTime : Obligations.PersistThenRestoreKeepsRamAndTime := by
  intro advance s f now0 now1 hs hf hkind hlen hclock hk
  have hexpected : (artifact s now0).length = expectedLen f := by
    rw [length_artifact, expectedLen, expectedLen, hlen, hclock]
  have hrestore := restoreWith_of_expectedLen (advance := advance) (now := now1) hf hexpected
  have hram : Memory.ofBytes (((artifact s now0).take f.ramLen).map (restoreCell f.kind)) = s.ram := by
    rw [hlen, hkind, restored_artifact hs]
  rw [hram] at hrestore
  refine ⟨artifact s now0, hostPersist_of_notRefusedKind hk now0, _, hrestore, fun hr => ?_, fun r q hr hq => ?_⟩
  · rw [hr, Option.map_none]
  · rw [hq, Option.map_some, hlen, restoreRtc_artifact hr]

/-! ### Ticks (R244) -/

/-- Settles O44, by whether the block has a clock. -/
theorem tickAdvancesTheLiveRegistersOnly : Obligations.TickAdvancesTheLiveRegistersOnly := by
  refine ⟨fun advance n s _ => ⟨fun r hr => ?_, fun hr => ?_⟩, fun n s rest _ hp => step_of_pending_cons hp⟩
  · rw [rtcTickWith, hr, Option.map_some, done]
  · rw [rtcTickWith, hr, Option.map_none, done, ← hr]

/-! ### The marks of a block in use (R242, R285) -/

/-- A step that takes an input leaves the session begun. -/
theorem StepEffect.begun_of_pending_cons {s t : State} {i : Input} {rest : List Input} (h : StepEffect s t)
    (hp : s.pending = i :: rest) : t.begun = true := by
  cases h with
  | idle hq =>
    rw [hq] at hp
    cases hp
  | bus _ _ _ hf =>
    obtain ⟨-, -, -, hbegun, -, -⟩ := hf.frame
    exact hbegun
  | construct | ignored | restored | persist | tick | sample | sensor | noSensor => rfl

/-- The inputs that use the block: a bus transaction, a tick, a restore (R242). -/
def Input.Uses (i : Input) : Prop := (∃ T, i = .bus T) ∨ (∃ n, i = .rtcTick n) ∨ ∃ b now, i = .restore b now

/-- A step that uses the block leaves it not fresh. -/
theorem StepEffect.fresh_of_uses {s t : State} {i : Input} {rest : List Input} (h : StepEffect s t)
    (hp : s.pending = i :: rest) (hi : i.Uses) : t.fresh = false := by
  cases h with
  | bus _ _ _ hf =>
    obtain ⟨-, -, hfresh, -⟩ := hf.frame
    exact hfresh
  | ignored | restored | tick => rfl
  | idle hq =>
    rw [hq] at hp
    cases hp
  | construct hq | persist hq | sample hq | sensor hq | noSensor hq =>
    rw [hq] at hp
    cases hp
    simp [Input.Uses] at hi

/-- Once the session has begun no step makes a block fresh again. -/
theorem StepEffect.fresh {s t : State} (h : StepEffect s t) (hb : s.begun = true) (hs : s.fresh = false) :
    t.fresh = false := by
  cases h with
  | bus _ _ _ hf =>
    obtain ⟨-, -, hfresh, -⟩ := hf.frame
    exact hfresh
  | construct _ hn =>
    rw [hn] at hb
    cases hb
  | ignored | restored | tick => rfl
  | idle | persist | sample | sensor | noSensor => exact hs

/-- What every step preserves, every run preserves. -/
theorem run_preserves {P : State → Prop} (hstep : ∀ s t, P s → step s = .next t → P t) {n : Nat} {s t : State} (hs : P s)
    (hrun : Host.Core.run Sys2Proof.core n s = .next t) : P t := by
  induction n generalizing s with
  | zero =>
    cases hrun
    exact hs
  | succ n ih =>
    obtain ⟨u, hsu, hut⟩ := run_succ_next hrun
    exact ih (hstep s u hs hsu) hut

/-- Settles O58: by what a step can do to the two marks, along runs, and by the refusals that the marks cause. -/
theorem blockInUseIsNeverConstructedAgain : Obligations.BlockInUseIsNeverConstructedAgain := by
  refine ⟨fun s t i rest hp h => ⟨(step_effect h).begun_of_pending_cons hp, (step_effect h).fresh_of_uses hp⟩,
    fun n s t hb hrun => ⟨?_, fun hf => ?_⟩, fun s rest => ⟨fun img hb hp => ?_, fun hb hp => ?_, fun b now hf hp => ?_⟩⟩
  · exact run_preserves (P := fun u => u.begun = true) (fun _ _ hu h => (step_effect h).begun hu) hb hrun
  · obtain ⟨-, hfresh⟩ := run_preserves (P := fun u => u.begun = true ∧ u.fresh = false)
      (fun _ _ ⟨hbegun, hused⟩ h => ⟨(step_effect h).begun hbegun, (step_effect h).fresh hbegun hused⟩) ⟨hb, hf⟩ hrun
    exact hfresh
  · exact (step_of_construct hp).trans (if_pos hb)
  · exact (step_of_pending_cons hp).trans (if_pos hb)
  · exact (step_of_pending_cons hp).trans (restoreWith_of_used hf)

end Sys2Proof.Machine
end

section
/-! Bus transactions that answer and those that are refused (60_exceptions.md R260), construction's checks in their order (R261, R267)
and the header checksum (70_reset_and_hazards.md R283). -/

namespace Sys2Proof.Machine

/-! ### The outcome of a bus transaction (R230, R260) -/

/-- What neither branch is, the conditional is not. -/
theorem ite_ne {c : Prop} [Decidable c] {x y z : Result} (hx : x ≠ z) (hy : y ≠ z) : (if c then x else y) ≠ z := by
  split
  · exact hx
  · exact hy

/-- Only the rows of the refused modes refuse (R230, R260). -/
theorem modes_of_exec_refused {i : Instr} {s : State} {r : Refusal} (h : exec i s = .refused r) :
    ∀ m ∈ i.modes, m ∈ [MapperKind.mbc6, .mbc7, .mmm01] := by
  cases i with
  | mbc6Any w a d | mbc7Any w a d | mmm01Any w a d =>
    intro m hm
    rw [kind_eq_of_mem hm]
    decide
  | roRdRam a | roWrRam a d | mbc1RdRam a | mbc1WrRam a d | mbc2RdRam a | mbc2WrRam a d | mbc5RdRam a
  | mbc5WrRam a d => exact absurd h (ite_ne nofun nofun)
  | mbc3RdRam a =>
    refine absurd h (ite_ne ?_ nofun)
    split
    · exact ite_ne nofun nofun
    · rw [readRtc]
      cases s.rtc <;> nofun
    · nofun
  | mbc3WrRam a d =>
    refine absurd h (ite_ne ?_ nofun)
    split
    · exact ite_ne nofun nofun
    · rw [writeRtc]
      cases s.rtc <;> nofun
    · nofun
  | _ => cases h

/-- In a mode whose transactions are not refused every instruction of the mode answers a next state. -/
theorem exec_next_of_mode {i : Instr} {m : MapperKind} (hm : m ∈ i.modes) (hk : m ∉ [MapperKind.mbc6, .mbc7, .mmm01])
    (s : State) : ∃ t, exec i s = .next t :=
  (exec_answersOrRefuses i s).resolve_right fun h => hk (modes_of_exec_refused h m hm)

/-- A bus transaction on a block of a specified variant ends in a next state (R260). -/
theorem step_bus_next {s : State} {T : Word} {rest : List Input} (hp : s.pending = .bus T :: rest)
    (hk : s.kind ∈ [MapperKind.romOnly, .mbc1, .mbc2, .mbc3, .mbc5]) : ∃ t, step s = .next t := by
  have hspecified : ∀ m ∈ [MapperKind.romOnly, .mbc1, .mbc2, .mbc3, .mbc5],
      m ≠ .unsupported ∧ m ∉ [MapperKind.mbc6, .mbc7, .mmm01] := by decide
  obtain ⟨hsupported, hmodelled⟩ := hspecified _ hk
  obtain ⟨_, -, -, -, -, i, hd, -, -⟩ := exactlyOneRowFitsEveryWord s.kind T hsupported
  rw [step_of_bus_decode hp hd]
  exact exec_next_of_mode (mode_mem_of_decode hd) hmodelled _

/-- A write gives back nothing (R52). -/
theorem RegionEffect.output_of_write {s t : State} {a : Addr} {d : Byte} (h : RegionEffect s (.write a d) t) :
    t.output = .nothing := by
  cases h with
  | nothing | registers | latch | storage | clock => rfl

/-- The instruction of a refused row is the refusal, whatever the fields of the word (R230). -/
theorem exec_build_refusedRow : ∀ r ∈ refusedRows, ∀ (w : Bool) (a : Addr) (d : Byte) (s : State),
    exec (r.build w a d) s = refuseVariant s := by
  simp [refusedRows, exec_mbc6Any, exec_mbc7Any, exec_mmm01Any]

/-- In a refused mode every word decodes to an instruction that refuses (R230). -/
theorem decode_of_refusedMode {m : MapperKind} (hm : m ∈ [MapperKind.mbc6, .mbc7, .mmm01]) (T : Word) :
    ∃ i, decode m T = .ok i ∧ ∀ s, exec i s = refuseVariant s := by
  have hrow : ∀ m ∈ [MapperKind.mbc6, .mbc7, .mmm01], ∃ r ∈ refusedRows, m ∈ r.modes := by decide
  obtain ⟨r, hr, hmode⟩ := hrow m hm
  exact ⟨_, decode_of_refusedRow hr hmode T, exec_build_refusedRow r hr _ _ _⟩

/-- Settles O12, by the modes of the decoded instruction: outside the refused modes it answers, and gives back what its direction
gives; in them it is a refused row's. -/
theorem specifiedBlockAnswersEveryTransaction : Obligations.SpecifiedBlockAnswersEveryTransaction := by
  refine fun s T rest hp => ⟨fun hk => ?_, fun hk => ?_⟩
  · obtain ⟨t, ht⟩ := step_bus_next hp hk
    refine ⟨t, ht, by rw [step_pending ht, hp, List.tail_cons], fun hw => ?_, fun hw => ?_⟩
    · have heffect := step_regionEffect hp ht
      rw [Word.transaction_eq_write.2 ⟨hw, rfl, rfl⟩] at heffect
      exact heffect.output_of_write
    · obtain ⟨b, rfl⟩ := readTransactionChangesNothing s t T rest hp hw ht
      exact ⟨b, rfl⟩
  · obtain ⟨i, hd, hrefuse⟩ := decode_of_refusedMode hk T
    exact (step_of_bus_decode hp hd).trans (hrefuse _)

/-! ### Construction's checks (R261, R267, R280) -/

/-- Construction before the session, its checks in R267's order on the bytes of the image. -/
theorem constructWith_of_notBegun {table : Byte → CartType} {img : List Byte} {s : State} (hb : s.begun = false) :
    constructWith table img s =
    if img.length < 0x150 then .fault (.tooShort img.length)
    else if (table (img.getD 0x147 0)).kind = .unsupported then .fault (.unsupportedCartridgeType (img.getD 0x147 0))
    else if 8 < (img.getD 0x148 0).toNat ∨ 5 < (img.getD 0x149 0).toNat then
      .fault (.invalidSizeCode (img.getD 0x148 0) (img.getD 0x149 0))
    else if img.length ≠ 0x8000 * 2 ^ (img.getD 0x148 0).toNat then
      .fault (.sizeMismatch img.length (0x8000 * 2 ^ (img.getD 0x148 0).toNat))
    else .next (builtState (table (img.getD 0x147 0)) img.length (Memory.ofBytes img) s.pending) := by
  rw [constructWith, hb, if_neg Bool.false_ne_true, constructFrom]
  simp only [Memory.read_ofBytes, romSize_eq, Config.headerMinLen]

/-- Construction stores the checksum's result (R283). -/
@[simp] theorem checksumOk_builtState (ct : CartType) (len : Nat) (rom : Memory) (pending : List Input) :
    (builtState ct len rom pending).checksumOk = headerChecksumOk rom := by
  simp only [builtState]

/-- A declared length leaves room for the header (R263, R284). -/
theorem headerMinLen_le_of_romSize {len c : Nat} (hl : len = 0x8000 * 2 ^ c) : 0x150 ≤ len := by
  have := Nat.one_le_two_pow (n := c)
  omega

/-- Settles O55: each clause passes the checks before its own. -/
theorem constructionChecksInOrder : Obligations.ConstructionChecksInOrder := by
  refine ⟨fun table img s hb => ?_, fun s rest => ⟨fun img hp => step_of_construct hp, fun hp => step_of_pending_cons hp⟩⟩
  intro ct rsc rmc
  rw [constructWith_of_notBegun hb]
  refine ⟨if_neg (Bool.eq_false_iff.1 hb), fun hshort => if_pos hshort, fun hlen hk => ?_, fun hlen hk hcode => ?_,
    fun hlen hk hrom hram hsize => ?_, fun hk hrom hram hsize => ?_, rfl⟩
  · rw [if_neg hlen.not_gt, if_pos hk]
  · rw [if_neg hlen.not_gt, if_neg hk, if_pos hcode]
  · rw [if_neg hlen.not_gt, if_neg hk, if_neg (not_or.2 ⟨hrom.not_gt, hram.not_gt⟩), if_pos hsize]
  · rw [if_neg (headerMinLen_le_of_romSize hsize).not_gt, if_neg hk, if_neg (not_or.2 ⟨hrom.not_gt, hram.not_gt⟩),
      if_neg (not_not.2 hsize)]
    exact ⟨_, rfl, rfl, checksumOk_builtState ..⟩

/-! ### The header checksum (R283) -/

/-- A slice as its cells. -/
theorem Memory.slice_eq_map (m : Memory) (i n : Nat) :
    Memory.slice m i n = (List.range n).map fun k => Memory.read m (i + k) := by
  induction n generalizing i with
  | zero => rfl
  | succ n ih =>
    rw [Memory.slice, ih, List.range_succ_eq_map, List.map_cons, List.map_map]
    congr 2
    funext k
    exact congrArg (Memory.read m) (by simp only [Nat.succ_eq_add_one]; omega)

/-- The running difference takes each byte and one more for each from what it starts with. -/
theorem foldl_sub_one_eq (bs : List Byte) (x : Byte) :
    bs.foldl (fun x b => x - b - 1) x = x - BitVec.ofNat 8 ((bs.map BitVec.toNat).sum + bs.length) := by
  induction bs generalizing x with
  | nil => simp
  | cons b bs ih =>
    rw [List.foldl_cons, ih, List.map_cons, List.sum_cons, List.length_cons]
    bv_omega

/-- A difference from 0 is `c` exactly when what was taken and `c` are 0 modulo 256. -/
theorem zero_sub_ofNat_eq_iff (n : Nat) (c : Byte) : 0 - BitVec.ofNat 8 n = c ↔ (n + c.toNat) % 256 = 0 := by
  bv_omega

/-- The check as a sum (R283). -/
theorem headerChecksumOk_ofBytes_iff (img : List Byte) : headerChecksumOk (Memory.ofBytes img) = true ↔
    (((List.range 25).map fun k => (img.getD (0x134 + k) 0).toNat).sum + 25 + (img.getD 0x14D 0).toNat) % 256 = 0 := by
  rw [headerChecksumOk, decide_eq_true_eq, headerChecksum, foldl_sub_one_eq, zero_sub_ofNat_eq_iff, Memory.length_slice,
    Memory.slice_eq_map, List.map_map, Memory.read_ofBytes]
  simp only [Function.comp_def, Memory.read_ofBytes]

/-- ROM images with the same type and size bytes build blocks that differ in the image and the checksum result alone. -/
theorem builtState_of_headerBytes {table : Byte → CartType} {len : Nat} {rom rom' : Memory} {pending : List Input}
    (h : ∀ a ∈ [0x147, 0x148, 0x149], Memory.read rom' a = Memory.read rom a) :
    builtState (table (Memory.read rom' 0x147)) len rom' pending =
      { builtState (table (Memory.read rom 0x147)) len rom pending with
        rom := rom', checksumOk := headerChecksumOk rom' } := by
  simp only [List.forall_mem_cons] at h
  obtain ⟨htype, hromCode, hramCode, -⟩ := h
  simp only [builtState, htype, hromCode, hramCode]

/-- Settles O56: the accumulator takes the sum and 25 from 0, and another image of the same header bytes passes the same checks. -/
theorem headerChecksumIsARunningDifference : Obligations.HeaderChecksumIsARunningDifference := by
  refine ⟨headerChecksumOk_ofBytes_iff, fun table img s t h => ?_⟩
  obtain ⟨hb, hlen, hk, hrom, hram, hsize, rfl⟩ := constructWith_next h
  refine ⟨checksumOk_builtState .., fun other hsame hbytes => ?_⟩
  have hread : ∀ a ∈ [0x147, 0x148, 0x149], Memory.read (Memory.ofBytes other) a = Memory.read (Memory.ofBytes img) a := by
    simpa only [Memory.read_ofBytes] using hbytes
  rw [← builtState_of_headerBytes hread, ← hsame]
  have htype := hread 0x147 (by decide)
  have hromCode := hread 0x148 (by decide)
  have hramCode := hread 0x149 (by decide)
  exact constructWith_of_checks hb (hsame ▸ hlen) (htype ▸ hk) (hromCode ▸ hrom) (hramCode ▸ hram)
    (hromCode ▸ hsame ▸ hsize)

end Sys2Proof.Machine
end
